-- ==== Sys2Proof/Word.lean ====
section
/-!
DEFINITION. The word types of the bus and of the register file, and the three states of a line.
-/
namespace Sys2Proof

/-- A data word: 8 bits (R6). -/
abbrev Byte := BitVec 8

/-- An address word or a register pair: 16 bits (R6). -/
abbrev Word := BitVec 16

/-- The state of a line: Low, High, HighImpedance (R11). -/
inductive Level
  | low
  | high
  | hiZ
deriving DecidableEq, Repr

end Sys2Proof
end

