-- ==== Sys2Proof/Config.lean ====
section
/-!
DEFINITION. What a board fixes when it is built: the values R6 fixes and the parameters R8 leaves open.
-/
namespace Sys2Proof

/-- The parameters of R8 that belong to the board. A step reads them and never writes them (R42); they
stand in `State` so that a claim holds for every value of them.
MEM_BASE, MEM_SIZE, MEM_INIT and MEM_WRITABLE belong to one memory device (`Machine.RefMem`).
EXEC (R9) is an argument of the engine (`Machine.ExecTable`). -/
structure Params where
  /-- RESET_HOLD_STEPS: the board steps the RESET line stays Low after a Reset request. -/
  resetHold : Nat
  /-- NMI_HOLD_STEPS: the same for the NMI line after a NonMaskableInterrupt request. -/
  nmiHold : Nat
  /-- R_INC_MASK: which bits of the refresh counter the increment changes. -/
  rIncMask : Byte
  /-- MEM_RESET_CLEARS: whether a memory device's reset() clears its bytes. -/
  memResetClears : Bool
  /-- BUS_INIT: the state of every line at construction. -/
  busInit : Level
deriving DecidableEq, Repr

/-- The values this spec decides (R8: D3, D17, D38) and the hold values of the reference board of
95_test_vectors.md. -/
def Params.reference : Params where
  resetHold := 6
  nmiHold := 1
  rIncMask := 0x7F#8
  memResetClears := false
  busInit := .hiZ

/-- The depth of the micro-op pipeline (R6, R32). -/
def Config.pipeDepth : Nat := 8

/-- The delay of the refresh release, in ticks of the clock generator (R6). -/
def Config.rfshDelay : Nat := 4

/-- The delay of the program counter increment, in ticks of the clock generator (R6). -/
def Config.pcIncDelay : Nat := 1

/-- The RESET sequence: 3 full clocks, 6 half-clock CPU ticks (R6). -/
def Config.resetSteps : Nat := 6

/-- DESIGN CHOICE (log 1): the most board steps one part of `Machine.step` takes before it answers with the
state it has reached. -/
def Config.stepBound : Nat := 64

end Sys2Proof
end

