-- ==== Sys2Proof/Syntax.lean ====
section
/-!
DEFINITION. The instructions of the baseline table EXEC0 (R94), one constructor per row of spec/opcode_table.json,
in the table's order.
-/
namespace Sys2Proof

/-- The register pair of LD dd,nn, selected by opcode[5:4] (R91). -/
inductive PairName
  | bc
  | de
  | hl
  | sp
deriving DecidableEq, Repr

/-- An instruction with its operands as R100 writes them. -/
inductive Instr
  /-- NOP (R240). -/
  | nop
  /-- LD dd,nn (R241). -/
  | ldDdNn (dd : PairName) (nn : Word)
  /-- LD A,n (R242). -/
  | ldAN (n : Byte)
  /-- LD A,(nn) (R243). -/
  | ldANn (nn : Word)
  /-- LD (nn),A (R244). -/
  | ldNnA (nn : Word)
  /-- EX AF,AF' (R246). -/
  | exAfAf
  /-- EXX (R247). -/
  | exx
  /-- INC A (R260). -/
  | incA
  /-- JP nn (R270). -/
  | jpNn (nn : Word)
  /-- JP NZ,nn (R271). -/
  | jpNzNn (nn : Word)
  /-- CALL nn (R272). -/
  | callNn (nn : Word)
  /-- RET (R273). -/
  | ret
  /-- RST p, p the restart address (R274). -/
  | rstP (p : Word)
  /-- DI (R290). -/
  | di
  /-- EI (R291). -/
  | ei
  /-- HALT (R292). -/
  | halt
deriving DecidableEq, Repr

end Sys2Proof
end

