-- ==== Sys2Proof/Machine/State.lean ====
section
/-!
DEFINITION. The state of one board (10_state.md): the CPU, the signal bus, the clock generator, the device records,
the sequencer; and the reasons a step can stop.
-/
namespace Sys2Proof.Machine

/-! ## The CPU (R20 to R33) -/

/-- IM, the interrupt mode: 0, 1 or 2; 3 is written by no rule (R26, R318, U17). -/
inductive IntMode
  | im0
  | im1
  | im2
deriving DecidableEq, Repr

/-- MC, the machine-cycle index (R27). -/
inductive MCycle
  | m1
  | m2
  | m3
  | m4
  | m5
  | m6
deriving DecidableEq, Repr

/-- step, the half-clock index, with the marker DONE for a complete cursor (R16, R27). -/
inductive HalfStep
  | t1h1
  | t1h2
  | t2h1
  | t2h2
  | t3h1
  | t3h2
  | t4h1
  | t4h2
  | done
deriving DecidableEq, Repr

/-- A register half that a micro-op loads or stores (R203). -/
inductive Reg8
  | a
  | f
  | b
  | c
  | d
  | e
  | h
  | l
  | w
  | z
  | sph
  | spl
  | pch
  | pcl
deriving DecidableEq, Repr

/-- The register that holds the address of a micro-op's access (R203). -/
inductive AddrSel
  | pc
  | sp
  | wz
deriving DecidableEq, Repr

/-- A post-action, performed at the last phase of a micro-op's cycle: the seven of R204. DESIGN CHOICE (log 19): R204
lets an extended EXEC add post-actions and does not say which; this type is closed at the seven, so an `ExecTable` whose
micro-ops carry an added one is no value of the model. -/
inductive PostAction
  | incPC
  | incSP
  | decSP
  | incWZ
  | jumpWZ
  | jumpWZIfNZ
  | setPC (k : Word)
deriving DecidableEq, Repr

/-- A micro-op: a memory read or a memory write (R203). -/
inductive MicroOp
  | mr (asel : AddrSel) (dst : Reg8) (post : List PostAction)
  | mw (asel : AddrSel) (src : Reg8) (post : List PostAction)
deriving DecidableEq, Repr

/-- The CPU: register file, control registers, decode cursor, pipeline and hidden latches. -/
structure Cpu where
  /-- A in bits 15:8, F in bits 7:0 (R20, R25). -/
  af : Word
  bc : Word
  de : Word
  hl : Word
  /-- AF' (R21). -/
  af' : Word
  bc' : Word
  de' : Word
  hl' : Word
  ix : Word
  iy : Word
  sp : Word
  pc : Word
  wz : Word
  /-- FAR, the fetch-address register (R30). -/
  far : Word
  i : Byte
  r : Byte
  opcode : Byte
  iff1 : Bool
  iff2 : Bool
  im : IntMode
  mc : MCycle
  step : HalfStep
  /-- The pipeline in FIFO order, the head first (R32). -/
  pipe : List MicroOp
  halted : Bool
  nmiPending : Bool
  nmiSampled : Bool
  busGranted : Bool
  iack : Bool
  ibyte : Byte
  /-- How many ticks of the RESET sequence have been done, 0 to 6 (R33). -/
  resetStep : Nat
deriving DecidableEq, Repr

/-- Every register and latch 0, the cursor at (M1, T1_H1), the pipeline empty (R44). -/
def Cpu.zero : Cpu where
  af := 0x0000#16
  bc := 0x0000#16
  de := 0x0000#16
  hl := 0x0000#16
  af' := 0x0000#16
  bc' := 0x0000#16
  de' := 0x0000#16
  hl' := 0x0000#16
  ix := 0x0000#16
  iy := 0x0000#16
  sp := 0x0000#16
  pc := 0x0000#16
  wz := 0x0000#16
  far := 0x0000#16
  i := 0x00#8
  r := 0x00#8
  opcode := 0x00#8
  iff1 := false
  iff2 := false
  im := .im0
  mc := .m1
  step := .t1h1
  pipe := []
  halted := false
  nmiPending := false
  nmiSampled := false
  busGranted := false
  iack := false
  ibyte := 0x00#8
  resetStep := 0

/-! ## The signal bus (R35, R36) -/

/-- A line's two slots (R35). -/
structure Signal where
  prev : Level
  cur : Level
deriving DecidableEq, Repr

/-- The lines of a word: the previous and the current slot of each, line 0 first. -/
structure WordLines (n : Nat) where
  prev : Vector Level n
  cur : Vector Level n
deriving DecidableEq, Repr

/-- The lines of the table of R36. -/
inductive Line
  | a (i : Fin 16)
  | d (i : Fin 8)
  | m1
  | mreq
  | iorq
  | rd
  | wr
  | rfsh
  | halt
  | wait
  | int
  | nmi
  | reset
  | busrq
  | busack
deriving DecidableEq, Repr

/-- The signal bus: A0 to A15, D0 to D7 and the 13 control lines. -/
structure Bus where
  addr : WordLines 16
  data : WordLines 8
  m1 : Signal
  mreq : Signal
  iorq : Signal
  rd : Signal
  wr : Signal
  rfsh : Signal
  halt : Signal
  wait : Signal
  int : Signal
  nmi : Signal
  reset : Signal
  busrq : Signal
  busack : Signal
deriving DecidableEq, Repr

/-- A signal with both slots alike. -/
def Signal.both (v : Level) : Signal := ⟨v, v⟩

/-- A word's lines with every slot alike. -/
def WordLines.both (n : Nat) (v : Level) : WordLines n := ⟨Vector.replicate n v, Vector.replicate n v⟩

/-- Every line at prev = cur = v, as at construction with v = BUS_INIT (R43). -/
def Bus.all (v : Level) : Bus where
  addr := WordLines.both 16 v
  data := WordLines.both 8 v
  m1 := Signal.both v
  mreq := Signal.both v
  iorq := Signal.both v
  rd := Signal.both v
  wr := Signal.both v
  rfsh := Signal.both v
  halt := Signal.both v
  wait := Signal.both v
  int := Signal.both v
  nmi := Signal.both v
  reset := Signal.both v
  busrq := Signal.both v
  busack := Signal.both v

/-! ## The clock generator (R37, R38) -/

/-- What an action added by another device does (R38: "other devices may add actions of their own"; R131: "an action
may call schedule"; log 8). It reaches lines and the clock, never the CPU (R47, R150). -/
inductive ExternalAction
  | setLine (l : Line) (v : Level)
  | schedule (delay : Nat) (next : ExternalAction)
deriving DecidableEq, Repr

/-- The action of a clock event. The core schedules `rfshRelease` and `pcIncrement` and nothing else (R38). -/
inductive Action
  | rfshRelease
  | pcIncrement
  | external (a : ExternalAction)
deriving DecidableEq, Repr

/-- A clock event (R38); the debug label has no effect and is left out (log 10). -/
structure Event where
  expiry : Int
  action : Action
deriving DecidableEq, Repr

/-- The tick counter, -1 before the first tick, and the events in insertion order (R37). -/
structure Clock where
  counter : Int
  events : List Event
deriving DecidableEq, Repr

/-! ## Memory and devices (R39, R41, R75, R156) -/

/-- Memory contents: address and byte, addresses strictly rising, no byte equal to 0x00, which is what an
unlisted address holds (log 5). -/
abbrev Memory := List Host.Cell

/-- The reference memory device: the parameters of R75 and the state of R41. -/
structure RefMem where
  base : Word
  size : Nat
  writable : Bool
  bytes : Memory
  driving : Bool
deriving DecidableEq, Repr

/-- What an external device does to the bus and the clock during one of its ticks (R150, R156; log 8). -/
inductive LineOp
  /-- set by a numeric identifier from outside (R124). -/
  | setId (id : Nat) (v : Level)
  | addrWrite (v : Word)
  | addrRelease
  | dataWrite (v : Byte)
  | dataRelease
  | schedule (delay : Nat) (action : ExternalAction)
deriving DecidableEq, Repr

/-- The device types (R39, R151). -/
inductive DeviceType
  | cpu
  | vcu
  | memory
  | io
deriving DecidableEq, Repr

/-- The type of a device whose behaviour the spec does not give (R156). -/
inductive ExternalType
  | vcu
  | memory
  | io
deriving DecidableEq, Repr

/-- What a device is. The CPU's own state is `Node.cpu`. An external device performs one entry of its script a
tick and nothing once the script is used up. -/
inductive DeviceKind
  | cpu
  | refMem (m : RefMem)
  | external (ty : ExternalType) (script : List (List LineOp))
deriving DecidableEq, Repr

/-- A device record (R39). -/
structure Device where
  name : Nat
  frequency : Option Nat
  divider : Option Nat
  last : Option Int
  kind : DeviceKind
deriving DecidableEq, Repr

/-! ## The sequencer (R40) -/

/-- run_state (R40). -/
inductive RunState
  | stop
  | run
  | quit
deriving DecidableEq, Repr

/-- The callback of an ExecuteTask request (R168). -/
inductive Task
  | addDevices (ds : List Device)
  | setFrequency (hz : Nat)
  | copyState (device : Nat)
  /-- Any other callback: outside the model (R168, U14). -/
  | foreign
deriving DecidableEq, Repr

/-- A ThreadRequest (R40). -/
inductive Request
  | run
  | stop
  | quit
  | executeTask (t : Task)
  | reset
  | nonMaskableInterrupt
deriving DecidableEq, Repr

/-- A line the Timer Manager releases (R40). -/
inductive TimerLine
  | reset
  | nmi
deriving DecidableEq, Repr

/-! ## How a step can stop -/

/-- A hardware fault. There is none: "the hardware raises no synchronous exception" (R300) and "the sequencer has
no fault state" (R172), so the type has no constructor and no meaning can answer with a fault (log 15). -/
inductive Fault
deriving DecidableEq, Repr

/-- Why the spec gives a run no meaning (R34, R207, 93_implementation_defined.md). Every constructor is safe: the
model stops where the hardware may go on, so nothing can be proved of what follows. -/
inductive Refusal
  /-- Raised by `exec` for an instruction that has no meaning yet. Safe. -/
  | notModelled (mnemonic : String)
  /-- Raised by the CPU when EXEC has no entry for the opcode, at T4_H2 of M1 or at the end of a mode-0
  acknowledge cycle; pc is PC at that tick (R96, R207, R318). Safe. -/
  | unwiredOpcode (op : Byte) (pc : Word)
  /-- Raised by a push onto a pipeline of 8 micro-ops (R200). Safe. -/
  | pipelineOverflow
  /-- Raised by an external device that names a line outside 0..36 (R124). Safe. -/
  | badSignalId (id : Nat)
  /-- Raised by ExecuteTask when an added reference memory overlaps another (R78, U5). Safe. -/
  | overlappingMemories
  /-- Raised by ExecuteTask when an added reference memory has parameters outside the ranges of R75 or a divider.
  Safe. -/
  | memoryParameters
  /-- Raised by ExecuteTask when a second CPU is added (R156, U11). Safe. -/
  | severalCpus
  /-- Raised by ExecuteTask with a callback the spec does not describe (R168, U14). Safe. -/
  | foreignTask
deriving DecidableEq, Repr

/-! ## The state of a board -/

/-- The part of the board that a device's tick and a clock event can reach (R47, R150), and the refused mark. -/
structure Node where
  cpu : Cpu
  bus : Bus
  clock : Clock
  /-- The mark of R34: `none` or a reason; never cleared within a run. -/
  refused : Option Refusal
deriving DecidableEq, Repr

/-- One board. -/
structure State extends Node where
  /-- The device records in tick order (R40, R152). -/
  devices : List Device
  runState : RunState
  /-- The requests waiting, the oldest first (R164). -/
  queue : List Request
  /-- The Timer Manager's pending releases (R40). -/
  timers : List (TimerLine × Nat)
  /-- The model's own field (log 9): what the host appends to `queue` before each coming board step. -/
  arrivals : List (List Request)
  /-- The board's target frequency; no rule reads it (R155). -/
  targetFrequency : Nat
  /-- Configuration; no step writes it (R8, R42). -/
  params : Params
deriving DecidableEq, Repr

/-- The reference board of 95_test_vectors.md: one CPU without a divider and one writable reference memory of
64 KiB at 0x0000 with nothing listed (log 3, log 5). The names are this model's (log 10). -/
def referenceDevices : List Device :=
  [ { name := 0, frequency := none, divider := none, last := none, kind := .cpu },
    { name := 1, frequency := none, divider := none, last := none,
      kind := .refMem { base := 0x0000#16, size := 0x10000, writable := true, bytes := [], driving := false } } ]

/-- The machine right after reset (R46, V-Q4; log 3): the reference board after a Reset request and the six board
steps of the RESET sequence. The next board step has counter 6 and its CPU tick is T1_H1 of the first M1, at
PC = 0x0000. -/
def State.reset : State where
  cpu := { Cpu.zero with sp := 0xFFFF#16, af := 0xFFFF#16, resetStep := 6 }
  bus :=
    { Bus.all .hiZ with
      m1 := ⟨.hiZ, .high⟩, mreq := ⟨.hiZ, .high⟩, iorq := ⟨.hiZ, .high⟩, rd := ⟨.hiZ, .high⟩
      wr := ⟨.hiZ, .high⟩, rfsh := ⟨.hiZ, .high⟩, halt := ⟨.hiZ, .high⟩, busack := ⟨.hiZ, .high⟩
      reset := ⟨.low, .high⟩ }
  clock := { counter := 5, events := [] }
  refused := none
  devices := referenceDevices
  runState := .run
  queue := []
  timers := []
  arrivals := []
  targetFrequency := 0
  params := Params.reference

end Sys2Proof.Machine
end

