-- ==== Sys2Proof/Machine/Operands.lean ====
section
/-!
DEFINITION. The operand forms of micro-ops: register halves, address registers, post-actions; the register pairs of
LD dd,nn; the exchanges with the shadow set.
-/
namespace Sys2Proof.Machine

/-- X = XY[15:8] (R10). -/
def hiByte (w : Word) : Byte := w.extractLsb' 8 8

/-- Y = XY[7:0] (R10). -/
def loByte (w : Word) : Byte := w.extractLsb' 0 8

/-- The pair with its high half replaced. -/
def withHi (w : Word) (v : Byte) : Word := v ++ loByte w

/-- The pair with its low half replaced. -/
def withLo (w : Word) (v : Byte) : Word := hiByte w ++ v

/-- The value of a register half (R20, R23, R24, R31, R203). -/
def Cpu.get8 (c : Cpu) : Reg8 → Byte
  | .a => hiByte c.af
  | .f => loByte c.af
  | .b => hiByte c.bc
  | .c => loByte c.bc
  | .d => hiByte c.de
  | .e => loByte c.de
  | .h => hiByte c.hl
  | .l => loByte c.hl
  | .w => hiByte c.wz
  | .z => loByte c.wz
  | .sph => hiByte c.sp
  | .spl => loByte c.sp
  | .pch => hiByte c.pc
  | .pcl => loByte c.pc

/-- Write a register half (R203); no register is hardwired (R20). -/
def Cpu.set8 (c : Cpu) (r : Reg8) (v : Byte) : Cpu :=
  match r with
  | .a => { c with af := withHi c.af v }
  | .f => { c with af := withLo c.af v }
  | .b => { c with bc := withHi c.bc v }
  | .c => { c with bc := withLo c.bc v }
  | .d => { c with de := withHi c.de v }
  | .e => { c with de := withLo c.de v }
  | .h => { c with hl := withHi c.hl v }
  | .l => { c with hl := withLo c.hl v }
  | .w => { c with wz := withHi c.wz v }
  | .z => { c with wz := withLo c.wz v }
  | .sph => { c with sp := withHi c.sp v }
  | .spl => { c with sp := withLo c.sp v }
  | .pch => { c with pc := withHi c.pc v }
  | .pcl => { c with pc := withLo c.pc v }

/-- The address a micro-op drives: the value of `asel` (R203). -/
def Cpu.address (c : Cpu) : AddrSel → Word
  | .pc => c.pc
  | .sp => c.sp
  | .wz => c.wz

/-- The flag Z, F[6] (R25). -/
def Cpu.flagZ (c : Cpu) : Bool := (c.get8 .f).getLsbD 6

/-- One post-action (R204). All 16-bit arithmetic wraps (R65, R261). -/
def PostAction.apply (p : PostAction) (c : Cpu) : Cpu :=
  match p with
  | .incPC => { c with pc := c.pc + 1#16 }
  | .incSP => { c with sp := c.sp + 1#16 }
  | .decSP => { c with sp := c.sp - 1#16 }
  | .incWZ => { c with wz := c.wz + 1#16 }
  | .jumpWZ => { c with pc := c.wz }
  | .jumpWZIfNZ => if c.flagZ then c else { c with pc := c.wz }
  | .setPC k => { c with pc := k }

/-- The post-actions in list order (R204). -/
def Cpu.applyPost (c : Cpu) (ps : List PostAction) : Cpu := ps.foldl (fun c p => p.apply c) c

/-- lo(dd) of LD dd,nn (R241). -/
def pairLo : PairName → Reg8
  | .bc => .c
  | .de => .e
  | .hl => .l
  | .sp => .spl

/-- hi(dd) of LD dd,nn (R241). -/
def pairHi : PairName → Reg8
  | .bc => .b
  | .de => .d
  | .hl => .h
  | .sp => .sph

/-- Swap AF with AF' (R246). -/
def Cpu.exchangeAf (c : Cpu) : Cpu := { c with af := c.af', af' := c.af }

/-- Swap BC, DE, HL with BC', DE', HL' (R247). -/
def Cpu.exchangeMain (c : Cpu) : Cpu :=
  { c with bc := c.bc', bc' := c.bc, de := c.de', de' := c.de, hl := c.hl', hl' := c.hl }

end Sys2Proof.Machine
end

