-- ==== Sys2Proof/Machine/Flags.lean ====
section
/-!
DEFINITION. The one flag computation of EXEC0: INC A (R260, R262). Layout of F (R25): S Z Y H X PV N C in bits 7 to 0.
-/
namespace Sys2Proof.Machine

/-- F after INC A, from the old accumulator and the old F: S, Y, X copy bits 7, 5, 3 of the result, Z says it is 0,
H is the carry out of bit 3, PV is set for the operand 0x7F, N is cleared, C is kept (R260). -/
def incFlags (a f : Byte) : Byte :=
  let r := a + 1#8
  BitVec.ofBool (r.getLsbD 7) ++ BitVec.ofBool (r == 0#8) ++ BitVec.ofBool (r.getLsbD 5) ++
    BitVec.ofBool (a.extractLsb' 0 4 == 0xF#4) ++ BitVec.ofBool (r.getLsbD 3) ++ BitVec.ofBool (a == 0x7F#8) ++
    BitVec.ofBool false ++ BitVec.ofBool (f.getLsbD 0)

/-- INC A on the register file: A and F are read before either is written (R260). -/
def Cpu.incA (c : Cpu) : Cpu :=
  { c with af := (c.get8 .a + 1#8) ++ incFlags (c.get8 .a) (c.get8 .f) }

end Sys2Proof.Machine
end

