-- ==== Sys2Proof/Machine/Ops.lean ====
section
/-!
DEFINITION. The operations every part of the board shares: the signal bus (40_signal_bus.md), the clock generator
(41_clock_generator.md), memory contents, the pipeline and the cursor (43_cpu_cycle_engine.md), and what saving the
program counter and returning to it are made of (R319, R320).
-/
namespace Sys2Proof.Machine

/-! ## Signal bus -/

/-- set on one line: previous takes the current value, current takes v (R110). -/
def Signal.set (s : Signal) (v : Level) : Signal := ⟨s.cur, v⟩

/-- set on line i of a word's lines; no other line is touched (R110). -/
def WordLines.set {n : Nat} (g : WordLines n) (i : Fin n) (v : Level) : WordLines n :=
  ⟨g.prev.set i g.cur[i], g.cur.set i v⟩

/-- Line i of a word's lines. -/
def WordLines.get {n : Nat} (g : WordLines n) (i : Fin n) : Signal := ⟨g.prev[i], g.cur[i]⟩

/-- The levels of a word: bit i High for 1, Low for 0 (R120, R122). -/
def levelsOf {n : Nat} (v : BitVec n) : Vector Level n :=
  Vector.ofFn fun i => if v.getLsbD i then .high else .low

/-- The word of the levels: bit i is 1 iff line i is High, so Low and HighImpedance give 0 (R118, R119). -/
def wordOf {n : Nat} (ls : Vector Level n) : BitVec n :=
  BitVec.ofFnLE fun i => ls[i] == .high

/-- Write every line of a word (R120): each line's previous slot takes its current one. -/
def WordLines.write {n : Nat} (g : WordLines n) (v : BitVec n) : WordLines n := ⟨g.cur, levelsOf v⟩

/-- Release every line of a word (R121). -/
def WordLines.release {n : Nat} (g : WordLines n) : WordLines n := ⟨g.cur, Vector.replicate n .hiZ⟩

/-- The value a word's lines carry (R118, R119). -/
def WordLines.read {n : Nat} (g : WordLines n) : BitVec n := wordOf g.cur

/-- set(s, v) (R110). -/
def Bus.set (b : Bus) (l : Line) (v : Level) : Bus :=
  match l with
  | .a i => { b with addr := b.addr.set i v }
  | .d i => { b with data := b.data.set i v }
  | .m1 => { b with m1 := b.m1.set v }
  | .mreq => { b with mreq := b.mreq.set v }
  | .iorq => { b with iorq := b.iorq.set v }
  | .rd => { b with rd := b.rd.set v }
  | .wr => { b with wr := b.wr.set v }
  | .rfsh => { b with rfsh := b.rfsh.set v }
  | .halt => { b with halt := b.halt.set v }
  | .wait => { b with wait := b.wait.set v }
  | .int => { b with int := b.int.set v }
  | .nmi => { b with nmi := b.nmi.set v }
  | .reset => { b with reset := b.reset.set v }
  | .busrq => { b with busrq := b.busrq.set v }
  | .busack => { b with busack := b.busack.set v }

/-- The two slots of a line (R35). -/
def Bus.get (b : Bus) : Line → Signal
  | .a i => b.addr.get i
  | .d i => b.data.get i
  | .m1 => b.m1
  | .mreq => b.mreq
  | .iorq => b.iorq
  | .rd => b.rd
  | .wr => b.wr
  | .rfsh => b.rfsh
  | .halt => b.halt
  | .wait => b.wait
  | .int => b.int
  | .nmi => b.nmi
  | .reset => b.reset
  | .busrq => b.busrq
  | .busack => b.busack

/-- active(s, level): the current slot equals the level (R113). -/
def Bus.activeAt (b : Bus) (l : Line) (v : Level) : Bool := (b.get l).cur == v

/-- active(s): every control line is active-Low (R112, R113). -/
def Bus.active (b : Bus) (l : Line) : Bool := b.activeAt l .low

/-- posedge(s) (R114). -/
def Bus.posedge (b : Bus) (l : Line) : Bool := (b.get l).prev == .low && (b.get l).cur == .high

/-- negedge(s) (R115). -/
def Bus.negedge (b : Bus) (l : Line) : Bool := (b.get l).prev == .high && (b.get l).cur == .low

/-- AddrRead() (R118). -/
def Bus.addrRead (b : Bus) : Word := b.addr.read

/-- AddrWrite(v) (R120). -/
def Bus.addrWrite (b : Bus) (v : Word) : Bus := { b with addr := b.addr.write v }

/-- AddrRelease() (R121). -/
def Bus.addrRelease (b : Bus) : Bus := { b with addr := b.addr.release }

/-- DataRead() (R119). -/
def Bus.dataRead (b : Bus) : Byte := b.data.read

/-- DataWrite(v) (R120). -/
def Bus.dataWrite (b : Bus) (v : Byte) : Bus := { b with data := b.data.write v }

/-- DataRelease() (R121). -/
def Bus.dataRelease (b : Bus) : Bus := { b with data := b.data.release }

/-- The line of an identifier of the table of R36; none outside 0..36 (R124). -/
def Line.ofId (id : Nat) : Option Line :=
  if h : id < 16 then some (.a ⟨id, h⟩)
  else if h : id - 16 < 8 then some (.d ⟨id - 16, h⟩)
  else
    match id with
    | 24 => some .m1
    | 25 => some .mreq
    | 26 => some .iorq
    | 27 => some .rd
    | 28 => some .wr
    | 29 => some .rfsh
    | 30 => some .halt
    | 31 => some .wait
    | 32 => some .int
    | 33 => some .nmi
    | 34 => some .reset
    | 35 => some .busrq
    | 36 => some .busack
    | _ => none

/-- set(s, v) on the node's bus. -/
def Node.setLine (n : Node) (l : Line) (v : Level) : Node := { n with bus := n.bus.set l v }

/-! ## Clock generator -/

/-- schedule(delay, action): the expiry counts from the counter, or from 0 while it is the sentinel (R132, R133). -/
def Clock.schedule (c : Clock) (delay : Nat) (a : Action) : Clock :=
  { c with events := c.events ++ [⟨(if 0 ≤ c.counter then c.counter else 0) + delay, a⟩] }

/-- reset() (R134). -/
def Clock.reset : Clock := { counter := -1, events := [] }

/-- Parts (1) to (3) of tick(): the counter advances and the due events leave the list, which keeps its order
(R131, R136). -/
def Clock.advance (c : Clock) : Clock :=
  { counter := c.counter + 1, events := c.events.filter fun e => !decide (e.expiry ≤ c.counter + 1) }

/-- The events due at the next tick(), in insertion order (R131). -/
def Clock.due (c : Clock) : List Event := c.events.filter fun e => decide (e.expiry ≤ c.counter + 1)

/-- Perform an event's action (R38, R131). -/
def Action.perform (a : Action) (n : Node) : Node :=
  match a with
  | .rfshRelease => n.setLine .rfsh .high
  | .pcIncrement => { n with cpu := { n.cpu with pc := n.cpu.pc + 1#16 } }
  | .external (.setLine l v) => n.setLine l v
  | .external (.schedule delay next) => { n with clock := n.clock.schedule delay (.external next) }

/-- tick(): advance, then perform the due events in order; an event scheduled by an action waits for a later tick
(R131, R137). -/
def Node.clockTick (n : Node) : Node :=
  n.clock.due.foldl (fun n e => e.action.perform n) { n with clock := n.clock.advance }

/-! ## Memory contents -/

/-- The byte at an address; an unlisted address holds 0x00 (log 5). -/
def Memory.read : Memory → Nat → Byte
  | [], _ => 0x00#8
  | (k, v) :: t, a => if k = a then v else Memory.read t a

/-- Put a cell in front unless it holds what an unlisted address reads as. -/
def Memory.consCell (a : Nat) (v : Byte) (m : Memory) : Memory := if v = 0x00#8 then m else (a, v) :: m

/-- Write one byte; the result is canonical when the argument is. -/
def Memory.write : Memory → Nat → Byte → Memory
  | [], a, v => Memory.consCell a v []
  | (k, w) :: t, a, v =>
    if a < k then Memory.consCell a v ((k, w) :: t)
    else if a = k then Memory.consCell a v t
    else (k, w) :: Memory.write t a v

/-- Addresses strictly rising from lo on, and no byte 0x00. -/
def Memory.wfFrom : Nat → Memory → Bool
  | _, [] => true
  | lo, (k, v) :: t => decide (lo ≤ k) && v != 0x00#8 && Memory.wfFrom (k + 1) t

/-- The canonical form: addresses strictly rising and no entry equal to what an unlisted address holds. -/
def Memory.wf (m : Memory) : Bool := Memory.wfFrom 0 m

/-- The device decodes a iff MEM_BASE <= a < MEM_BASE + MEM_SIZE (R75). -/
def RefMem.decodes (m : RefMem) (a : Word) : Bool :=
  decide (m.base.toNat ≤ a.toNat) && decide (a.toNat < m.base.toNat + m.size)

/-- bytes[a - MEM_BASE], kept under the address itself (R76). -/
def RefMem.byteAt (m : RefMem) (a : Word) : Byte := Memory.read m.bytes a.toNat

/-- bytes[a - MEM_BASE] <- v (R77). -/
def RefMem.store (m : RefMem) (a : Word) (v : Byte) : RefMem := { m with bytes := Memory.write m.bytes a.toNat v }

/-! ## Pipeline and cursor -/

/-- push(u): onto a pipeline of 8 it refuses the run (R200). -/
def Node.push (n : Node) (u : MicroOp) : Node :=
  if n.cpu.pipe.length < Config.pipeDepth then { n with cpu := { n.cpu with pipe := n.cpu.pipe ++ [u] } }
  else { n with refused := some .pipelineOverflow }

/-- Push every micro-op in order (R197). -/
def Node.pushAll (n : Node) (us : List MicroOp) : Node := us.foldl Node.push n

/-- next(step): the successor in the list of phases (R185). DONE has none and stays. -/
def HalfStep.next : HalfStep → HalfStep
  | .t1h1 => .t1h2
  | .t1h2 => .t2h1
  | .t2h1 => .t2h2
  | .t2h2 => .t3h1
  | .t3h1 => .t3h2
  | .t3h2 => .t4h1
  | .t4h1 => .t4h2
  | .t4h2 => .done
  | .done => .done

/-- MC + 1, staying at M6 (R208). -/
def MCycle.next : MCycle → MCycle
  | .m1 => .m2
  | .m2 => .m3
  | .m3 => .m4
  | .m4 => .m5
  | .m5 => .m6
  | .m6 => .m6

/-- step <- next(step). -/
def Cpu.nextStep (c : Cpu) : Cpu := { c with step := c.step.next }

/-- Normalise (R183). -/
def Cpu.normalise (c : Cpu) : Cpu :=
  if c.step = .done then
    if c.pipe.isEmpty then { c with mc := .m1, step := .t1h1 } else { c with step := .t1h1 }
  else c

/-- EndCycle: pop, DONE, MC + 1 (R208). -/
def Cpu.endCycle (c : Cpu) : Cpu := { c with pipe := c.pipe.tail, step := .done, mc := c.mc.next }

/-- An instruction boundary, after Normalise (R184). -/
def Cpu.atBoundary (c : Cpu) : Bool := c.mc == .m1 && c.step == .t1h1 && c.pipe.isEmpty && !c.iack

/-! ## Saving the program counter and returning to it (R319, R320) -/

/-- The two writes that save PC, high byte first and so at the higher address, the last one going on at `target`:
NMI entry, INT entry in mode 1, and RST (R274, R311, R318). -/
def saveAndGo (target : Word) : List MicroOp := [.mw .sp .pch [.decSP], .mw .sp .pcl [.setPC target]]

/-- SP <- SP - 1, done directly before the two writes (R274, R311, R318). -/
def Cpu.preDecSp (c : Cpu) : Cpu := { c with sp := c.sp - 1#16 }

/-- The shared part of taking an exception: make room on the stack and push the two writes that save PC and enter
the handler (R311, R318 mode 1). -/
def Node.takeException (n : Node) (target : Word) : Node :=
  { n with cpu := n.cpu.preDecSp }.pushAll (saveAndGo target)

/-- Leave the halt state on NMI or INT entry: halted <- 0 and HALT High (R311, R315). -/
def Node.leaveHalt (n : Node) : Node :=
  if n.cpu.halted then { n with cpu := { n.cpu with halted := false } }.setLine .halt .high else n

/-- The two reads that take PC back from the stack, low byte first: the return from an exception is RET (R273,
R320). -/
def returnFromStack : List MicroOp := [.mr .sp .z [.incSP], .mr .sp .w [.incSP, .jumpWZ]]

/-- The entry address of NMI (R68, R311). -/
def nmiEntryAddress : Word := 0x0066#16

/-- The entry address of INT in mode 1 (R68, R318). -/
def intMode1Address : Word := 0x0038#16

end Sys2Proof.Machine
end

