-- ==== Sys2Proof/Machine/Engine.lean ====
section
/-!
DEFINITION. The CPU tick (43_cpu_cycle_engine.md, 60_exceptions.md): RESET sequence, bus request, NMI and INT entry,
the M1 cycle, the interrupt-acknowledge cycle, the MR and MW cycles. EXEC is an argument (R9).
-/
namespace Sys2Proof.Machine

/-- A wired entry of EXEC: an immediate action on the CPU and the micro-ops to push (R205). -/
structure Entry where
  imm : Cpu → Cpu
  ops : List MicroOp

/-- EXEC: from an opcode to `none` (unwired) or an entry (R9, R205). -/
abbrev ExecTable := Byte → Option Entry

/-! ## The shared part of execute (R197, R318) -/

/-- Parts (4) to (6) of R197, and the same in R318 mode 0: apply imm, push ops, drive HALT if the CPU halted. -/
def Node.applyEntry (n : Node) (e : Entry) : Node :=
  let n := { n with cpu := e.imm n.cpu }.pushAll e.ops
  if n.cpu.halted then n.setLine .halt .low else n

/-- step <- DONE; MC <- M2 (R197 part 7, R318). -/
def Node.toM2 (n : Node) : Node := { n with cpu := { n.cpu with step := .done, mc := .m2 } }

/-- execute(opcode, cpu): look the opcode up, refuse the run if it is unwired, else apply its entry and complete
the cursor (R197 parts 3 to 7, R207). -/
def Node.execute (X : ExecTable) (n : Node) : Node :=
  match X n.cpu.opcode with
  | none => { n with refused := some (.unwiredOpcode n.cpu.opcode n.cpu.pc) }
  | some e => (n.applyEntry e).toM2

/-- step <- next(step). -/
def Node.nextStep (n : Node) : Node := { n with cpu := n.cpu.nextStep }

/-- A phase that repeats while WAIT is active (R193, R371). -/
def Node.waitPhase (n : Node) : Node := if n.bus.active .wait then n else n.nextStep

/-! ## The M1 opcode-fetch cycle (R190 to R197) -/

/-- T1_H1 (R191). -/
def m1T1H1 (n : Node) : Node :=
  { n with bus := (n.bus.addrWrite n.cpu.pc).set .m1 .low }.nextStep

/-- T1_H2 (R192). -/
def m1T1H2 (n : Node) : Node :=
  { n with bus := (n.bus.set .mreq .low).set .rd .low }.nextStep

/-- T3_H1 (R194): the refresh address uses R before its increment. -/
def m1T3H1 (n : Node) : Node :=
  { n with
    cpu := { n.cpu with opcode := n.bus.dataRead }
    bus := ((((n.bus.set .m1 .high).set .mreq .high).set .rd .high).set .rfsh .low).addrWrite (n.cpu.i ++ n.cpu.r)
    clock := n.clock.schedule Config.rfshDelay .rfshRelease }.nextStep

/-- The increment of the refresh counter: the bits of `mask` count, the others stay (R29, R195). -/
def refreshIncrement (mask r : Byte) : Byte := (r &&& ~~~mask) ||| ((r + 1#8) &&& mask)

/-- T3_H2 (R195). -/
def m1T3H2 (mask : Byte) (n : Node) : Node :=
  { n with
    cpu := { n.cpu with r := refreshIncrement mask n.cpu.r }
    bus := n.bus.set .mreq .low }.nextStep

/-- T4_H2 (R197). -/
def m1T4H2 (X : ExecTable) (n : Node) : Node :=
  { n with
    bus := n.bus.set .mreq .high
    clock := n.clock.schedule Config.pcIncDelay .pcIncrement }.execute X

/-- One phase of M1, one CPU tick (R190, R196). -/
def m1Phase (X : ExecTable) (mask : Byte) (n : Node) : Node :=
  match n.cpu.step with
  | .t1h1 => m1T1H1 n
  | .t1h2 => m1T1H2 n
  | .t2h1 => n.waitPhase
  | .t2h2 => n.nextStep
  | .t3h1 => m1T3H1 n
  | .t3h2 => m1T3H2 mask n
  | .t4h1 => n.nextStep
  | .t4h2 => m1T4H2 X n
  | .done => n

/-! ## The memory-read and memory-write cycles (R210, R215) -/

/-- MR T3_H2: latch, raise the strobes, post-actions in order, EndCycle (R210). -/
def mrT3H2 (dst : Reg8) (post : List PostAction) (n : Node) : Node :=
  { n with
    cpu := ((n.cpu.set8 dst n.bus.dataRead).applyPost post).endCycle
    bus := (n.bus.set .mreq .high).set .rd .high }

/-- One phase of MR (R210). -/
def mrPhase (asel : AddrSel) (dst : Reg8) (post : List PostAction) (n : Node) : Node :=
  match n.cpu.step with
  | .t1h1 => { n with bus := n.bus.addrWrite (n.cpu.address asel) }.nextStep
  | .t1h2 => { n with bus := (n.bus.set .mreq .low).set .rd .low }.nextStep
  | .t2h1 => n.waitPhase
  | .t2h2 => n.nextStep
  | .t3h1 => n.nextStep
  | .t3h2 => mrT3H2 dst post n
  | .t4h1 => n
  | .t4h2 => n
  | .done => n

/-- MW T3_H2: raise the strobes, release the data, post-actions in order, EndCycle (R215). -/
def mwT3H2 (post : List PostAction) (n : Node) : Node :=
  { n with
    cpu := (n.cpu.applyPost post).endCycle
    bus := ((n.bus.set .wr .high).set .mreq .high).dataRelease }

/-- One phase of MW (R215). -/
def mwPhase (asel : AddrSel) (src : Reg8) (post : List PostAction) (n : Node) : Node :=
  match n.cpu.step with
  | .t1h1 => { n with bus := n.bus.addrWrite (n.cpu.address asel) }.nextStep
  | .t1h2 => { n with bus := (n.bus.set .mreq .low).dataWrite (n.cpu.get8 src) }.nextStep
  | .t2h1 => n.waitPhase
  | .t2h2 => { n with bus := n.bus.set .wr .low }.nextStep
  | .t3h1 => n.nextStep
  | .t3h2 => mwT3H2 post n
  | .t4h1 => n
  | .t4h2 => n
  | .done => n

/-- One phase of the cycle of the micro-op at the head of the pipeline (R186). With an empty pipeline there is
none: R186 says that this does not happen, and the model then does nothing (log 16). -/
def microPhase (n : Node) : Node :=
  match n.cpu.pipe with
  | [] => n
  | .mr asel dst post :: _ => mrPhase asel dst post n
  | .mw asel src post :: _ => mwPhase asel src post n

/-! ## The interrupt-acknowledge cycle (R317, R318) -/

/-- T3_H2: latch the supplied byte (R317). -/
def iackT3H2 (n : Node) : Node :=
  { n with
    cpu := { n.cpu with ibyte := n.bus.dataRead }
    bus := (n.bus.set .iorq .high).set .m1 .high }.nextStep

/-- Mode 0: the supplied byte is dispatched as an opcode, without a PcIncrement (R99, R318). -/
def iackMode0 (X : ExecTable) (n : Node) : Node :=
  { n with cpu := { n.cpu with opcode := n.cpu.ibyte } }.execute X

/-- Mode 1: save PC and go to 0x0038 (R318). -/
def iackMode1 (n : Node) : Node := (n.takeException intMode1Address).toM2

/-- The micro-ops of mode 2: save PC, then load it from the word at WZ (R318). -/
def vectorThroughWz : List MicroOp :=
  [.mw .sp .pch [.decSP], .mw .sp .pcl [], .mr .wz .pcl [.incWZ], .mr .wz .pch []]

/-- Mode 2: WZ <- I ++ ibyte, save PC, take the new PC from the word there (R318). -/
def iackMode2 (n : Node) : Node :=
  ({ n with cpu := { n.cpu with wz := n.cpu.i ++ n.cpu.ibyte }.preDecSp }.pushAll vectorThroughWz).toM2

/-- T4_H2: completion, by IM (R318). -/
def iackT4H2 (X : ExecTable) (n : Node) : Node :=
  let n := { n with cpu := { n.cpu with iack := false } }
  match n.cpu.im with
  | .im0 => iackMode0 X n
  | .im1 => iackMode1 n
  | .im2 => iackMode2 n

/-- One phase of the acknowledge cycle (R317). -/
def iackPhase (X : ExecTable) (n : Node) : Node :=
  match n.cpu.step with
  | .t1h1 => { n with bus := (n.bus.addrWrite n.cpu.pc).set .m1 .low }.nextStep
  | .t1h2 => n.nextStep
  | .t2h1 => n.nextStep
  | .t2h2 => { n with bus := n.bus.set .iorq .low }.nextStep
  | .t3h1 => n.waitPhase
  | .t3h2 => iackT3H2 n
  | .t4h1 => n.nextStep
  | .t4h2 => iackT4H2 X n
  | .done => n

/-! ## The RESET sequence (R303 to R306) -/

/-- The bus after RESET step 0 (R303). -/
def Bus.resetOutputs (b : Bus) : Bus :=
  ((((((((b.set .m1 .high).set .mreq .high).set .iorq .high).set .rd .high).set .wr .high).set .rfsh .high).set .halt
    .high).set .busack .high).addrRelease.dataRelease

/-- The CPU after RESET step 0, without reset_step (R303). -/
def Cpu.resetFirst (c : Cpu) : Cpu :=
  { c with
    iff1 := false, iff2 := false, im := .im0, mc := .m1, step := .t1h1, pipe := []
    iack := false, halted := false, busGranted := false }

/-- One RESET step, chosen by reset_step; every one clears the NMI latch last (R303 to R306). -/
def resetStep (n : Node) : Node :=
  let k := n.cpu.resetStep
  let n :=
    if k = 0 then { n with cpu := n.cpu.resetFirst, bus := n.bus.resetOutputs }
    else if k = 2 then { n with cpu := { n.cpu with pc := 0x0000#16, far := 0x0000#16 } }
    else if k = 4 then { n with cpu := { n.cpu with sp := 0xFFFF#16, af := 0xFFFF#16 } }
    else n
  { n with
    cpu := { n.cpu with resetStep := if k < Config.resetSteps then k + 1 else k, nmiPending := false } }

/-! ## BUS-REQUEST (R308, R309) -/

/-- The four strobes at one level (R308, R309). -/
def Bus.strobes (b : Bus) (v : Level) : Bus := (((b.set .mreq v).set .rd v).set .wr v).set .iorq v

/-- Grant (R308). -/
def busGrant (n : Node) : Node :=
  { n with
    cpu := { n.cpu with busGranted := true }
    bus := (n.bus.addrRelease.dataRelease.strobes .hiZ).set .busack .low }

/-- Regain (R309). -/
def busRegain (n : Node) : Node :=
  { n with
    cpu := { n.cpu with busGranted := false }
    bus := (n.bus.strobes .high).set .busack .high }

/-- The bus-request step: grant, hold or regain (R308, R309). -/
def busRequestStep (n : Node) : Node :=
  if n.cpu.busGranted then
    if n.bus.active .busrq then n else busRegain n
  else busGrant n

/-! ## NMI and INT (R310, R311, R315) -/

/-- NMI sampling, part (1) of every CPU tick (R310). -/
def Cpu.sampleNmi (c : Cpu) (b : Bus) : Cpu :=
  { c with
    nmiPending := c.nmiPending || (b.active .nmi && !c.nmiSampled)
    nmiSampled := b.active .nmi }

/-- NMI entry (R311). -/
def nmiEntry (n : Node) : Node :=
  let n := { n with cpu := { n.cpu with nmiPending := false } }.leaveHalt
  let n := { n with cpu := { n.cpu with iff1 := false } }.takeException nmiEntryAddress
  { n with cpu := { n.cpu with mc := .m2, step := .t1h1 } }

/-- INT entry (R315). -/
def intEntry (n : Node) : Node :=
  let n := n.leaveHalt
  { n with cpu := { n.cpu with iff1 := false, iff2 := false, iack := true } }

/-! ## The CPU tick (R181) -/

/-- Normal decode, one phase (R186). -/
def normalDecode (X : ExecTable) (mask : Byte) (n : Node) : Node :=
  if n.cpu.halted then n
  else if n.cpu.mc = .m1 then
    if n.cpu.iack then iackPhase X n else m1Phase X mask n
  else microPhase n

/-- Parts (3) to (7): the first request in the order RESET, BUS-REQUEST, NMI, INT that is present and eligible is
serviced, else one phase of normal decode (R181, R302). -/
def prioritise (X : ExecTable) (mask : Byte) (n : Node) : Node :=
  if n.bus.active .reset then resetStep n
  else
    let n := { n with cpu := { n.cpu with resetStep := 0 } }
    if n.cpu.busGranted || (n.bus.active .busrq && n.cpu.step == .t1h1) then busRequestStep n
    else if n.cpu.nmiPending && n.cpu.atBoundary then nmiEntry n
    else if n.bus.active .int && n.cpu.iff1 && n.cpu.atBoundary then intEntry n
    else normalDecode X mask n

/-- The CPU tick: sample NMI, normalise the cursor, then service one request or run one phase (R181, R182). -/
def cpuTick (X : ExecTable) (mask : Byte) (n : Node) : Node :=
  prioritise X mask { n with cpu := (n.cpu.sampleNmi n.bus).normalise }

end Sys2Proof.Machine
end

