-- ==== Sys2Proof/Machine/Devices.lean ====
section
/-!
DEFINITION. Device records (42_device_sequencer.md): types and order, the reference memory device (20_memory.md),
external devices, the divider gate, reset(), adding devices to a board, and a freshly built board.
-/
namespace Sys2Proof.Machine

/-- The device's type (R39). -/
def Device.type (d : Device) : DeviceType :=
  match d.kind with
  | .cpu => .cpu
  | .refMem _ => .memory
  | .external .vcu _ => .vcu
  | .external .memory _ => .memory
  | .external .io _ => .io

/-- The place of a type in the order CPU < VCU < Memory < IO (R151). -/
def DeviceType.rank : DeviceType → Nat
  | .cpu => 0
  | .vcu => 1
  | .memory => 2
  | .io => 3

/-- Whether the device is the CPU. -/
def Device.isCpu (d : Device) : Bool :=
  match d.kind with
  | .cpu => true
  | .refMem _ => false
  | .external _ _ => false

/-- The reference memory the device is, if it is one. -/
def Device.refMem? (d : Device) : Option RefMem :=
  match d.kind with
  | .cpu => none
  | .refMem m => some m
  | .external _ _ => none

/-! ## The reference memory device -/

/-- Whether the device answers a read (R76). -/
def RefMem.selectedForRead (m : RefMem) (b : Bus) : Bool :=
  b.active .mreq && b.active .rd && !b.active .rfsh && m.decodes b.addrRead

/-- Whether the device takes a write (R77). -/
def RefMem.selectedForWrite (m : RefMem) (b : Bus) : Bool :=
  b.active .mreq && b.active .wr && !b.active .rfsh && m.decodes b.addrRead && m.writable

/-- Drive the data lines when selected for a read, else release them if they were driven (R76, R77). -/
def RefMem.driveOrRelease (m : RefMem) (b : Bus) : RefMem × Bus :=
  if m.selectedForRead b then ({ m with driving := true }, b.dataWrite (m.byteAt b.addrRead))
  else if m.driving then ({ m with driving := false }, b.dataRelease)
  else (m, b)

/-- Take the byte on the data lines when selected for a write (R77). -/
def RefMem.takeWrite (m : RefMem) (b : Bus) : RefMem :=
  if m.selectedForWrite b then m.store b.addrRead b.dataRead else m

/-- The device's tick: drive or release, then independently take a write (R76, R77). -/
def RefMem.tick (m : RefMem) (b : Bus) : RefMem × Bus :=
  ((m.driveOrRelease b).1.takeWrite (m.driveOrRelease b).2, (m.driveOrRelease b).2)

/-- reset() of the reference memory: the lines are not written (R44, R82). With MEM_RESET_CLEARS the bytes become
0x00 (log 14). -/
def RefMem.reset (m : RefMem) (clears : Bool) : RefMem :=
  { m with driving := false, bytes := if clears then [] else m.bytes }

/-! ## External devices (log 8) -/

/-- One entry of a device's script (R156). -/
def LineOp.apply (o : LineOp) (n : Node) : Node :=
  match o with
  | .setId id v =>
    match Line.ofId id with
    | some l => n.setLine l v
    | none => { n with refused := some (.badSignalId id) }
  | .addrWrite v => { n with bus := n.bus.addrWrite v }
  | .addrRelease => { n with bus := n.bus.addrRelease }
  | .dataWrite v => { n with bus := n.bus.dataWrite v }
  | .dataRelease => { n with bus := n.bus.dataRelease }
  | .schedule delay a => { n with clock := n.clock.schedule delay (.external a) }

/-! ## Tick and dispatch -/

/-- The device's concrete tick (R150). -/
def Device.tick (X : ExecTable) (mask : Byte) (d : Device) (n : Node) : Device × Node :=
  match d.kind with
  | .cpu => (d, cpuTick X mask n)
  | .refMem m => ({ d with kind := .refMem (m.tick n.bus).1 }, { n with bus := (m.tick n.bus).2 })
  | .external _ [] => (d, n)
  | .external ty (ops :: rest) =>
    ({ d with kind := .external ty rest }, ops.foldl (fun n o => o.apply n) n)

/-- counter >> d, the floor of counter / 2^d (R153). -/
def dividedClock (counter : Int) (d : Nat) : Int := counter / (2 : Int) ^ d

/-- Dispatch: the divider gate, then the concrete tick (R153). -/
def Device.dispatch (X : ExecTable) (mask : Byte) (d : Device) (n : Node) : Device × Node :=
  match d.divider with
  | none => d.tick X mask n
  | some k =>
    if d.last = some (dividedClock n.clock.counter k) then (d, n)
    else { d with last := some (dividedClock n.clock.counter k) }.tick X mask n

/-- Dispatch every device in list order, each seeing the writes of those before it (R69, R72, R160). -/
def dispatchAll (X : ExecTable) (mask : Byte) : List Device → Node → List Device × Node
  | [], n => ([], n)
  | d :: ds, n =>
    ((d.dispatch X mask n).1 :: (dispatchAll X mask ds (d.dispatch X mask n).2).1,
      (dispatchAll X mask ds (d.dispatch X mask n).2).2)

/-- The record after the device's reset() (R44). The CPU's registers are `Node.cpu`. -/
def Device.reset (clears : Bool) (d : Device) : Device :=
  { d with
    last := none
    kind :=
      match d.kind with
      | .cpu => .cpu
      | .refMem m => .refMem (m.reset clears)
      | .external ty script => .external ty script }

/-! ## Adding devices (R152) -/

/-- The parameters are in the ranges of R75 and the contents are those of the device. -/
def RefMem.wf (m : RefMem) : Bool :=
  decide (1 ≤ m.size) && decide (m.base.toNat + m.size ≤ 65536) && Memory.wf m.bytes &&
    m.bytes.all fun c => decide (m.base.toNat ≤ c.1) && decide (c.1 < m.base.toNat + m.size)

/-- Two reference memories decode a common address (R78). -/
def RefMem.overlaps (m m' : RefMem) : Bool :=
  decide (m.base.toNat < m'.base.toNat + m'.size) && decide (m'.base.toNat < m.base.toNat + m.size)

/-- The memory overlaps one already on the board. -/
def overlapsBoard (ds : List Device) (m : RefMem) : Bool :=
  ds.any fun d =>
    match d.refMem? with
    | some m' => m.overlaps m'
    | none => false

/-- Insert after every device of the same or an earlier type: the list stays sorted and the sort is stable (R152). -/
def insertByType (d : Device) : List Device → List Device
  | [] => [d]
  | x :: t => if x.type.rank ≤ d.type.rank then x :: insertByType d t else d :: x :: t

/-- A device as its construction leaves it (R43): as after reset(), with its bytes at MEM_INIT. -/
def Device.fresh (d : Device) : Device := d.reset false

/-- Register one device: a duplicate name is left out (R152); a board the spec gives no meaning is refused
(R75, R78, R156; log 12). -/
def registerDevice (ds : List Device) (d : Device) : Except Refusal (List Device) :=
  if ds.any fun x => x.name == d.name then .ok ds
  else
    match d.kind with
    | .cpu => if ds.any Device.isCpu then .error .severalCpus else .ok (insertByType d.fresh ds)
    | .external _ _ => .ok (insertByType d.fresh ds)
    | .refMem m =>
      if !m.wf || d.divider.isSome then .error .memoryParameters
      else if overlapsBoard ds m then .error .overlappingMemories
      else .ok (insertByType d.fresh ds)

/-- Register devices in the order given; registration goes on after a duplicate (R152). -/
def registerDevices : List Device → List Device → Except Refusal (List Device)
  | ds, [] => .ok ds
  | ds, d :: more =>
    match registerDevice ds d with
    | .ok ds' => registerDevices ds' more
    | .error r => .error r

/-! ## Construction (R43) -/

/-- A freshly built board with these parameters and devices: every record is as its construction leaves it, the CPU's
state is all zero (R43, R44). DESIGN CHOICE (log 20): R43 does not say how a freshly built board comes by its device list
and R345 adds devices only through ExecuteTask; this definition takes the list as it is handed over, unsorted and unchecked
(R40, R75, R78, R152, R156). `registerDevices` is what sorts and checks. -/
def State.construction (p : Params) (devices : List Device) : State where
  cpu := Cpu.zero
  bus := Bus.all p.busInit
  clock := { counter := -1, events := [] }
  refused := none
  devices := devices.map Device.fresh
  runState := .stop
  queue := []
  timers := []
  arrivals := []
  targetFrequency := 0
  params := p

/-! ## The byte a read cycle finds -/

/-- The byte of the last device in the list that decodes the address (R78), 0x00 if none does (R79). -/
def busByte : List Device → Word → Byte
  | [], _ => 0x00#8
  | d :: ds, a =>
    if ds.any fun x => (x.refMem?.map fun m => m.decodes a).getD false then busByte ds a
    else
      match d.refMem? with
      | some m => if m.decodes a then m.byteAt a else 0x00#8
      | none => 0x00#8

/-- Put a byte into every reference memory that decodes the address: a load from outside the machine (log 4). -/
def pokeDevice (a : Word) (v : Byte) (d : Device) : Device :=
  match d.kind with
  | .cpu => d
  | .refMem m => if m.decodes a then { d with kind := .refMem (m.store a v) } else d
  | .external _ _ => d

end Sys2Proof.Machine
end

