-- ==== Sys2Proof/Machine/Board.lean ====
section
/-!
DEFINITION. The tick sequencer (42_device_sequencer.md): the board step in Run, Stop and Quit, the Timer Manager, the
requests; and a run of board steps up to the end of an instruction.
-/
namespace Sys2Proof.Machine

/-! ## The parts of a board step (R160) -/

/-- Part (1): clock.tick() (R131). -/
def State.clockTick (s : State) : State := { s with toNode := s.toNode.clockTick }

/-- Part (2): dispatch every device in list order (R153, R160). -/
def State.dispatchDevices (X : ExecTable) (s : State) : State :=
  { s with
    toNode := (dispatchAll X s.params.rIncMask s.devices s.toNode).2
    devices := (dispatchAll X s.params.rIncMask s.devices s.toNode).1 }

/-- The line a Timer Manager entry releases (R40). -/
def TimerLine.line : TimerLine → Line
  | .reset => .reset
  | .nmi => .nmi

/-- Count the entries down; one at its last step raises its line and leaves (R169). -/
def serviceTimers : List (TimerLine × Nat) → Bus → List (TimerLine × Nat) × Bus
  | [], b => ([], b)
  | (l, k) :: ts, b =>
    if k ≤ 1 then serviceTimers ts (b.set l.line .high)
    else ((l, k - 1) :: (serviceTimers ts b).1, (serviceTimers ts b).2)

/-- Part (3): the Timer Manager service (R169). -/
def State.serviceTimers (s : State) : State :=
  { s with
    timers := (Machine.serviceTimers s.timers s.bus).1
    bus := (Machine.serviceTimers s.timers s.bus).2 }

/-- Pull a line Low for `hold` board steps; with 0 the release happens at once (R165, R166). -/
def State.pulse (s : State) (t : TimerLine) (hold : Nat) : State :=
  let s := { s with bus := s.bus.set t.line .low, timers := s.timers.filter fun e => !(e.1 == t) }
  if hold = 0 then { s with bus := s.bus.set t.line .high }
  else { s with timers := s.timers ++ [(t, hold)] }

/-- dev.reset() for every device in list order (R44, R165). -/
def State.resetDevices (s : State) : State :=
  { s with
    cpu := if s.devices.any Device.isCpu then Cpu.zero else s.cpu
    devices := s.devices.map (Device.reset s.params.memResetClears) }

/-- The callback of an ExecuteTask request (R168). -/
def Task.perform (t : Task) (s : State) : State :=
  match t with
  | .addDevices ds =>
    match registerDevices s.devices ds with
    | .ok ds' =>
      { s with
        devices := ds'
        cpu := if !s.devices.any Device.isCpu && ds'.any Device.isCpu then Cpu.zero else s.cpu }
    | .error r => { s with refused := some r }
  | .setFrequency hz => { s with targetFrequency := hz }
  | .copyState _ => s
  | .foreign => { s with refused := some .foreignTask }

/-- Handle one request; in Quit none is handled (R162, R165 to R168). -/
def Request.handle (r : Request) (s : State) : State :=
  match r with
  | .run => { s with runState := .run }
  | .stop => { s with runState := .stop }
  | .quit => { s with runState := .quit }
  | .executeTask t => t.perform s
  | .reset => { { s with clock := Clock.reset }.resetDevices with runState := .run }.pulse .reset s.params.resetHold
  | .nonMaskableInterrupt => { s.pulse .nmi s.params.nmiHold with runState := .run }

/-- Part (4): drain at most one request (R160, R164). -/
def State.drainRequest (s : State) : State :=
  match s.queue with
  | [] => s
  | r :: rest => r.handle { s with queue := rest }

/-- What the host has appended since the last step joins the queue (R164; log 9). -/
def State.takeArrivals (s : State) : State :=
  match s.arrivals with
  | [] => s
  | rs :: rest => { s with queue := s.queue ++ rs, arrivals := rest }

/-! ## The board step -/

/-- Parts (1) to (4) of a step in state Run (R160). -/
def State.runStep (X : ExecTable) (s : State) : State :=
  ((s.clockTick.dispatchDevices X).serviceTimers).drainRequest

/-- One board step: the whole of R160 in Run, only part (4) in Stop (R161), nothing in Quit (R162). A state that
carries the refused mark has no next step (R34, R181 part 0; log 11). -/
def boardStep (X : ExecTable) (s : State) : Host.Outcome State Fault Refusal :=
  match s.refused with
  | some r => .refused r
  | none =>
    match s.runState with
    | .quit => .next s
    | .stop => .next s.takeArrivals.drainRequest
    | .run => .next (s.takeArrivals.runStep X)

/-- k board steps, stopping at a refusal. -/
def runBoard (X : ExecTable) : Nat → State → Host.Outcome State Fault Refusal
  | 0, s => .next s
  | k + 1, s =>
    match boardStep X s with
    | .next s' => runBoard X k s'
    | .fault r => .fault r
    | .refused r => .refused r

/-! ## Runs of board steps (log 1) -/

/-- The CPU has nothing in progress: the cursor is complete or at T1_H1 of an M1, the pipeline is empty and no
acknowledge cycle runs; its next tick finds the instruction boundary of R184. -/
def Cpu.atRest (c : Cpu) : Bool :=
  c.pipe.isEmpty && !c.iack && (c.step == .done || (c.mc == .m1 && c.step == .t1h1))

/-- The board is not running, or its CPU is at rest. -/
def State.resting (s : State) : Bool := s.runState != .run || s.cpu.atRest

/-- The next phase of the CPU is T4_H2 of an M1, which executes the opcode (R197). -/
def State.dispatching (s : State) : Bool :=
  s.runState == .run && s.cpu.mc == .m1 && s.cpu.step == .t4h2 && !s.cpu.iack

/-- Board steps until `stop` holds of the state reached: at least one, at most `k`. A refused mark ends the run. -/
def advance (X : ExecTable) (stop : State → Bool) : Nat → State → Host.Outcome State Fault Refusal
  | 0, s => .next s
  | k + 1, s =>
    match boardStep X s with
    | .next s' =>
      match s'.refused with
      | some r => .refused r
      | none => if stop s' then .next s' else advance X stop k s'
    | .fault r => .fault r
    | .refused r => .refused r

/-- Run the board from the phase that executes the entry (T4_H2 of M1, R197) until its micro-ops are done: what
every instruction's meaning is made of. EXEC is the constant table of the entry. -/
def runEntry (e : Entry) (s : State) : Host.Outcome State Fault Refusal :=
  advance (fun _ => some e) State.resting Config.stepBound s

/-- The byte a read of the address finds (R78, R79). -/
def State.peek (s : State) (a : Word) : Byte := busByte s.devices a

/-- The load of one byte from outside (log 4). -/
def State.poke (s : State) (a : Word) (v : Byte) : State := { s with devices := s.devices.map (pokeDevice a v) }

end Sys2Proof.Machine
end

