-- ==== Sys2Proof/Machine/Arithmetic.lean ====
section
/-!
DEFINITION. The arithmetic instruction of EXEC0 (45_cpu_arithmetic.md): INC A.
-/
namespace Sys2Proof.Machine

/-- INC A: A and F in one immediate action (R260). -/
def entryIncA : Entry := ⟨Cpu.incA, []⟩

/-- INC A (R260). -/
def execIncA (s : State) : Host.Outcome State Fault Refusal := runEntry entryIncA s

end Sys2Proof.Machine
end

