-- ==== Sys2Proof/Machine/ControlTransfer.lean ====
section
/-!
DEFINITION. Control transfer instructions (46_cpu_control_transfer.md): the EXEC0 entries of R270 to R274 and the
meanings made of them. A transfer is always a post-action, never the immediate action (R206, R275).
-/
namespace Sys2Proof.Machine

/-- JP nn: the target into WZ, then PC <- WZ (R270). -/
def entryJpNn : Entry := ⟨id, [.mr .pc .z [.incPC], .mr .pc .w [.incPC, .jumpWZ]]⟩

/-- JP NZ,nn: both operand bytes are read either way (R271). -/
def entryJpNzNn : Entry := ⟨id, [.mr .pc .z [.incPC], .mr .pc .w [.incPC, .jumpWZIfNZ]]⟩

/-- CALL nn: the target into WZ, PC to the stack, PC <- WZ (R272). -/
def entryCallNn : Entry :=
  ⟨id, [.mr .pc .z [.incPC], .mr .pc .w [.incPC, .decSP], .mw .sp .pch [.decSP], .mw .sp .pcl [.jumpWZ]]⟩

/-- RET: PC from the stack (R273), the one return from an exception of EXEC0 (R320). -/
def entryRet : Entry := ⟨id, returnFromStack⟩

/-- RST p: SP is decremented at once, then PC is saved and p taken (R274). -/
def entryRstP (p : Word) : Entry := ⟨Cpu.preDecSp, saveAndGo p⟩

/-- JP nn (R270); nn stands in memory after the opcode (log 2). -/
def execJpNn (_nn : Word) (s : State) : Host.Outcome State Fault Refusal := runEntry entryJpNn s

/-- JP NZ,nn (R271); nn stands in memory after the opcode (log 2). -/
def execJpNzNn (_nn : Word) (s : State) : Host.Outcome State Fault Refusal := runEntry entryJpNzNn s

/-- CALL nn (R272); nn stands in memory after the opcode (log 2). -/
def execCallNn (_nn : Word) (s : State) : Host.Outcome State Fault Refusal := runEntry entryCallNn s

/-- RET (R273). -/
def execRet (s : State) : Host.Outcome State Fault Refusal := runEntry entryRet s

/-- RST p (R274). -/
def execRstP (p : Word) (s : State) : Host.Outcome State Fault Refusal := runEntry (entryRstP p) s

end Sys2Proof.Machine
end

