-- ==== Sys2Proof/Machine/LoadExchange.lean ====
section
/-!
DEFINITION. Load and exchange instructions (44_cpu_load_exchange.md): the EXEC0 entries of R240 to R247 and the
meanings made of them. An operand byte is not taken from the instruction term: each is fetched by an MR micro-op of the
entry, through PC (R90, R64; log 2).
-/
namespace Sys2Proof.Machine

/-- NOP: no action, no micro-op (R240). -/
def entryNop : Entry := ⟨id, []⟩

/-- LD dd,nn: two reads through PC, low half first (R241). -/
def entryLdDdNn (dd : PairName) : Entry := ⟨id, [.mr .pc (pairLo dd) [.incPC], .mr .pc (pairHi dd) [.incPC]]⟩

/-- LD A,n: one read through PC (R242). -/
def entryLdAN : Entry := ⟨id, [.mr .pc .a [.incPC]]⟩

/-- LD A,(nn): the address into WZ, then the byte at WZ (R243). -/
def entryLdANn : Entry := ⟨id, [.mr .pc .z [.incPC], .mr .pc .w [.incPC], .mr .wz .a []]⟩

/-- LD (nn),A: the address into WZ, then A to the byte at WZ (R244). -/
def entryLdNnA : Entry := ⟨id, [.mr .pc .z [.incPC], .mr .pc .w [.incPC], .mw .wz .a []]⟩

/-- EX AF,AF' (R246). -/
def entryExAfAf : Entry := ⟨Cpu.exchangeAf, []⟩

/-- EXX (R247). -/
def entryExx : Entry := ⟨Cpu.exchangeMain, []⟩

/-- NOP (R240). -/
def execNop (s : State) : Host.Outcome State Fault Refusal := runEntry entryNop s

/-- LD dd,nn (R241); nn stands in memory after the opcode. -/
def execLdDdNn (dd : PairName) (_nn : Word) (s : State) : Host.Outcome State Fault Refusal :=
  runEntry (entryLdDdNn dd) s

/-- LD A,n (R242); n stands in memory after the opcode. -/
def execLdAN (_n : Byte) (s : State) : Host.Outcome State Fault Refusal := runEntry entryLdAN s

/-- LD A,(nn) (R243); nn stands in memory after the opcode. -/
def execLdANn (_nn : Word) (s : State) : Host.Outcome State Fault Refusal := runEntry entryLdANn s

/-- LD (nn),A (R244); nn stands in memory after the opcode. -/
def execLdNnA (_nn : Word) (s : State) : Host.Outcome State Fault Refusal := runEntry entryLdNnA s

/-- EX AF,AF' (R246). -/
def execExAfAf (s : State) : Host.Outcome State Fault Refusal := runEntry entryExAfAf s

/-- EXX (R247). -/
def execExx (s : State) : Host.Outcome State Fault Refusal := runEntry entryExx s

end Sys2Proof.Machine
end

