-- ==== Sys2Proof/Machine/System.lean ====
section
/-!
DEFINITION. System instructions (47_cpu_system.md): DI, EI, HALT.
-/
namespace Sys2Proof.Machine

/-- DI: both flip-flops 0 (R290). -/
def entryDi : Entry := ⟨fun c => { c with iff1 := false, iff2 := false }, []⟩

/-- EI: both flip-flops 1, without a delay (R291). -/
def entryEi : Entry := ⟨fun c => { c with iff1 := true, iff2 := true }, []⟩

/-- HALT: halted <- 1; the engine drives the HALT line at the same phase (R292, R197 part 6). -/
def entryHalt : Entry := ⟨fun c => { c with halted := true }, []⟩

/-- DI (R290). -/
def execDi (s : State) : Host.Outcome State Fault Refusal := runEntry entryDi s

/-- EI (R291). -/
def execEi (s : State) : Host.Outcome State Fault Refusal := runEntry entryEi s

/-- HALT (R292). -/
def execHalt (s : State) : Host.Outcome State Fault Refusal := runEntry entryHalt s

end Sys2Proof.Machine
end

