-- ==== Sys2Proof/Machine/Dispatch.lean ====
section
/-!
DEFINITION. exec: the meaning of each instruction, one arm per constructor.
-/
namespace Sys2Proof.Machine

/-- Run the instruction from the phase that executes it (T4_H2 of its M1, R197) to its end. -/
def exec (i : Instr) (s : State) : Host.Outcome State Fault Refusal :=
  match i with
  | .nop => Sys2Proof.Machine.execNop s
  | .ldDdNn dd nn => Sys2Proof.Machine.execLdDdNn dd nn s
  | .ldAN n => Sys2Proof.Machine.execLdAN n s
  | .ldANn nn => Sys2Proof.Machine.execLdANn nn s
  | .ldNnA nn => Sys2Proof.Machine.execLdNnA nn s
  | .exAfAf => Sys2Proof.Machine.execExAfAf s
  | .exx => Sys2Proof.Machine.execExx s
  | .incA => Sys2Proof.Machine.execIncA s
  | .jpNn nn => Sys2Proof.Machine.execJpNn nn s
  | .jpNzNn nn => Sys2Proof.Machine.execJpNzNn nn s
  | .callNn nn => Sys2Proof.Machine.execCallNn nn s
  | .ret => Sys2Proof.Machine.execRet s
  | .rstP p => Sys2Proof.Machine.execRstP p s
  | .di => Sys2Proof.Machine.execDi s
  | .ei => Sys2Proof.Machine.execEi s
  | .halt => Sys2Proof.Machine.execHalt s

end Sys2Proof.Machine
end

