-- ==== Sys2Proof/WellFormed.lean ====
section
/-!
DEFINITION. Which instruction terms the encoding can express.
-/
namespace Sys2Proof

/-- p is one of the eight restart addresses 0x0000, 0x0008, .. 0x0038 (R91, R274). -/
def restartAddress (p : Word) : Bool := (p &&& 0xFFC7#16) == 0#16

/-- Every operand has a place in the encoding: dd, n and nn fill their fields (R91, R92); p must be 8 * ttt. -/
def WellFormed : Instr → Bool
  | .nop => true
  | .ldDdNn _ _ => true
  | .ldAN _ => true
  | .ldANn _ => true
  | .ldNnA _ => true
  | .exAfAf => true
  | .exx => true
  | .incA => true
  | .jpNn _ => true
  | .jpNzNn _ => true
  | .callNn _ => true
  | .ret => true
  | .rstP p => restartAddress p
  | .di => true
  | .ei => true
  | .halt => true

end Sys2Proof
end

