-- ==== Sys2Proof/Decode.lean ====
section
/-!
DEFINITION. The decoder, from bytes to instructions, and the encoder, both from the tables of 30_encoding.md.
-/
namespace Sys2Proof

/-- The three formats of R90: how many operand bytes follow the opcode byte. -/
inductive Format
  | op
  | opN
  | opNn
deriving DecidableEq, Repr

/-- The operand bytes of a format (R90). -/
def Format.operandBytes : Format → Nat
  | .op => 0
  | .opN => 1
  | .opNn => 2

/-- Why bytes are no instruction. -/
inductive Reject
  /-- There is no opcode byte. -/
  | noBytes
  /-- The opcode value is unwired in EXEC0 (R96). -/
  | unwired (op : Byte)
  /-- The operand bytes of the opcode are not all there (R90). -/
  | truncated (op : Byte)
deriving DecidableEq, Repr

/-- A row of the opcode map (R94, R101): a byte b selects the row iff (b AND mask) = mat. `build` makes the
instruction from the opcode byte and the operand word nn (for OP_N, the operand byte n is its low half). -/
structure Row where
  mat : Byte
  mask : Byte
  format : Format
  build : Byte → Word → Instr

/-- dd = opcode[5:4]: 0 = BC, 1 = DE, 2 = HL, 3 = SP (R91). -/
def pairOfOpcode (op : Byte) : PairName :=
  if op.extractLsb' 4 2 = 0#2 then .bc
  else if op.extractLsb' 4 2 = 1#2 then .de
  else if op.extractLsb' 4 2 = 2#2 then .hl
  else .sp

/-- p = zext_16(ttt) * 8 with ttt = opcode[5:3] (R91). -/
def restartOfOpcode (op : Byte) : Word :=
  (op.extractLsb' 3 3).setWidth 16 * 8#16

/-- The baseline opcode map EXEC0 (R94), row by row. -/
def opcodeMap : List Row :=
  [ ⟨0x00#8, 0xFF#8, .op, fun _ _ => .nop⟩,
    ⟨0x01#8, 0xCF#8, .opNn, fun op nn => .ldDdNn (pairOfOpcode op) nn⟩,
    ⟨0x3E#8, 0xFF#8, .opN, fun _ nn => .ldAN (nn.setWidth 8)⟩,
    ⟨0x3A#8, 0xFF#8, .opNn, fun _ nn => .ldANn nn⟩,
    ⟨0x32#8, 0xFF#8, .opNn, fun _ nn => .ldNnA nn⟩,
    ⟨0x08#8, 0xFF#8, .op, fun _ _ => .exAfAf⟩,
    ⟨0xD9#8, 0xFF#8, .op, fun _ _ => .exx⟩,
    ⟨0x3C#8, 0xFF#8, .op, fun _ _ => .incA⟩ ] ++
  [ ⟨0xC3#8, 0xFF#8, .opNn, fun _ nn => .jpNn nn⟩,
    ⟨0xC2#8, 0xFF#8, .opNn, fun _ nn => .jpNzNn nn⟩,
    ⟨0xCD#8, 0xFF#8, .opNn, fun _ nn => .callNn nn⟩,
    ⟨0xC9#8, 0xFF#8, .op, fun _ _ => .ret⟩,
    ⟨0xC7#8, 0xC7#8, .op, fun op _ => .rstP (restartOfOpcode op)⟩,
    ⟨0xF3#8, 0xFF#8, .op, fun _ _ => .di⟩,
    ⟨0xFB#8, 0xFF#8, .op, fun _ _ => .ei⟩,
    ⟨0x76#8, 0xFF#8, .op, fun _ _ => .halt⟩ ]

/-- Whether the row stands for the opcode value (R101). -/
def Row.selects (r : Row) (op : Byte) : Bool := (op &&& r.mask) == r.mat

/-- The row of an opcode value, if it is wired (R94; no two rows match the same byte, R101). -/
def rowOf (op : Byte) : Option Row := opcodeMap.find? (fun r => r.selects op)

/-- nn = nh ++ nl: the byte at the lower address is the low half (R63, R92). -/
def wordOfBytes (lo hi : Byte) : Word := hi ++ lo

/-- Decode one instruction from the bytes at ascending addresses (R64, R90): the instruction and the bytes
after it, or why there is none. -/
def decode : List Byte → Except Reject (Instr × List Byte)
  | [] => .error .noBytes
  | op :: rest =>
    match rowOf op with
    | none => .error (.unwired op)
    | some r =>
      match r.format, rest with
      | .op, tail => .ok (r.build op 0#16, tail)
      | .opN, n :: tail => .ok (r.build op (wordOfBytes n 0#8), tail)
      | .opNn, lo :: hi :: tail => .ok (r.build op (wordOfBytes lo hi), tail)
      | _, _ => .error (.truncated op)

/-- The instruction alone. -/
def decodeInstr (bytes : List Byte) : Option Instr :=
  match decode bytes with
  | .ok (i, _) => some i
  | .error _ => none

/-- The value of the dd field (R91). -/
def PairName.code : PairName → Byte
  | .bc => 0#8
  | .de => 1#8
  | .hl => 2#8
  | .sp => 3#8

/-- The operand bytes nl, nh of format OP_NN (R90, R92). -/
def operandBytes (nn : Word) : List Byte := [nn.extractLsb' 0 8, nn.extractLsb' 8 8]

/-- The bytes of an instruction at ascending addresses (R90, R94). -/
def encode : Instr → List Byte
  | .nop => [0x00#8]
  | .ldDdNn dd nn => (0x01#8 ||| (dd.code <<< 4)) :: operandBytes nn
  | .ldAN n => [0x3E#8, n]
  | .ldANn nn => 0x3A#8 :: operandBytes nn
  | .ldNnA nn => 0x32#8 :: operandBytes nn
  | .exAfAf => [0x08#8]
  | .exx => [0xD9#8]
  | .incA => [0x3C#8]
  | .jpNn nn => 0xC3#8 :: operandBytes nn
  | .jpNzNn nn => 0xC2#8 :: operandBytes nn
  | .callNn nn => 0xCD#8 :: operandBytes nn
  | .ret => [0xC9#8]
  | .rstP p => [0xC7#8 ||| p.extractLsb' 0 8]
  | .di => [0xF3#8]
  | .ei => [0xFB#8]
  | .halt => [0x76#8]

/-- The length of an instruction in bytes (R90, R93). -/
def Instr.length (i : Instr) : Nat := (encode i).length

/-- The three bytes of a number, bit 0 the least significant bit of the first byte. -/
def tableBytes (nbits w : Nat) : List Byte :=
  [BitVec.ofNat 8 (w % 2 ^ nbits), BitVec.ofNat 8 (w % 2 ^ nbits / 2 ^ 8), BitVec.ofNat 8 (w % 2 ^ nbits / 2 ^ 16)]

/-- What the decoder reads from an instruction whose bits are w, numbered as the opcode table numbers them; the
bits above nbits are 0. -/
def decodeTableWord (nbits w : Nat) : Option Instr := decodeInstr (tableBytes nbits w)

end Sys2Proof
end

