-- ==== Sys2Proof/Machine/Exec0.lean ====
section
/-!
DEFINITION. EXEC0, the baseline opcode dispatch table (R9, R94), and the fetch of an instruction's bytes.
-/
namespace Sys2Proof.Machine

/-- The entry of an instruction: the one its meaning runs. -/
def entryOf : Instr → Entry
  | .nop => entryNop
  | .ldDdNn dd _ => entryLdDdNn dd
  | .ldAN _ => entryLdAN
  | .ldANn _ => entryLdANn
  | .ldNnA _ => entryLdNnA
  | .exAfAf => entryExAfAf
  | .exx => entryExx
  | .incA => entryIncA
  | .jpNn _ => entryJpNn
  | .jpNzNn _ => entryJpNzNn
  | .callNn _ => entryCallNn
  | .ret => entryRet
  | .rstP p => entryRstP p
  | .di => entryDi
  | .ei => entryEi
  | .halt => entryHalt

/-- EXEC0: the opcode byte alone selects the entry (R93, R94); the operand bytes do not matter to it. -/
def exec0 : ExecTable := fun op => (decodeInstr [op, 0x00#8, 0x00#8]).map entryOf

/-- The bytes of the instruction in the opcode register: itself and the two bytes after PC, which holds its address
until the delayed increment (R24, R64). -/
def State.instrBytes (s : State) : List Byte :=
  [s.cpu.opcode, s.peek (s.cpu.pc + 1#16), s.peek (s.cpu.pc + 2#16)]

/-- The instruction that the next phase executes, in a state that is `dispatching`. -/
def State.currentInstr (s : State) : Option Instr := decodeInstr s.instrBytes

/-- The address of the next fetch: PC after the clock events that fire before the CPU's next tick (R24, R140). -/
def State.fetchPc (s : State) : Word := s.clockTick.cpu.pc

/-- Board steps up to the phase that executes a fetched opcode, or to the end of what was in progress (log 1). -/
def State.fetch (s : State) : Host.Outcome State Fault Refusal :=
  if s.dispatching then .next s
  else advance exec0 (fun t => t.resting || t.dispatching) Config.stepBound s

/-- The three bytes of a table word, stored from the address of the next fetch on (log 4). -/
def State.placeBytes (s : State) (a : Word) : List Byte → State
  | [] => s
  | v :: vs => (s.poke a v).placeBytes (a + 1#16) vs

end Sys2Proof.Machine
end

