-- ==== Sys2Proof/Machine/Step.lean ====
section
/-!
DEFINITION. step: the board steps of one instruction, or of one event between instructions (log 1).
-/
namespace Sys2Proof.Machine

/-- One step: board steps up to the phase that executes the fetched opcode, then the instruction's meaning. Where no
instruction is fetched (a RESET step, a bus hold, an interrupt entry, a halted CPU, a stopped board) the step ends when
the CPU is at rest or the board does not run. An unwired opcode refuses the run (R96). -/
def step (s : State) : Host.Outcome State Fault Refusal :=
  match s.fetch with
  | .next t =>
    if t.dispatching then
      match t.currentInstr with
      | some i => exec i t
      | none => advance exec0 State.resting Config.stepBound t
    else .next t
  | .fault r => .fault r
  | .refused r => .refused r

/-- The state with that table word's bytes in memory where the next instruction is fetched (log 4). -/
def State.withFetchWord (s : State) (nbits w : Nat) : State := s.placeBytes s.fetchPc (tableBytes nbits w)

end Sys2Proof.Machine
end

