-- ==== Sys2Proof/Safety.lean ====
section
/-!
DEFINITION. The terms claims are stated in: boards on which nothing interferes with the CPU, seen at an instruction
boundary (R184) or at the phase that executes an opcode (R197); what running an instruction to its end leaves; the net
effect of each instruction; the lines each cycle drives; quiescence (R173); what every step keeps.
-/
namespace Sys2Proof.Machine

/-! ## What a memory device does for one access -/

/-- The byte a read of the address finds on a board whose only memory is this one: 0x00 where it does not decode
(R76, R79). -/
def RefMem.answer (m : RefMem) (a : Word) : Byte := if m.decodes a then m.byteAt a else 0x00#8

/-- The memory after a write cycle: nothing changes where it does not decode or may not be written (R77). -/
def RefMem.afterWrite (m : RefMem) (a : Word) (v : Byte) : RefMem :=
  if m.decodes a && m.writable then m.store a v else m

/-- Put another memory into a record. -/
def Device.withRefMem (m : RefMem) (d : Device) : Device :=
  match d.kind with
  | .cpu => d
  | .refMem _ => { d with kind := .refMem m }
  | .external _ _ => d

/-- The board with another memory. -/
def State.withMemory (s : State) (m : RefMem) : State := { s with devices := s.devices.map (Device.withRefMem m) }

/-! ## Boards on which nothing interferes -/

/-- A running board of one CPU and one reference memory m, neither behind a divider, with no request, no timer, no
refused mark; at the CPU's next tick RESET, BUSRQ, NMI and WAIT are not active, RD and WR are not active, nobody drives
the data lines, the CPU owns the bus and runs no acknowledge cycle. The lines are those after clock.tick() of the next
board step, which is what that tick sees (R160). -/
structure OnBoard (s : State) (m : RefMem) : Prop where
  running : s.runState = .run
  queue : s.queue = []
  arrivals : s.arrivals = []
  timers : s.timers = []
  unmarked : s.refused = none
  board : s.devices.map (fun d => (d.kind, d.divider)) = [(.cpu, none), (.refMem m, none)]
  contents : m.wf = true
  counter : -1 ≤ s.clock.counter
  reset : s.clockTick.bus.active .reset = false
  busrq : s.clockTick.bus.active .busrq = false
  nmi : s.clockTick.bus.active .nmi = false
  wait : s.clockTick.bus.active .wait = false
  rd : s.clockTick.bus.active .rd = false
  wr : s.clockTick.bus.active .wr = false
  data : s.clockTick.bus.dataRead = 0x00#8
  released : m.driving = false
  owns : s.cpu.busGranted = false
  noAck : s.cpu.iack = false

/-- The next CPU tick is T4_H2 of an M1: the opcode is latched, the refresh release is due two ticks later (R194,
R197, R198). -/
structure AtDispatch (s : State) (m : RefMem) : Prop extends OnBoard s m where
  cycle : s.cpu.mc = .m1
  phase : s.cpu.step = .t4h2
  pipe : s.cpu.pipe = []
  awake : s.cpu.halted = false
  events : s.clock.events = [⟨s.clock.counter + 2, .rfshRelease⟩]

/-- The next CPU tick finds a complete cursor and an empty pipeline, every clock event has fired by then, and the
register file that tick works on is c (R183, R184). -/
structure Rested (s : State) (m : RefMem) (c : Cpu) : Prop extends OnBoard s m where
  rest : s.cpu.atRest = true
  refresh : s.clockTick.bus.active .rfsh = false
  fired : s.clockTick.clock.events = []
  cpu : s.clockTick.cpu.normalise = c

/-- The next CPU tick starts an opcode fetch at c.pc: the CPU is not halted and no interrupt is to be taken
(R181, R184). -/
structure AtBoundary (s : State) (m : RefMem) (c : Cpu) : Prop extends Rested s m c where
  awake : c.halted = false
  noNmi : c.nmiPending = false
  noInt : (s.clockTick.bus.active .int && c.iff1) = false

/-- t is what s comes to when the run under way ends after `ticks` board steps: at rest with the register file c and
the memory m; and apart from the CPU, the lines, the clock and that memory, t is s. -/
structure Completes (s t : State) (m : RefMem) (c : Cpu) (ticks : Nat) : Prop where
  rested : Rested t m c
  counter : t.clock.counter = s.clock.counter + ticks
  frame : t = { s.withMemory m with toNode := t.toNode }

/-- The register file with the cursor at an instruction boundary, the pipeline empty and the latches that every tick without NMI and RESET
clears (R181, R183, R310). -/
def Cpu.rested (c : Cpu) : Cpu :=
  { c with mc := .m1, step := .t1h1, pipe := [], nmiSampled := false, resetStep := 0 }

/-! ## The net effect of the instructions (the Effect entries of R240 to R292) -/

/-- Register file and memory after the instruction, from those at its fetch: PC on the right-hand side is the address
of the opcode byte. What M1 itself does (opcode, R) is not part of it. -/
def netEffect (i : Instr) (c : Cpu) (m : RefMem) : Cpu × RefMem :=
  match i with
  | .nop => ({ c with pc := c.pc + 1#16 }, m)
  | .ldDdNn .bc nn => ({ c with bc := nn, pc := c.pc + 3#16 }, m)
  | .ldDdNn .de nn => ({ c with de := nn, pc := c.pc + 3#16 }, m)
  | .ldDdNn .hl nn => ({ c with hl := nn, pc := c.pc + 3#16 }, m)
  | .ldDdNn .sp nn => ({ c with sp := nn, pc := c.pc + 3#16 }, m)
  | .ldAN n => ({ c with af := withHi c.af n, pc := c.pc + 2#16 }, m)
  | .ldANn nn => ({ c with af := withHi c.af (m.answer nn), wz := nn, pc := c.pc + 3#16 }, m)
  | .ldNnA nn => ({ c with wz := nn, pc := c.pc + 3#16 }, m.afterWrite nn (hiByte c.af))
  | .exAfAf => ({ c with af := c.af', af' := c.af, pc := c.pc + 1#16 }, m)
  | .exx =>
    ({ c with
        bc := c.bc', bc' := c.bc, de := c.de', de' := c.de, hl := c.hl', hl' := c.hl, pc := c.pc + 1#16 }, m)
  | .incA => ({ c with af := (hiByte c.af + 1#8) ++ incFlags (hiByte c.af) (loByte c.af), pc := c.pc + 1#16 }, m)
  | .jpNn nn => ({ c with wz := nn, pc := nn }, m)
  | .jpNzNn nn => ({ c with wz := nn, pc := if c.flagZ then c.pc + 3#16 else nn }, m)
  | .callNn nn =>
    ({ c with wz := nn, sp := c.sp - 2#16, pc := nn },
      (m.afterWrite (c.sp - 1#16) (hiByte (c.pc + 3#16))).afterWrite (c.sp - 2#16) (loByte (c.pc + 3#16)))
  | .ret =>
    ({ c with
        wz := m.answer (c.sp + 1#16) ++ m.answer c.sp
        sp := c.sp + 2#16
        pc := m.answer (c.sp + 1#16) ++ m.answer c.sp }, m)
  | .rstP p =>
    ({ c with sp := c.sp - 2#16, pc := p },
      (m.afterWrite (c.sp - 1#16) (hiByte (c.pc + 1#16))).afterWrite (c.sp - 2#16) (loByte (c.pc + 1#16)))
  | .di => ({ c with iff1 := false, iff2 := false, pc := c.pc + 1#16 }, m)
  | .ei => ({ c with iff1 := true, iff2 := true, pc := c.pc + 1#16 }, m)
  | .halt => ({ c with halted := true, pc := c.pc + 1#16 }, m)

/-- The half-clocks of the instruction without WAIT: 8 for M1 and 6 for each cycle after it (R370). -/
def ticksOf : Instr → Nat
  | .nop => 8
  | .ldDdNn _ _ => 20
  | .ldAN _ => 14
  | .ldANn _ => 26
  | .ldNnA _ => 26
  | .exAfAf => 8
  | .exx => 8
  | .incA => 8
  | .jpNn _ => 20
  | .jpNzNn _ => 20
  | .callNn _ => 32
  | .ret => 20
  | .rstP _ => 20
  | .di => 8
  | .ei => 8
  | .halt => 8

/-- What M1 leaves in the CPU besides the instruction's effect: the opcode latched, R incremented (R194, R195). -/
def Cpu.fetched (c : Cpu) (mask op : Byte) : Cpu := { c with opcode := op, r := refreshIncrement mask c.r }

/-- The three bytes from the address of the next fetch on. -/
def RefMem.bytesFrom (m : RefMem) (a : Word) : List Byte :=
  [m.answer a, m.answer (a + 1#16), m.answer (a + 2#16)]

/-! ## Runs of one part of the board -/

/-- The clock after n calls of tick(), the actions left out (R131, R138). -/
def Clock.advances : Nat → Clock → Clock
  | 0, c => c
  | n + 1, c => Clock.advances n c.advance

/-- The events that n calls of tick() fire, in the order in which they fire (R131, R138). -/
def Clock.fired : Nat → Clock → List Event
  | 0, _ => []
  | n + 1, c => c.due ++ Clock.fired n c.advance

/-- n ticks of the CPU with nothing else on the board acting (R180). -/
def cpuTicks (X : ExecTable) (mask : Byte) : Nat → Node → Node
  | 0, n => n
  | k + 1, n => cpuTicks X mask k (cpuTick X mask n)

/-- n services of the Timer Manager (R169). -/
def timerServices : Nat → List (TimerLine × Nat) × Bus → List (TimerLine × Nat) × Bus
  | 0, p => p
  | n + 1, p => timerServices n (serviceTimers p.1 p.2)

/-- A device dispatched once at each of the counters 0 to n - 1, the node otherwise the same (R153, R154). -/
def Device.dispatchedUpTo (X : ExecTable) (mask : Byte) (node : Node) (d : Device) : Nat → Device
  | 0 => d
  | n + 1 =>
    ((Device.dispatchedUpTo X mask node d n).dispatch X mask
      { node with clock := { node.clock with counter := (n : Int) } }).1

/-! ## The lines a cycle drives (the phase tables of R191 to R197, R210, R215, R317) -/

/-- b' is b after one `set` of each line that w names, to the level w gives, and of no other line (R110, R120, R121). -/
def Bus.Drives (b b' : Bus) (w : Line → Option Level) : Prop :=
  ∀ l, b'.get l = match w l with
    | some v => ⟨(b.get l).cur, v⟩
    | none => b.get l

/-- The level that carries a bit of a word (R120, R122). -/
def bitLevel (x : Bool) : Level := if x then .high else .low

/-- The lines that the phase `c.step` of an M1 drives (R191 to R197): PC, then at T3_H1 the refresh address I ++ R, on the
address lines. HALT at T4_H2, which depends on the opcode, is not among them. -/
def m1Lines (c : Cpu) (l : Line) : Option Level :=
  match c.step, l with
  | .t1h1, .a i => some (bitLevel (c.pc.getLsbD i))
  | .t1h1, .m1 => some .low
  | .t1h2, .mreq => some .low
  | .t1h2, .rd => some .low
  | .t3h1, .a i => some (bitLevel ((c.i ++ c.r).getLsbD i))
  | .t3h1, .m1 => some .high
  | .t3h1, .mreq => some .high
  | .t3h1, .rd => some .high
  | .t3h1, .rfsh => some .low
  | .t3h2, .mreq => some .low
  | .t4h2, .mreq => some .high
  | _, _ => none

/-- The lines that the phase `c.step` of MR drives, the access through `asel` (R210). -/
def mrLines (asel : AddrSel) (c : Cpu) (l : Line) : Option Level :=
  match c.step, l with
  | .t1h1, .a i => some (bitLevel ((c.address asel).getLsbD i))
  | .t1h2, .mreq => some .low
  | .t1h2, .rd => some .low
  | .t3h2, .mreq => some .high
  | .t3h2, .rd => some .high
  | _, _ => none

/-- The lines that the phase `c.step` of MW drives, `src` written through `asel` (R215). -/
def mwLines (asel : AddrSel) (src : Reg8) (c : Cpu) (l : Line) : Option Level :=
  match c.step, l with
  | .t1h1, .a i => some (bitLevel ((c.address asel).getLsbD i))
  | .t1h2, .mreq => some .low
  | .t1h2, .d i => some (bitLevel ((c.get8 src).getLsbD i))
  | .t2h2, .wr => some .low
  | .t3h2, .wr => some .high
  | .t3h2, .mreq => some .high
  | .t3h2, .d _ => some .hiZ
  | _, _ => none

/-- The lines that the phase `c.step` of the acknowledge cycle drives (R317). -/
def iackLines (c : Cpu) (l : Line) : Option Level :=
  match c.step, l with
  | .t1h1, .a i => some (bitLevel (c.pc.getLsbD i))
  | .t1h1, .m1 => some .low
  | .t2h2, .iorq => some .low
  | .t3h2, .iorq => some .high
  | .t3h2, .m1 => some .high
  | _, _ => none

/-! ## What every step keeps -/

/-- Every reference memory's parameters are in range and its contents lie in its range in canonical form (R75,
log 5). -/
def MemoriesSound (s : State) : Prop := ∀ d ∈ s.devices, ∀ m, d.kind = .refMem m → m.wf = true

/-- The place of a machine cycle in the order M1 to M6 (R27). -/
def MCycle.index : MCycle → Nat
  | .m1 => 0
  | .m2 => 1
  | .m3 => 2
  | .m4 => 3
  | .m5 => 4
  | .m6 => 5

/-- The decode cursor, the pipeline and the latches agree: an M1 has nothing pushed; a later cycle has a micro-op at the
head unless it is complete, uses six phases only, and leaves room for what is pushed in M2 to M6; the CPU halts and
gives up the bus only where R292 and R308 say; reset_step is 0 to 6 (R33, R183 to R186, R202). -/
structure CursorSound (c : Cpu) : Prop where
  fetch : c.mc = .m1 → c.pipe = [] ∧ c.step ≠ .done
  later : c.mc ≠ .m1 → c.iack = false ∧ c.step ≠ .t4h1 ∧ c.step ≠ .t4h2 ∧ (c.pipe = [] → c.step = .done)
  depth : c.mc ≠ .m1 → c.pipe.length + c.mc.index ≤ 5
  granted : c.busGranted = true → c.step = .t1h1
  halted : c.halted = true → c.atRest = true
  reset : c.resetStep ≤ 6

/-- The device list is sorted by type, no two records have one name, there is at most one CPU, and no two reference
memories overlap (R78, R152, R156). -/
structure BoardSound (s : State) : Prop where
  sorted : (s.devices.map fun d => d.type.rank).Pairwise (· ≤ ·)
  names : (s.devices.map Device.name).Nodup
  oneCpu : (s.devices.filter Device.isCpu).length ≤ 1
  apart : s.devices.Pairwise fun d d' =>
    ∀ m m', d.refMem? = some m → d'.refMem? = some m' → m.overlaps m' = false

/-- No Reset request and no request that adds devices is waiting or about to arrive. -/
def NoRebuild (s : State) : Prop :=
  ∀ r ∈ s.queue ++ s.arrivals.flatten, r ≠ .reset ∧ ∀ ds, r ≠ .executeTask (.addDevices ds)

/-- Quiescent (R173), with the model's arrivals among what has to be empty (log 9). -/
structure Quiescent (s : State) : Prop where
  running : s.runState = .run
  halted : s.cpu.halted = true
  pipe : s.cpu.pipe = []
  events : s.clock.events = []
  timers : s.timers = []
  queue : s.queue = []
  arrivals : s.arrivals = []
  reset : s.bus.active .reset = false
  nmi : s.bus.active .nmi = false
  int : s.bus.active .int = false
  busrq : s.bus.active .busrq = false

end Sys2Proof.Machine
end

