-- ==== Sys2Proof/Certificates/Slice0/Obligations.lean ====
section
/-!
DEFINITION. The statements for the provers. The first sixteen are the instructions: each says the micro-ops of the entry
of its opcode, what exec answers from the phase that executes the opcode, and what a whole step answers from an
instruction boundary with the instruction's bytes at PC. The rest go through the signal bus, the clock generator, memory,
the sequencer, reset, bus request, NMI, INT, the bus cycles phase by phase, decoding, and what every step keeps.
-/
open Sys2Proof Sys2Proof.Machine

/-! ## The instructions -/

/-- NOP (R240). -/
def Obligations.NopOnlyAdvancesPc : Prop :=
  let after (c : Cpu) : Cpu := ({ c with pc := c.pc + 1#16 } : Cpu).rested
  (exec0 0x00#8).map Entry.ops = some [] ∧
  (∀ (s : State) (m : RefMem), AtDispatch s m →
    ∃ t, exec .nop s = .next t ∧ Completes s t m (after s.cpu) 1 ∧ ∀ a, t.peek a = s.peek a) ∧
  (∀ (s : State) (m : RefMem) (c : Cpu), AtBoundary s m c → s.peek c.pc = 0x00#8 →
    ∃ t, step s = .next t ∧ Completes s t m (after (c.fetched s.params.rIncMask 0x00#8)) 8 ∧
      ∀ a, t.peek a = s.peek a)

/-- LD dd,nn (R241): the pair named by opcode[5:4] takes nn. -/
def Obligations.LdDdNnLoadsThePair : Prop :=
  let after (dd : PairName) (nn : Word) (c : Cpu) : Cpu :=
    (match dd with
      | .bc => { c with bc := nn, pc := c.pc + 3#16 }
      | .de => { c with de := nn, pc := c.pc + 3#16 }
      | .hl => { c with hl := nn, pc := c.pc + 3#16 }
      | .sp => { c with sp := nn, pc := c.pc + 3#16 } : Cpu).rested
  let opcode (dd : PairName) : Byte :=
    match dd with
    | .bc => 0x01#8
    | .de => 0x11#8
    | .hl => 0x21#8
    | .sp => 0x31#8
  (exec0 (opcode .bc)).map Entry.ops = some [.mr .pc .c [.incPC], .mr .pc .b [.incPC]] ∧
  (exec0 (opcode .de)).map Entry.ops = some [.mr .pc .e [.incPC], .mr .pc .d [.incPC]] ∧
  (exec0 (opcode .hl)).map Entry.ops = some [.mr .pc .l [.incPC], .mr .pc .h [.incPC]] ∧
  (exec0 (opcode .sp)).map Entry.ops = some [.mr .pc .spl [.incPC], .mr .pc .sph [.incPC]] ∧
  (∀ (s : State) (m : RefMem) (dd : PairName) (nn : Word), AtDispatch s m →
    s.peek (s.cpu.pc + 1#16) = loByte nn → s.peek (s.cpu.pc + 2#16) = hiByte nn →
    ∃ t, exec (.ldDdNn dd nn) s = .next t ∧ Completes s t m (after dd nn s.cpu) 13 ∧ ∀ a, t.peek a = s.peek a) ∧
  (∀ (s : State) (m : RefMem) (c : Cpu) (dd : PairName) (nn : Word), AtBoundary s m c →
    s.peek c.pc = opcode dd → s.peek (c.pc + 1#16) = loByte nn → s.peek (c.pc + 2#16) = hiByte nn →
    ∃ t, step s = .next t ∧ Completes s t m (after dd nn (c.fetched s.params.rIncMask (opcode dd))) 20 ∧
      ∀ a, t.peek a = s.peek a)

/-- LD A,n (R242): F is unchanged. -/
def Obligations.LdANLoadsTheImmediate : Prop :=
  let after (n : Byte) (c : Cpu) : Cpu := ({ c with af := n ++ loByte c.af, pc := c.pc + 2#16 } : Cpu).rested
  (exec0 0x3E#8).map Entry.ops = some [.mr .pc .a [.incPC]] ∧
  (∀ (s : State) (m : RefMem) (n : Byte), AtDispatch s m → s.peek (s.cpu.pc + 1#16) = n →
    ∃ t, exec (.ldAN n) s = .next t ∧ Completes s t m (after n s.cpu) 7 ∧ ∀ a, t.peek a = s.peek a) ∧
  (∀ (s : State) (m : RefMem) (c : Cpu) (n : Byte), AtBoundary s m c → s.peek c.pc = 0x3E#8 →
    s.peek (c.pc + 1#16) = n →
    ∃ t, step s = .next t ∧ Completes s t m (after n (c.fetched s.params.rIncMask 0x3E#8)) 14 ∧
      ∀ a, t.peek a = s.peek a)

/-- LD A,(nn) (R243): WZ keeps nn; an address no device decodes reads 0x00 (that is `State.peek`). -/
def Obligations.LdANnLoadsTheByteAtNn : Prop :=
  let after (nn : Word) (v : Byte) (c : Cpu) : Cpu :=
    ({ c with af := v ++ loByte c.af, wz := nn, pc := c.pc + 3#16 } : Cpu).rested
  (exec0 0x3A#8).map Entry.ops = some [.mr .pc .z [.incPC], .mr .pc .w [.incPC], .mr .wz .a []] ∧
  (∀ (s : State) (m : RefMem) (nn : Word), AtDispatch s m →
    s.peek (s.cpu.pc + 1#16) = loByte nn → s.peek (s.cpu.pc + 2#16) = hiByte nn →
    ∃ t, exec (.ldANn nn) s = .next t ∧ Completes s t m (after nn (s.peek nn) s.cpu) 19 ∧
      ∀ a, t.peek a = s.peek a) ∧
  (∀ (s : State) (m : RefMem) (c : Cpu) (nn : Word), AtBoundary s m c → s.peek c.pc = 0x3A#8 →
    s.peek (c.pc + 1#16) = loByte nn → s.peek (c.pc + 2#16) = hiByte nn →
    ∃ t, step s = .next t ∧ Completes s t m (after nn (s.peek nn) (c.fetched s.params.rIncMask 0x3A#8)) 26 ∧
      ∀ a, t.peek a = s.peek a)

/-- LD (nn),A (R244): the byte at nn takes A where a writable device decodes nn, and no other byte changes. -/
def Obligations.LdNnAStoresAAtNn : Prop :=
  let after (nn : Word) (c : Cpu) : Cpu := ({ c with wz := nn, pc := c.pc + 3#16 } : Cpu).rested
  (exec0 0x32#8).map Entry.ops = some [.mr .pc .z [.incPC], .mr .pc .w [.incPC], .mw .wz .a []] ∧
  (∀ (s : State) (m : RefMem) (nn : Word), AtDispatch s m →
    s.peek (s.cpu.pc + 1#16) = loByte nn → s.peek (s.cpu.pc + 2#16) = hiByte nn →
    ∃ t, exec (.ldNnA nn) s = .next t ∧ Completes s t (m.afterWrite nn (hiByte s.cpu.af)) (after nn s.cpu) 19 ∧
      ∀ a, t.peek a = if a = nn ∧ m.decodes nn = true ∧ m.writable = true then hiByte s.cpu.af else s.peek a) ∧
  (∀ (s : State) (m : RefMem) (c : Cpu) (nn : Word), AtBoundary s m c → s.peek c.pc = 0x32#8 →
    s.peek (c.pc + 1#16) = loByte nn → s.peek (c.pc + 2#16) = hiByte nn →
    ∃ t, step s = .next t ∧
      Completes s t (m.afterWrite nn (hiByte c.af)) (after nn (c.fetched s.params.rIncMask 0x32#8)) 26 ∧
      ∀ a, t.peek a = if a = nn ∧ m.decodes nn = true ∧ m.writable = true then hiByte c.af else s.peek a)

/-- EX AF,AF' (R246). -/
def Obligations.ExAfAfSwapsAf : Prop :=
  let after (c : Cpu) : Cpu := ({ c with af := c.af', af' := c.af, pc := c.pc + 1#16 } : Cpu).rested
  (exec0 0x08#8).map Entry.ops = some [] ∧
  (∀ (s : State) (m : RefMem), AtDispatch s m →
    ∃ t, exec .exAfAf s = .next t ∧ Completes s t m (after s.cpu) 1 ∧ ∀ a, t.peek a = s.peek a) ∧
  (∀ (s : State) (m : RefMem) (c : Cpu), AtBoundary s m c → s.peek c.pc = 0x08#8 →
    ∃ t, step s = .next t ∧ Completes s t m (after (c.fetched s.params.rIncMask 0x08#8)) 8 ∧
      ∀ a, t.peek a = s.peek a)

/-- EXX (R247). -/
def Obligations.ExxSwapsTheMainPairs : Prop :=
  let after (c : Cpu) : Cpu :=
    ({ c with
        bc := c.bc', bc' := c.bc, de := c.de', de' := c.de, hl := c.hl', hl' := c.hl, pc := c.pc + 1#16 } :
      Cpu).rested
  (exec0 0xD9#8).map Entry.ops = some [] ∧
  (∀ (s : State) (m : RefMem), AtDispatch s m →
    ∃ t, exec .exx s = .next t ∧ Completes s t m (after s.cpu) 1 ∧ ∀ a, t.peek a = s.peek a) ∧
  (∀ (s : State) (m : RefMem) (c : Cpu), AtBoundary s m c → s.peek c.pc = 0xD9#8 →
    ∃ t, step s = .next t ∧ Completes s t m (after (c.fetched s.params.rIncMask 0xD9#8)) 8 ∧
      ∀ a, t.peek a = s.peek a)

/-- INC A (R260, R262): bit by bit, F' is the new F, F the old one, a the old A, r the new A. -/
def Obligations.IncAWritesAAndTheFlags : Prop :=
  let flags (a f f' : Byte) : Prop :=
    f'.getLsbD 7 = (a + 1#8).getLsbD 7 ∧ f'.getLsbD 6 = decide (a + 1#8 = 0x00#8) ∧
    f'.getLsbD 5 = (a + 1#8).getLsbD 5 ∧ f'.getLsbD 4 = decide (a &&& 0x0F#8 = 0x0F#8) ∧
    f'.getLsbD 3 = (a + 1#8).getLsbD 3 ∧ f'.getLsbD 2 = decide (a = 0x7F#8) ∧
    f'.getLsbD 1 = false ∧ f'.getLsbD 0 = f.getLsbD 0
  let after (c : Cpu) (f' : Byte) : Cpu :=
    ({ c with af := (hiByte c.af + 1#8) ++ f', pc := c.pc + 1#16 } : Cpu).rested
  (exec0 0x3C#8).map Entry.ops = some [] ∧
  (∀ (s : State) (m : RefMem), AtDispatch s m →
    ∃ t f', flags (hiByte s.cpu.af) (loByte s.cpu.af) f' ∧ exec .incA s = .next t ∧
      Completes s t m (after s.cpu f') 1 ∧ ∀ a, t.peek a = s.peek a) ∧
  (∀ (s : State) (m : RefMem) (c : Cpu), AtBoundary s m c → s.peek c.pc = 0x3C#8 →
    ∃ t f', flags (hiByte c.af) (loByte c.af) f' ∧ step s = .next t ∧
      Completes s t m (after (c.fetched s.params.rIncMask 0x3C#8) f') 8 ∧ ∀ a, t.peek a = s.peek a)

/-- JP nn (R270). -/
def Obligations.JpNnGoesToNn : Prop :=
  let after (nn : Word) (c : Cpu) : Cpu := ({ c with wz := nn, pc := nn } : Cpu).rested
  (exec0 0xC3#8).map Entry.ops = some [.mr .pc .z [.incPC], .mr .pc .w [.incPC, .jumpWZ]] ∧
  (∀ (s : State) (m : RefMem) (nn : Word), AtDispatch s m →
    s.peek (s.cpu.pc + 1#16) = loByte nn → s.peek (s.cpu.pc + 2#16) = hiByte nn →
    ∃ t, exec (.jpNn nn) s = .next t ∧ Completes s t m (after nn s.cpu) 13 ∧ ∀ a, t.peek a = s.peek a) ∧
  (∀ (s : State) (m : RefMem) (c : Cpu) (nn : Word), AtBoundary s m c → s.peek c.pc = 0xC3#8 →
    s.peek (c.pc + 1#16) = loByte nn → s.peek (c.pc + 2#16) = hiByte nn →
    ∃ t, step s = .next t ∧ Completes s t m (after nn (c.fetched s.params.rIncMask 0xC3#8)) 20 ∧
      ∀ a, t.peek a = s.peek a)

/-- JP NZ,nn (R271): taken iff F[6] = 0; both operand bytes are read either way. -/
def Obligations.JpNzNnGoesToNnUnlessZ : Prop :=
  let after (nn : Word) (c : Cpu) : Cpu :=
    ({ c with wz := nn, pc := if (loByte c.af).getLsbD 6 = false then nn else c.pc + 3#16 } : Cpu).rested
  (exec0 0xC2#8).map Entry.ops = some [.mr .pc .z [.incPC], .mr .pc .w [.incPC, .jumpWZIfNZ]] ∧
  (∀ (s : State) (m : RefMem) (nn : Word), AtDispatch s m →
    s.peek (s.cpu.pc + 1#16) = loByte nn → s.peek (s.cpu.pc + 2#16) = hiByte nn →
    ∃ t, exec (.jpNzNn nn) s = .next t ∧ Completes s t m (after nn s.cpu) 13 ∧ ∀ a, t.peek a = s.peek a) ∧
  (∀ (s : State) (m : RefMem) (c : Cpu) (nn : Word), AtBoundary s m c → s.peek c.pc = 0xC2#8 →
    s.peek (c.pc + 1#16) = loByte nn → s.peek (c.pc + 2#16) = hiByte nn →
    ∃ t, step s = .next t ∧ Completes s t m (after nn (c.fetched s.params.rIncMask 0xC2#8)) 20 ∧
      ∀ a, t.peek a = s.peek a)

/-- CALL nn (R272): the address after the instruction goes to the stack, high byte at SP - 1, low byte at SP - 2. -/
def Obligations.CallNnSavesPcAndGoesToNn : Prop :=
  let after (nn : Word) (c : Cpu) : Cpu := ({ c with wz := nn, sp := c.sp - 2#16, pc := nn } : Cpu).rested
  let stored (m : RefMem) (c : Cpu) : RefMem :=
    (m.afterWrite (c.sp - 1#16) (hiByte (c.pc + 3#16))).afterWrite (c.sp - 2#16) (loByte (c.pc + 3#16))
  let bytes (s : State) (m : RefMem) (c : Cpu) (a : Word) : Byte :=
    if m.decodes a = true ∧ m.writable = true then
      if a = c.sp - 2#16 then loByte (c.pc + 3#16)
      else if a = c.sp - 1#16 then hiByte (c.pc + 3#16) else s.peek a
    else s.peek a
  (exec0 0xCD#8).map Entry.ops =
    some [.mr .pc .z [.incPC], .mr .pc .w [.incPC, .decSP], .mw .sp .pch [.decSP], .mw .sp .pcl [.jumpWZ]] ∧
  (∀ (s : State) (m : RefMem) (nn : Word), AtDispatch s m →
    s.peek (s.cpu.pc + 1#16) = loByte nn → s.peek (s.cpu.pc + 2#16) = hiByte nn →
    ∃ t, exec (.callNn nn) s = .next t ∧ Completes s t (stored m s.cpu) (after nn s.cpu) 25 ∧
      ∀ a, t.peek a = bytes s m s.cpu a) ∧
  (∀ (s : State) (m : RefMem) (c : Cpu) (nn : Word), AtBoundary s m c → s.peek c.pc = 0xCD#8 →
    s.peek (c.pc + 1#16) = loByte nn → s.peek (c.pc + 2#16) = hiByte nn →
    ∃ t, step s = .next t ∧ Completes s t (stored m c) (after nn (c.fetched s.params.rIncMask 0xCD#8)) 32 ∧
      ∀ a, t.peek a = bytes s m c a)

/-- RET (R273): IFF1 and IFF2 are not touched. -/
def Obligations.RetTakesPcFromTheStack : Prop :=
  let after (lo hi : Byte) (c : Cpu) : Cpu :=
    ({ c with wz := hi ++ lo, sp := c.sp + 2#16, pc := hi ++ lo } : Cpu).rested
  (exec0 0xC9#8).map Entry.ops = some [.mr .sp .z [.incSP], .mr .sp .w [.incSP, .jumpWZ]] ∧
  (∀ (s : State) (m : RefMem), AtDispatch s m →
    ∃ t, exec .ret s = .next t ∧ Completes s t m (after (s.peek s.cpu.sp) (s.peek (s.cpu.sp + 1#16)) s.cpu) 13 ∧
      ∀ a, t.peek a = s.peek a) ∧
  (∀ (s : State) (m : RefMem) (c : Cpu), AtBoundary s m c → s.peek c.pc = 0xC9#8 →
    ∃ t, step s = .next t ∧
      Completes s t m (after (s.peek c.sp) (s.peek (c.sp + 1#16)) (c.fetched s.params.rIncMask 0xC9#8)) 20 ∧
      ∀ a, t.peek a = s.peek a)

/-- RST p (R274): fetched by M1, the address after the opcode goes to the stack; p = opcode[5:3] * 8. Arriving
through a mode-0 acknowledge it schedules no increment, so that PC itself goes there. -/
def Obligations.RstPSavesPcAndGoesToP : Prop :=
  let after (p : Word) (c : Cpu) : Cpu := ({ c with sp := c.sp - 2#16, pc := p } : Cpu).rested
  let stored (m : RefMem) (c : Cpu) : RefMem :=
    (m.afterWrite (c.sp - 1#16) (hiByte (c.pc + 1#16))).afterWrite (c.sp - 2#16) (loByte (c.pc + 1#16))
  let bytes (s : State) (m : RefMem) (c : Cpu) (a : Word) : Byte :=
    if m.decodes a = true ∧ m.writable = true then
      if a = c.sp - 2#16 then loByte (c.pc + 1#16)
      else if a = c.sp - 1#16 then hiByte (c.pc + 1#16) else s.peek a
    else s.peek a
  (∀ ttt : BitVec 3, (exec0 (0b11#2 ++ ttt ++ 0b111#3)).map Entry.ops =
    some [.mw .sp .pch [.decSP], .mw .sp .pcl [.setPC (0x00#8 ++ 0b00#2 ++ ttt ++ 0b000#3)]]) ∧
  (∀ (s : State) (m : RefMem) (p : Word), AtDispatch s m →
    ∃ t, exec (.rstP p) s = .next t ∧ Completes s t (stored m s.cpu) (after p s.cpu) 13 ∧
      ∀ a, t.peek a = bytes s m s.cpu a) ∧
  (∀ (s : State) (m : RefMem) (c : Cpu) (ttt : BitVec 3), AtBoundary s m c →
    s.peek c.pc = 0b11#2 ++ ttt ++ 0b111#3 →
    ∃ t, step s = .next t ∧
      Completes s t (stored m c)
        (after (0x00#8 ++ 0b00#2 ++ ttt ++ 0b000#3) (c.fetched s.params.rIncMask (0b11#2 ++ ttt ++ 0b111#3))) 20 ∧
      ∀ a, t.peek a = bytes s m c a) ∧
  (∀ (n : Node) (ttt : BitVec 3), n.cpu.pipe = [] → n.cpu.im = .im0 → n.cpu.ibyte = 0b11#2 ++ ttt ++ 0b111#3 →
    (iackT4H2 exec0 n).clock = n.clock ∧ (iackT4H2 exec0 n).cpu.pc = n.cpu.pc ∧
    (iackT4H2 exec0 n).cpu.sp = n.cpu.sp - 1#16 ∧
    (iackT4H2 exec0 n).cpu.pipe =
      [.mw .sp .pch [.decSP], .mw .sp .pcl [.setPC (0x00#8 ++ 0b00#2 ++ ttt ++ 0b000#3)]])

/-- DI (R290): it takes effect in its own T4_H2, so that the CPU tick at the boundary that follows starts the next fetch,
even if INT is active there and IFF1 was 1 until then (an INT that became active in the middle of the DI). -/
def Obligations.DiClearsTheFlipFlops : Prop :=
  let after (c : Cpu) : Cpu := ({ c with iff1 := false, iff2 := false, pc := c.pc + 1#16 } : Cpu).rested
  (exec0 0xF3#8).map Entry.ops = some [] ∧
  (∀ (s : State) (m : RefMem), AtDispatch s m →
    ∃ t, exec .di s = .next t ∧ Completes s t m (after s.cpu) 1 ∧ (∀ a, t.peek a = s.peek a) ∧
      (s.cpu.nmiPending = false → t.clockTick.bus.active .int = true →
        (cpuTick exec0 s.params.rIncMask t.clockTick.toNode).cpu = { after s.cpu with step := .t1h2 })) ∧
  (∀ (s : State) (m : RefMem) (c : Cpu), AtBoundary s m c → s.peek c.pc = 0xF3#8 →
    ∃ t, step s = .next t ∧ Completes s t m (after (c.fetched s.params.rIncMask 0xF3#8)) 8 ∧
      (∀ a, t.peek a = s.peek a) ∧
      (t.clockTick.bus.active .int = true →
        (cpuTick exec0 s.params.rIncMask t.clockTick.toNode).cpu =
          { after (c.fetched s.params.rIncMask 0xF3#8) with step := .t1h2 }))

/-- EI (R291): no delay; IFF1 is 1 at the next instruction boundary, and if INT is active there the next CPU tick is INT
entry (R315), before another instruction is fetched. -/
def Obligations.EiSetsTheFlipFlops : Prop :=
  let after (c : Cpu) : Cpu := ({ c with iff1 := true, iff2 := true, pc := c.pc + 1#16 } : Cpu).rested
  (exec0 0xFB#8).map Entry.ops = some [] ∧
  (∀ (s : State) (m : RefMem), AtDispatch s m →
    ∃ t, exec .ei s = .next t ∧ Completes s t m (after s.cpu) 1 ∧ ∀ a, t.peek a = s.peek a) ∧
  (∀ (s : State) (m : RefMem) (c : Cpu), AtBoundary s m c → s.peek c.pc = 0xFB#8 →
    ∃ t, step s = .next t ∧ Completes s t m (after (c.fetched s.params.rIncMask 0xFB#8)) 8 ∧
      (∀ a, t.peek a = s.peek a) ∧
      (t.clockTick.bus.active .int = true →
        (cpuTick exec0 s.params.rIncMask t.clockTick.toNode).cpu =
          { after (c.fetched s.params.rIncMask 0xFB#8) with iff1 := false, iff2 := false, iack := true }))

/-- HALT (R292): the CPU is halted, PC rests after the opcode, the HALT line is Low, and from the next tick on
normal decode does nothing. -/
def Obligations.HaltStopsTheCpu : Prop :=
  let after (c : Cpu) : Cpu := ({ c with halted := true, pc := c.pc + 1#16 } : Cpu).rested
  (exec0 0x76#8).map Entry.ops = some [] ∧
  (∀ (s : State) (m : RefMem), AtDispatch s m →
    ∃ t, exec .halt s = .next t ∧ Completes s t m (after s.cpu) 1 ∧ t.bus.active .halt = true ∧
      ∀ a, t.peek a = s.peek a) ∧
  (∀ (s : State) (m : RefMem) (c : Cpu), AtBoundary s m c → s.peek c.pc = 0x76#8 →
    ∃ t, step s = .next t ∧ Completes s t m (after (c.fetched s.params.rIncMask 0x76#8)) 8 ∧
      t.bus.active .halt = true ∧ ∀ a, t.peek a = s.peek a) ∧
  (∀ (X : ExecTable) (mask : Byte) (n : Node), n.cpu.halted = true → normalDecode X mask n = n)

/-! ## The signal bus -/

/-- set shifts and writes one line; what it leaves there, and what the three queries answer, stays until the next set of
that line, whatever is set on the others (R110, R114, R115). -/
def Obligations.SetShiftsOneLineAndEdgesPersist : Prop :=
  ∀ (b : Bus) (l : Line) (v : Level) (later : List (Line × Level)), (∀ o ∈ later, o.1 ≠ l) →
    let b' := later.foldl (fun b o => b.set o.1 o.2) (b.set l v)
    b'.get l = ⟨(b.get l).cur, v⟩ ∧
    b'.posedge l = ((b.get l).cur == .low && v == .high) ∧
    b'.negedge l = ((b.get l).cur == .high && v == .low) ∧
    (∀ level, b'.activeAt l level = (v == level)) ∧
    (∀ l', l' ≠ l → (b.set l v).get l' = b.get l')

/-- HighImpedance takes part in no edge (R116), and a released line is active at no level (R113). -/
def Obligations.HighImpedanceHasNoEdge : Prop :=
  ∀ (b : Bus) (l : Line),
    ((b.get l).prev = .hiZ ∨ (b.get l).cur = .hiZ → b.posedge l = false ∧ b.negedge l = false) ∧
    ((b.get l).cur = .hiZ → b.activeAt l .low = false ∧ b.activeAt l .high = false)

/-- The word accessors: reading gives the lines at High, writing and reading back gives the word, writing shifts every
line of the group and no other, releasing leaves the group at Z, where it reads 0 (R118 to R121). -/
def Obligations.WordAccessorsReadWriteRelease : Prop :=
  ∀ (b : Bus) (w : Word) (x : Byte),
    (∀ i : Fin 16, b.addrRead.getLsbD i = ((b.get (.a i)).cur == .high)) ∧
    (∀ i : Fin 8, b.dataRead.getLsbD i = ((b.get (.d i)).cur == .high)) ∧
    (b.addrWrite w).addrRead = w ∧ (b.dataWrite x).dataRead = x ∧
    b.addrRelease.addrRead = 0x0000#16 ∧ b.dataRelease.dataRead = 0x00#8 ∧
    (∀ i : Fin 16, (b.addrWrite w).get (.a i) = ⟨(b.get (.a i)).cur, if w.getLsbD i then .high else .low⟩ ∧
      b.addrRelease.get (.a i) = ⟨(b.get (.a i)).cur, .hiZ⟩) ∧
    (∀ i : Fin 8, (b.dataWrite x).get (.d i) = ⟨(b.get (.d i)).cur, if x.getLsbD i then .high else .low⟩ ∧
      b.dataRelease.get (.d i) = ⟨(b.get (.d i)).cur, .hiZ⟩) ∧
    (∀ l, (∀ i, l ≠ .a i) → (b.addrWrite w).get l = b.get l ∧ b.addrRelease.get l = b.get l) ∧
    (∀ l, (∀ i, l ≠ .d i) → (b.dataWrite x).get l = b.get l ∧ b.dataRelease.get l = b.get l)

/-! ## The clock generator -/

/-- N ticks advance the counter by N and fire exactly the events that have come due, each once, those of an earlier
expiry first unless they were already due at the first tick; the others stay, in their order (R138). -/
def Obligations.ClockFiresEachDueEventOnce : Prop :=
  ∀ (c : Clock) (n : Nat),
    (Clock.advances (n + 1) c).counter = c.counter + (n + 1) ∧
    (Clock.advances (n + 1) c).events = c.events.filter (fun e => !decide (e.expiry ≤ c.counter + (n + 1))) ∧
    (Clock.fired (n + 1) c).Perm (c.events.filter fun e => decide (e.expiry ≤ c.counter + (n + 1))) ∧
    (Clock.fired (n + 1) c).Pairwise fun e e' => e.expiry ≤ e'.expiry ∨ e.expiry ≤ c.counter + 1

/-- schedule appends the event, its expiry counted from the counter, or from 0 while no tick has happened (R132). -/
def Obligations.ScheduleCountsFromTheCounter : Prop :=
  ∀ (c : Clock) (delay : Nat) (a : Action),
    (0 ≤ c.counter → c.schedule delay a = { c with events := c.events ++ [⟨c.counter + delay, a⟩] }) ∧
    (c.counter = -1 → c.schedule delay a = { c with events := c.events ++ [⟨delay, a⟩] })

/-- An event that an action schedules never fires in the same tick; with delay 0 it fires at the next (R137, R362). -/
def Obligations.EventFromAnActionFiresLater : Prop :=
  ∀ (n : Node) (e : Int) (delay : Nat) (l : Line) (v : Level), -1 ≤ n.clock.counter → e ≤ n.clock.counter + 1 →
    n.clock.events = [⟨e, .external (.schedule delay (.setLine l v))⟩] →
    n.clockTick =
      { n with
        clock := ⟨n.clock.counter + 1, [⟨n.clock.counter + 1 + delay, .external (.setLine l v)⟩]⟩ } ∧
    (delay = 0 → n.clockTick.clockTick = { n with clock := ⟨n.clock.counter + 2, []⟩, bus := n.bus.set l v })

/-! ## Memory -/

/-- Equal contents are equal data: two canonical memories that read alike at every address are the same list (log 5). -/
def Obligations.CanonicalMemoriesAreExtensional : Prop :=
  ∀ m m' : Memory, Memory.wf m = true → Memory.wf m' = true → (∀ a, Memory.read m a = Memory.read m' a) → m = m'

/-- The whole tick of the reference memory (R76, R77): selected for a read it puts its byte on the data lines; else, if it
drove them, it releases them, and if it did not, it leaves them; then, independently, selected for a write it takes the
byte on the lines, at that address alone. It touches no line but D0 to D7 (R81), and while RFSH is active it neither drives
nor stores (R80). -/
def Obligations.MemoryTickKeepsToTheDataLines : Prop :=
  ∀ (m : RefMem) (b : Bus),
    let a := b.addrRead
    let decodes := decide (m.base.toNat ≤ a.toNat) && decide (a.toNat < m.base.toNat + m.size)
    let reads := b.active .mreq && b.active .rd && !b.active .rfsh && decodes
    let writes := b.active .mreq && b.active .wr && !b.active .rfsh && decodes && m.writable
    let b' := (m.tick b).2
    let m' := (m.tick b).1
    b' = (if reads then b.dataWrite (m.byteAt a) else if m.driving then b.dataRelease else b) ∧
    m' = { m with driving := reads, bytes := m'.bytes } ∧
    (writes = false → m'.bytes = m.bytes) ∧
    (writes = true → Memory.wf m.bytes = true →
      m'.byteAt a = b'.dataRead ∧ ∀ a', a' ≠ a → m'.byteAt a' = m.byteAt a') ∧
    (∀ l, (∀ i, l ≠ .d i) → b'.get l = b.get l) ∧
    (b.active .rfsh = true → m' = { m with driving := false } ∧ b' = if m.driving then b.dataRelease else b)

/-! ## The sequencer -/

/-- With divider k a device dispatched at the counters 0 to n ticks at the multiples of 2^k and at no other: its script
has lost n / 2^k + 1 entries; without a divider it ticks each time (R153, R154). -/
def Obligations.DividerGateTicksAtMultiples : Prop :=
  ∀ (X : ExecTable) (mask : Byte) (node : Node) (name n : Nat) (ty : ExternalType) (script : List (List LineOp)),
    (∀ k, (Device.dispatchedUpTo X mask node ⟨name, none, some k, none, .external ty script⟩ (n + 1)).kind =
      .external ty (script.drop (n / 2 ^ k + 1))) ∧
    (Device.dispatchedUpTo X mask node ⟨name, none, none, none, .external ty script⟩ (n + 1)).kind =
      .external ty (script.drop (n + 1))

/-- Registering devices keeps the list sorted by type and the names distinct, keeps the records that are there, and adds
the new ones after those of their type, in the order given; a name that is already there is left out (R151, R152). -/
def Obligations.RegistrationSortsByType : Prop :=
  ∀ (ds more ds' : List Device), registerDevices ds more = .ok ds' →
    (ds.map fun d => d.type.rank).Pairwise (· ≤ ·) → (ds.map Device.name).Nodup →
    (ds'.map fun d => d.type.rank).Pairwise (· ≤ ·) ∧ (ds'.map Device.name).Nodup ∧
    (∀ d ∈ more, d.name ∈ ds'.map Device.name) ∧
    ∃ added : List Device, added.Sublist (more.map Device.fresh) ∧
      ∀ ty, ds'.filter (fun d => d.type == ty) =
        ds.filter (fun d => d.type == ty) ++ added.filter (fun d => d.type == ty)

/-- What a board step does in each run state. In Run, in this order: the clock, every device in list order (each seeing
what those before it left), the Timer Manager, the oldest request (R160); in Stop the request alone (R161); in Quit nothing
(R162). What the requests Run, Stop and Quit do wherever they are drained (R163, R167). That what the
host has appended since the last step joins the queue first is the model's choice (DESIGN CHOICE, log 9): that is `s₀`. -/
def Obligations.StopDrainsAndQuitIsTerminal : Prop :=
  ∀ (X : ExecTable) (s : State), s.refused = none →
    let s₀ : State := { s with queue := s.queue ++ s.arrivals.head?.getD [], arrivals := s.arrivals.tail }
    let clocked : Node := s.toNode.clockTick
    let ticked : List Device × Node :=
      s.devices.foldl
        (fun p d => (p.1 ++ [(d.dispatch X s.params.rIncMask p.2).1], (d.dispatch X s.params.rIncMask p.2).2))
        ([], clocked)
    let served : List (TimerLine × Nat) × Bus := serviceTimers s.timers ticked.2.bus
    let u : State :=
      { s₀ with toNode := { ticked.2 with bus := served.2 }, devices := ticked.1, timers := served.1 }
    let drains (v : State) : Prop :=
      (v.queue = [] → boardStep X s = .next v) ∧
      (∀ r rest, v.queue = r :: rest → boardStep X s = .next (r.handle { v with queue := rest })) ∧
      (∀ rest, v.queue = .run :: rest → boardStep X s = .next { v with queue := rest, runState := .run }) ∧
      (∀ rest, v.queue = .stop :: rest → boardStep X s = .next { v with queue := rest, runState := .stop }) ∧
      (∀ rest, v.queue = .quit :: rest → boardStep X s = .next { v with queue := rest, runState := .quit })
    (s.runState = .quit → boardStep X s = .next s) ∧ (s.runState = .stop → drains s₀) ∧ (s.runState = .run → drains u)

/-- One request a step, in FIFO order: a step in Run or Stop takes the oldest request, whatever it is, and the others
stay in their order, those that arrive behind them (R164). -/
def Obligations.RequestsAreDrainedInOrder : Prop :=
  ∀ (X : ExecTable) (s t : State), s.runState ≠ .quit → boardStep X s = .next t →
    t.queue = (s.queue ++ s.arrivals.head?.getD []).tail ∧ t.arrivals = s.arrivals.tail

/-- The Reset request (R165): the clock reset, every device reset, Run entered, RESET Low with a timer of
RESET_HOLD_STEPS, or released at once when that is 0; no other line is touched. -/
def Obligations.ResetRequestResetsAndPullsReset : Prop :=
  ∀ s : State,
    let t := Request.reset.handle s
    t.clock = ⟨-1, []⟩ ∧ t.devices = s.devices.map (Device.reset s.params.memResetClears) ∧
    (s.devices.any Device.isCpu = true → t.cpu = Cpu.zero) ∧ t.runState = .run ∧
    (0 < s.params.resetHold → t.bus = s.bus.set .reset .low ∧
      t.timers = s.timers.filter (fun e => e.1 != .reset) ++ [(.reset, s.params.resetHold)]) ∧
    (s.params.resetHold = 0 → t.bus = (s.bus.set .reset .low).set .reset .high ∧
      t.timers = s.timers.filter fun e => e.1 != .reset) ∧
    t.queue = s.queue ∧ t.refused = s.refused

/-- The NonMaskableInterrupt request (R166): NMI Low with a timer of NMI_HOLD_STEPS, Run entered; the clock, the CPU and
the devices are not reset. -/
def Obligations.NmiRequestPullsNmi : Prop :=
  ∀ s : State,
    let t := Request.nonMaskableInterrupt.handle s
    t.clock = s.clock ∧ t.devices = s.devices ∧ t.cpu = s.cpu ∧ t.runState = .run ∧
    (0 < s.params.nmiHold → t.bus = s.bus.set .nmi .low ∧
      t.timers = s.timers.filter (fun e => e.1 != .nmi) ++ [(.nmi, s.params.nmiHold)]) ∧
    (s.params.nmiHold = 0 → t.bus = (s.bus.set .nmi .low).set .nmi .high ∧
      t.timers = s.timers.filter fun e => e.1 != .nmi)

/-- The Timer Manager's service of each entry, and that it holds a line for n services and raises it in the n-th
(R169). -/
def Obligations.TimerReleasesAfterItsSteps : Prop :=
  (∀ (ts : List (TimerLine × Nat)) (b : Bus),
    (serviceTimers ts b).1 = (ts.filter fun e => decide (1 < e.2)).map (fun e => (e.1, e.2 - 1)) ∧
    (serviceTimers ts b).2 =
      (ts.filter fun e => decide (e.2 ≤ 1)).foldl (fun b e => b.set e.1.line .high) b) ∧
  ∀ (l : TimerLine) (n : Nat) (b : Bus), 0 < n →
    (∀ j, j < n → timerServices j ([(l, n)], b) = ([(l, n - j)], b)) ∧
    timerServices n ([(l, n)], b) = ([], b.set l.line .high)

/-- After a Reset request with RESET_HOLD_STEPS = N at least 6, on a board of one CPU and one reference memory without
dividers, N board steps leave the values of R44 overlaid by those of R45, whatever the registers and lines were (R46,
R341, R352). The state that the request is handled in is arbitrary but for its request queues and timers. -/
def Obligations.ResetRequestLeavesTheResetValues : Prop :=
  ∀ (X : ExecTable) (s : State) (m : RefMem), s.refused = none → s.queue = [] → s.arrivals = [] → s.timers = [] →
    s.devices.map (fun d => (d.kind, d.divider)) = [(.cpu, none), (.refMem m, none)] → 6 ≤ s.params.resetHold →
    ∃ t, runBoard X s.params.resetHold (Request.reset.handle s) = .next t ∧
      t.cpu =
        { Cpu.zero with
          sp := 0xFFFF#16, af := 0xFFFF#16, resetStep := 6, nmiSampled := s.bus.active .nmi } ∧
      t.clock = ⟨(s.params.resetHold : Int) - 1, []⟩ ∧ t.runState = .run ∧ t.timers = [] ∧ t.refused = none ∧
      t.devices.map (fun d => d.kind) = [.cpu, .refMem (m.reset s.params.memResetClears)] ∧
      t.bus.get .reset = ⟨.low, .high⟩ ∧
      (∀ l ∈ [Line.m1, .mreq, .iorq, .rd, .wr, .rfsh, .halt, .busack], (t.bus.get l).cur = .high) ∧
      (∀ i, (t.bus.get (.a i)).cur = .hiZ) ∧ (∀ i, (t.bus.get (.d i)).cur = .hiZ) ∧
      (∀ l ∈ [Line.wait, .int, .nmi, .busrq], t.bus.get l = s.bus.get l)

/-- Construction (R43, R44): whatever was in the records handed over, every one is as after reset(), with its bytes kept
and nothing driven; every CPU register and latch is 0, every line at BUS_INIT in both slots, the clock at -1, the sequencer
stopped with nothing waiting. That the records are a list handed over, kept in its order and not checked, is the model's
choice (log 20). And State.reset is what the reference board comes to, from construction, by a Reset request
and six board steps (log 3: the board and its parameters are the model's choice). -/
def Obligations.ResetStateIsReached : Prop :=
  (∀ (p : Params) (ds : List Device),
    let s := State.construction p ds
    s.devices = ds.map (fun d =>
      { d with
        last := none
        kind :=
          match d.kind with
          | .cpu => .cpu
          | .refMem m => .refMem { m with driving := false }
          | .external ty script => .external ty script }) ∧
    s.cpu = Cpu.zero ∧ (∀ l, s.bus.get l = ⟨p.busInit, p.busInit⟩) ∧ s.clock = ⟨-1, []⟩ ∧ s.runState = .stop ∧
    s.queue = [] ∧ s.timers = [] ∧ s.refused = none) ∧
  runBoard exec0 7 { State.construction Params.reference referenceDevices with queue := [.reset] } =
    .next State.reset

/-! ## RESET, BUS-REQUEST, NMI, INT -/

/-- The steps of the RESET sequence (R303, R304, R305), each a CPU tick that sees RESET active. -/
def Obligations.ResetStepsWriteTheirGroups : Prop :=
  ∀ (X : ExecTable) (mask : Byte) (n : Node), n.bus.active .reset = true →
    let c := (n.cpu.sampleNmi n.bus).normalise
    let t := cpuTick X mask n
    (n.cpu.resetStep = 0 →
      t.cpu =
        { c with
          iff1 := false, iff2 := false, im := .im0, mc := .m1, step := .t1h1, pipe := [], iack := false
          halted := false, busGranted := false, resetStep := 1, nmiPending := false } ∧
      (∀ l ∈ [Line.m1, .mreq, .iorq, .rd, .wr, .rfsh, .halt, .busack],
        t.bus.get l = ⟨(n.bus.get l).cur, .high⟩) ∧
      (∀ i, t.bus.get (.a i) = ⟨(n.bus.get (.a i)).cur, .hiZ⟩) ∧
      (∀ i, t.bus.get (.d i) = ⟨(n.bus.get (.d i)).cur, .hiZ⟩) ∧
      (∀ l ∈ [Line.wait, .int, .nmi, .reset, .busrq], t.bus.get l = n.bus.get l)) ∧
    (n.cpu.resetStep = 2 →
      t.cpu = { c with pc := 0x0000#16, far := 0x0000#16, resetStep := 3, nmiPending := false } ∧ t.bus = n.bus) ∧
    (n.cpu.resetStep = 4 →
      t.cpu = { c with sp := 0xFFFF#16, af := 0xFFFF#16, resetStep := 5, nmiPending := false } ∧ t.bus = n.bus) ∧
    (n.cpu.resetStep = 1 ∨ n.cpu.resetStep = 3 ∨ n.cpu.resetStep = 5 →
      t.cpu = { c with resetStep := n.cpu.resetStep + 1, nmiPending := false } ∧ t.bus = n.bus) ∧
    (6 ≤ n.cpu.resetStep → t.cpu = { c with nmiPending := false } ∧ t.bus = n.bus) ∧
    t.clock = n.clock ∧ t.refused = n.refused

/-- A RESET pulse seen by k + 1 CPU ticks: the steps it reaches and no more; from five ticks on AF and SP are 0xFFFF,
from three on PC and FAR are 0; from arbitrary register state; every register the sequence does not name keeps its value
(R45, R307). -/
def Obligations.ResetPulseDoesTheStepsItReaches : Prop :=
  ∀ (X : ExecTable) (mask : Byte) (k : Nat) (n : Node), n.bus.active .reset = true → n.cpu.resetStep = 0 →
    (cpuTicks X mask (k + 1) n).cpu =
      { n.cpu with
        iff1 := false, iff2 := false, im := .im0, mc := .m1, step := .t1h1, pipe := [], iack := false
        halted := false, busGranted := false, nmiPending := false, nmiSampled := n.bus.active .nmi
        resetStep := min (k + 1) 6
        pc := if 3 ≤ k + 1 then 0x0000#16 else n.cpu.pc
        far := if 3 ≤ k + 1 then 0x0000#16 else n.cpu.far
        sp := if 5 ≤ k + 1 then 0xFFFF#16 else n.cpu.sp
        af := if 5 ≤ k + 1 then 0xFFFF#16 else n.cpu.af }

/-- The order RESET, BUS-REQUEST, NMI, INT where two requests meet; a bus that is given away takes the tick from NMI and INT
(R309); and wherever none of the four is both present and eligible, the tick is one phase of normal decode (R181, R182,
R184, R302, R316). c is the CPU after parts (1) and (2) of the tick. -/
def Obligations.OneRequestIsServicedByPriority : Prop :=
  ∀ (X : ExecTable) (mask : Byte) (n : Node),
    let c := (n.cpu.sampleNmi n.bus).normalise
    let t := cpuTick X mask n
    (n.bus.active .reset = true →
      t.cpu.nmiPending = false ∧ t.cpu.resetStep ≠ 0 ∧ (c.iack = false → t.cpu.iack = false) ∧
      (c.busGranted = false → t.cpu.busGranted = false)) ∧
    (n.bus.active .reset = false → n.bus.active .busrq = true → c.busGranted = false → c.step = .t1h1 →
      t.cpu = { c with resetStep := 0, busGranted := true }) ∧
    (n.bus.active .reset = false → n.bus.active .busrq = false → c.busGranted = false → c.nmiPending = true →
      c.atBoundary = true →
      t.cpu =
        { c with
          resetStep := 0, nmiPending := false, halted := false, iff1 := false, sp := c.sp - 1#16, mc := .m2
          pipe := [.mw .sp .pch [.decSP], .mw .sp .pcl [.setPC 0x0066#16]] }) ∧
    (n.bus.active .reset = false → n.bus.active .busrq = false → c.busGranted = false → c.nmiPending = false →
      n.bus.active .int = true → c.iff1 = true → c.atBoundary = true →
      t.cpu = { c with resetStep := 0, halted := false, iff1 := false, iff2 := false, iack := true }) ∧
    (n.bus.active .reset = false → c.busGranted = true →
      t.cpu = { c with resetStep := 0, busGranted := n.bus.active .busrq }) ∧
    (n.bus.active .reset = false → c.busGranted = false → (n.bus.active .busrq = true → c.step ≠ .t1h1) →
      (c.nmiPending = true → c.atBoundary = false) →
      (n.bus.active .int = true → c.iff1 = true → c.atBoundary = false) →
      t = normalDecode X mask { n with cpu := { c with resetStep := 0 } })

/-- NMI is sampled at every CPU tick, whatever else the tick does, and latched only on the change from inactive to
active between two of the CPU's ticks: a line that stays Low is seen once (R310). -/
def Obligations.NmiIsLatchedOncePerChange : Prop :=
  ∀ (mask : Byte) (n : Node),
    let t := cpuTick exec0 mask n
    t.cpu.nmiSampled = n.bus.active .nmi ∧
    (n.bus.active .nmi = false ∨ n.cpu.nmiSampled = true → n.cpu.nmiPending = false → t.cpu.nmiPending = false) ∧
    (n.bus.active .reset = false → n.bus.active .nmi = true → n.cpu.nmiSampled = false →
      n.cpu.normalise.atBoundary = false → t.cpu.nmiPending = true) ∧
    (n.bus.active .reset = false → n.cpu.nmiPending = true → n.cpu.normalise.atBoundary = false →
      t.cpu.nmiPending = true)

/-- NMI entry (R311): what its one tick does, c the CPU after parts (1) to (3) of the tick; and from an instruction
boundary with an NMI pending, a step is the entry and its two write cycles. PC
is saved high byte first, IFF1 is cleared and IFF2 kept, the halt state is left, PC is 0x0066 after 13 half-clocks; R
does not advance. -/
def Obligations.NmiEntrySavesPcAndGoesTo0066 : Prop :=
  (∀ (X : ExecTable) (mask : Byte) (n : Node),
    let c : Cpu := { (n.cpu.sampleNmi n.bus).normalise with resetStep := 0 }
    n.bus.active .reset = false → n.bus.active .busrq = false → c.busGranted = false → c.nmiPending = true →
      c.atBoundary = true →
      cpuTick X mask n =
        { n with
          cpu :=
            { c with
              nmiPending := false, halted := false, iff1 := false, sp := c.sp - 1#16, mc := .m2, step := .t1h1
              pipe := [.mw .sp .pch [.decSP], .mw .sp .pcl [.setPC 0x0066#16]] }
          bus := if c.halted then n.bus.set .halt .high else n.bus }) ∧
  ∀ (s : State) (m : RefMem) (c : Cpu), Rested s m c → c.nmiPending = true →
    ∃ t, step s = .next t ∧
      Completes s t
        ((m.afterWrite (c.sp - 1#16) (hiByte c.pc)).afterWrite (c.sp - 2#16) (loByte c.pc))
        ({ c with
            nmiPending := false, halted := false, iff1 := false, sp := c.sp - 2#16, pc := 0x0066#16 } : Cpu).rested
        13 ∧
      ∀ a, t.peek a =
        if m.decodes a = true ∧ m.writable = true then
          if a = c.sp - 2#16 then loByte c.pc else if a = c.sp - 1#16 then hiByte c.pc else s.peek a
        else s.peek a

/-- INT entry (R315): what its one tick does, c the CPU after parts (1) to (3) of the tick; and from an instruction
boundary a step is the entry, the acknowledge cycle and its completion (R317, R318), here with no device answering the
acknowledge. The byte is then 0x00 (R79), which U4 hedges and log 6 (DEDUCED, unsafe) settles; in mode 0 that is NOP.
Mode 0 leaves PC, mode 1 saves it and goes to 0x0038, mode 2 saves it and takes the word at I ++ 0x00. -/
def Obligations.IntEntryRunsTheAcknowledgeCycle : Prop :=
  (∀ (X : ExecTable) (mask : Byte) (n : Node),
    let c : Cpu := { (n.cpu.sampleNmi n.bus).normalise with resetStep := 0 }
    n.bus.active .reset = false → n.bus.active .busrq = false → c.busGranted = false → c.nmiPending = false →
      n.bus.active .int = true → c.iff1 = true → c.atBoundary = true →
      cpuTick X mask n =
        { n with
          cpu := { c with halted := false, iff1 := false, iff2 := false, iack := true }
          bus := if c.halted then n.bus.set .halt .high else n.bus }) ∧
  ∀ (s : State) (m : RefMem) (c : Cpu), Rested s m c → c.nmiPending = false → c.iff1 = true →
    s.clockTick.bus.active .int = true →
    let entered : Cpu := { c with halted := false, iff1 := false, iff2 := false, ibyte := 0x00#8 }
    let stored := (m.afterWrite (c.sp - 1#16) (hiByte c.pc)).afterWrite (c.sp - 2#16) (loByte c.pc)
    ∃ t, step s = .next t ∧
      (c.im = .im0 → Completes s t m ({ entered with opcode := 0x00#8 } : Cpu).rested 9) ∧
      (c.im = .im1 →
        Completes s t stored ({ entered with sp := c.sp - 2#16, pc := 0x0038#16 } : Cpu).rested 21) ∧
      (c.im = .im2 →
        Completes s t stored
          ({ entered with
              sp := c.sp - 2#16, wz := (c.i ++ 0x00#8) + 1#16
              pc := stored.answer ((c.i ++ 0x00#8) + 1#16) ++ stored.answer (c.i ++ 0x00#8) } : Cpu).rested 33)

/-- The acknowledge cycle: the lines and latches of each phase but the last (R317), and its completion for every supplied
byte (R318): mode 0 dispatches it as an opcode, without an increment of PC; modes 1 and 2 push their micro-ops. -/
def Obligations.AcknowledgeCompletesByMode : Prop :=
  (∀ (X : ExecTable) (mask : Byte) (n : Node), n.cpu.halted = false → n.cpu.mc = .m1 → n.cpu.iack = true →
    let t := normalDecode X mask n
    (n.cpu.step ≠ .t4h2 → n.cpu.step ≠ .done →
      n.bus.Drives t.bus (iackLines n.cpu) ∧ t.clock = n.clock ∧ t.refused = n.refused ∧
      t.cpu =
        { n.cpu with
          ibyte := if n.cpu.step = .t3h2 then n.bus.dataRead else n.cpu.ibyte
          step := if n.cpu.step = .t3h1 ∧ n.bus.active .wait = true then .t3h1 else n.cpu.step.next }) ∧
    (n.cpu.step = .t4h2 → t = iackT4H2 X n)) ∧
  ∀ (n : Node), n.cpu.pipe = [] →
    let t := iackT4H2 exec0 n
    let c : Cpu := { n.cpu with iack := false }
    t.clock = n.clock ∧
    (n.cpu.im = .im0 → ∀ i, decodeInstr [n.cpu.ibyte, 0x00#8, 0x00#8] = some i →
      t.cpu =
        { (entryOf i).imm { c with opcode := n.cpu.ibyte } with
          pipe := (entryOf i).ops, step := .done, mc := .m2 } ∧
      t.bus = if i = .halt ∨ n.cpu.halted = true then n.bus.set .halt .low else n.bus) ∧
    (n.cpu.im = .im0 → rowOf n.cpu.ibyte = none → t.refused = some (.unwiredOpcode n.cpu.ibyte n.cpu.pc)) ∧
    (n.cpu.im = .im1 →
      t.bus = n.bus ∧
      t.cpu =
        { c with
          sp := c.sp - 1#16, step := .done, mc := .m2
          pipe := [.mw .sp .pch [.decSP], .mw .sp .pcl [.setPC 0x0038#16]] }) ∧
    (n.cpu.im = .im2 →
      t.bus = n.bus ∧
      t.cpu =
        { c with
          sp := c.sp - 1#16, wz := c.i ++ c.ibyte, step := .done, mc := .m2
          pipe := [.mw .sp .pch [.decSP], .mw .sp .pcl [], .mr .wz .pcl [.incWZ], .mr .wz .pch []] })

/-- Bus grant, hold and regain (R308, R309). c is the CPU after parts (1) to (3) of the tick. -/
def Obligations.BusIsGrantedHeldAndRegained : Prop :=
  ∀ (X : ExecTable) (mask : Byte) (n : Node), n.bus.active .reset = false →
    let c : Cpu := { (n.cpu.sampleNmi n.bus).normalise with resetStep := 0 }
    let t := cpuTick X mask n
    (c.busGranted = false → n.bus.active .busrq = true → c.step = .t1h1 →
      t.cpu = { c with busGranted := true } ∧ t.clock = n.clock ∧ t.refused = n.refused ∧
      (∀ i, (t.bus.get (.a i)).cur = .hiZ) ∧ (∀ i, (t.bus.get (.d i)).cur = .hiZ) ∧
      (∀ l ∈ [Line.mreq, .rd, .wr, .iorq], (t.bus.get l).cur = .hiZ) ∧ (t.bus.get .busack).cur = .low ∧
      (∀ l ∈ [Line.m1, .rfsh, .halt, .wait, .int, .nmi, .reset, .busrq], t.bus.get l = n.bus.get l)) ∧
    (c.busGranted = true → n.bus.active .busrq = true → t = { n with cpu := c }) ∧
    (c.busGranted = true → n.bus.active .busrq = false →
      t.cpu = { c with busGranted := false } ∧ t.clock = n.clock ∧ t.refused = n.refused ∧
      (∀ l ∈ [Line.mreq, .rd, .wr, .iorq, .busack], (t.bus.get l).cur = .high) ∧
      (∀ i, t.bus.get (.a i) = n.bus.get (.a i)) ∧ (∀ i, t.bus.get (.d i) = n.bus.get (.d i)) ∧
      (∀ l ∈ [Line.m1, .rfsh, .halt, .wait, .int, .nmi, .reset, .busrq], t.bus.get l = n.bus.get l))

/-- The phases of M1, MR and MW (R191 to R197, R210, R215): the lines each drives, what it latches and schedules, where it
goes on; and WAIT: T2_H1 of the three and T3_H1 of the acknowledge cycle repeat while it is active and go on when it is not,
with nothing else changed (R193, R210, R215, R317, R371). The clauses about phases speak of normal decode, which is what a
tick with no request to service is (OneRequestIsServicedByPriority); the clause about WAIT speaks of the whole tick. -/
def Obligations.WaitRepeatsItsPhase : Prop :=
  (∀ (X : ExecTable) (mask : Byte) (n : Node), n.bus.active .reset = false → n.cpu.busGranted = false →
    n.cpu.halted = false →
    (n.cpu.mc = .m1 ∧ n.cpu.iack = false ∧ n.cpu.step = .t2h1) ∨
      (n.cpu.mc = .m1 ∧ n.cpu.iack = true ∧ n.cpu.step = .t3h1) ∨
      (n.cpu.mc ≠ .m1 ∧ n.cpu.pipe ≠ [] ∧ n.cpu.step = .t2h1) →
    cpuTick X mask n =
      { n with
        cpu :=
          { n.cpu.sampleNmi n.bus with
            resetStep := 0
            step := if n.bus.active .wait then n.cpu.step else n.cpu.step.next } }) ∧
  (∀ (X : ExecTable) (mask : Byte) (n : Node), n.cpu.halted = false → n.cpu.mc = .m1 → n.cpu.iack = false →
    let t := normalDecode X mask n
    (n.cpu.step ≠ .t4h2 → n.cpu.step ≠ .done →
      n.bus.Drives t.bus (m1Lines n.cpu) ∧ t.refused = n.refused ∧
      t.clock =
        { n.clock with
          events := n.clock.events ++
            if n.cpu.step = .t3h1 then [⟨max n.clock.counter 0 + 4, .rfshRelease⟩] else [] } ∧
      t.cpu =
        { n.cpu with
          opcode := if n.cpu.step = .t3h1 then n.bus.dataRead else n.cpu.opcode
          r := if n.cpu.step = .t3h2 then (n.cpu.r &&& ~~~mask) ||| ((n.cpu.r + 1#8) &&& mask) else n.cpu.r
          step := if n.cpu.step = .t2h1 ∧ n.bus.active .wait = true then .t2h1 else n.cpu.step.next }) ∧
    (n.cpu.step = .t4h2 →
      t.clock = { n.clock with events := n.clock.events ++ [⟨max n.clock.counter 0 + 1, .pcIncrement⟩] } ∧
      (X n.cpu.opcode = none →
        n.bus.Drives t.bus (m1Lines n.cpu) ∧ t.cpu = n.cpu ∧
        t.refused = some (.unwiredOpcode n.cpu.opcode n.cpu.pc)) ∧
      (∀ e, X n.cpu.opcode = some e → (e.imm n.cpu).pipe = [] → e.ops.length ≤ 5 →
        n.bus.Drives t.bus
          (fun l => if l = .halt ∧ (e.imm n.cpu).halted = true then some .low else m1Lines n.cpu l) ∧
        t.cpu = { e.imm n.cpu with pipe := e.ops, step := .done, mc := .m2 } ∧ t.refused = n.refused))) ∧
  (∀ (X : ExecTable) (mask : Byte) (n : Node) (asel : AddrSel) (dst : Reg8) (post : List PostAction)
    (rest : List MicroOp), n.cpu.halted = false → n.cpu.mc ≠ .m1 → n.cpu.pipe = .mr asel dst post :: rest →
    n.cpu.step ≠ .t4h1 → n.cpu.step ≠ .t4h2 → n.cpu.step ≠ .done →
    let t := normalDecode X mask n
    n.bus.Drives t.bus (mrLines asel n.cpu) ∧ t.clock = n.clock ∧ t.refused = n.refused ∧
    t.cpu =
      if n.cpu.step = .t3h2 then
        { (n.cpu.set8 dst n.bus.dataRead).applyPost post with pipe := rest, step := .done, mc := n.cpu.mc.next }
      else
        { n.cpu with
          step := if n.cpu.step = .t2h1 ∧ n.bus.active .wait = true then .t2h1 else n.cpu.step.next }) ∧
  (∀ (X : ExecTable) (mask : Byte) (n : Node) (asel : AddrSel) (src : Reg8) (post : List PostAction)
    (rest : List MicroOp), n.cpu.halted = false → n.cpu.mc ≠ .m1 → n.cpu.pipe = .mw asel src post :: rest →
    n.cpu.step ≠ .t4h1 → n.cpu.step ≠ .t4h2 → n.cpu.step ≠ .done →
    let t := normalDecode X mask n
    n.bus.Drives t.bus (mwLines asel src n.cpu) ∧ t.clock = n.clock ∧ t.refused = n.refused ∧
    t.cpu =
      if n.cpu.step = .t3h2 then
        { n.cpu.applyPost post with pipe := rest, step := .done, mc := n.cpu.mc.next }
      else
        { n.cpu with
          step := if n.cpu.step = .t2h1 ∧ n.bus.active .wait = true then .t2h1 else n.cpu.step.next })

/-! ## Decoding -/

/-- Decoding the bytes of a well-formed instruction gives it back, with every operand, whatever bytes follow (R90 to
R94). -/
def Obligations.DecodeOfEncodeIsTheInstruction : Prop :=
  ∀ (i : Instr) (rest : List Byte), WellFormed i = true → decode (encode i ++ rest) = .ok (i, rest)

/-- What decodes is a well-formed instruction's bytes: no two byte strings decode to one instruction (R90, R94). -/
def Obligations.EncodeOfDecodeIsTheBytes : Prop :=
  ∀ (bytes rest : List Byte) (i : Instr), decode bytes = .ok (i, rest) →
    WellFormed i = true ∧ bytes = encode i ++ rest

/-- The map wires 26 of the 256 opcode values, each by one row, and EXEC0 has an entry for exactly those (R94, R96,
R101). -/
def Obligations.TwentySixOpcodesAreWired : Prop :=
  ((List.range 256).filter fun b => (rowOf (BitVec.ofNat 8 b)).isSome).length = 26 ∧
  (∀ op : Byte, (exec0 op).isSome = (rowOf op).isSome) ∧
  (∀ op : Byte, (opcodeMap.filter fun r => r.selects op).length ≤ 1)

/-- A few words written out from the encodings of R94 decode to their instructions (R90 to R92, R94). -/
def Obligations.SampleWordsDecode : Prop :=
  decodeInstr [0b00000000#8] = some .nop ∧
  decodeInstr [0b00100001#8, 0x34#8, 0x12#8] = some (.ldDdNn .hl 0x1234#16) ∧
  decodeInstr [0b00111110#8, 0x05#8] = some (.ldAN 0x05#8) ∧
  decodeInstr [0b00111100#8] = some .incA ∧
  decodeInstr [0b11001101#8, 0x10#8, 0x00#8] = some (.callNn 0x0010#16) ∧
  decodeInstr [0b11111111#8] = some (.rstP 0x0038#16) ∧
  decodeInstr [0b01110110#8] = some .halt ∧
  decodeInstr [0b11101101#8] = none

/-- The length of an instruction is 1 plus the micro-ops of its entry whose address source is PC (R93). -/
def Obligations.LengthCountsReadsThroughPc : Prop :=
  ∀ i : Instr,
    i.length =
      1 + ((entryOf i).ops.filter fun u =>
        match u with
        | .mr asel _ _ => asel == .pc
        | .mw asel _ _ => asel == .pc).length

/-- Fetching an unwired opcode refuses the run, with the opcode and its address (R96, R207). -/
def Obligations.UnwiredOpcodeRefusesTheRun : Prop :=
  ∀ (s : State) (m : RefMem) (c : Cpu), AtBoundary s m c → rowOf (s.peek c.pc) = none →
    step s = .refused (.unwiredOpcode (s.peek c.pc) c.pc)

/-! ## The step -/

/-- A step runs the decoded instruction. From an instruction boundary it is the fetch of the opcode, seven board steps
that latch it, increment R and leave every other register, the memory and the rest of the board as they are, and then
exec of the instruction that the bytes at PC decode to; in the state of the fetched opcode it is that exec at once. What
the seven board steps do is the spec's M1; that `step` groups them so and that exec starts at T4_H2 is the model's choice
(DESIGN CHOICE, log 1 and log 2). -/
def Obligations.StepRunsTheDecodedInstruction : Prop :=
  (∀ (s : State) (m : RefMem) (c : Cpu) (i : Instr), AtBoundary s m c →
    decodeInstr [s.peek c.pc, s.peek (c.pc + 1#16), s.peek (c.pc + 2#16)] = some i →
    ∃ t, step s = exec i t ∧ AtDispatch t m ∧
      t.cpu =
        { c with
          opcode := s.peek c.pc, r := refreshIncrement s.params.rIncMask c.r, step := .t4h2, nmiSampled := false
          resetStep := 0 } ∧
      t.clock.counter = s.clock.counter + 7 ∧ t = { s with toNode := t.toNode }) ∧
  (∀ (s : State) (i : Instr), s.dispatching = true → s.currentInstr = some i → step s = exec i s)

/-- On a board on which nothing interferes, a step of the half-clock machine is the instruction's net effect on the
register file and the memory, for every instruction, in exactly its number of half-clocks, and the board is again at
rest (R240 to R247, R260, R270 to R275, R290 to R292, R370). -/
def Obligations.StepRefinesTheNetEffect : Prop :=
  ∀ (s : State) (m : RefMem) (c : Cpu) (i : Instr), AtBoundary s m c →
    decodeInstr [s.peek c.pc, s.peek (c.pc + 1#16), s.peek (c.pc + 2#16)] = some i →
    ∃ t, step s = .next t ∧
      Completes s t (netEffect i (c.fetched s.params.rIncMask (s.peek c.pc)) m).2
        (netEffect i (c.fetched s.params.rIncMask (s.peek c.pc)) m).1.rested (ticksOf i)

/-- A step is a run of board steps of the half-clock machine under EXEC0, at most twice the bound of log 1 of them, on
every board with at most one CPU (R160, R181; `BoardSound` is an invariant, see StepKeepsTheBoardSound). -/
def Obligations.StepIsARunOfBoardSteps : Prop :=
  ∀ s t : State, BoardSound s → step s = .next t → ∃ k, k ≤ 2 * Config.stepBound ∧ runBoard exec0 k s = .next t

/-- A board that carries the refused mark has no next step: both step functions answer the mark's reason. R34 says that
the mark is never cleared and R181 that a tick then has no meaning; that the answer is this refusal is the model's choice
(DEDUCED, log 11). -/
def Obligations.RefusedMarkIsNeverCleared : Prop :=
  ∀ (X : ExecTable) (s : State) (r : Refusal), s.refused = some r →
    boardStep X s = .refused r ∧ step s = .refused r

/-! ## What every step keeps -/

/-- Memory contents stay canonical and in range (R75, R77, log 5). -/
def Obligations.StepKeepsMemoriesSound : Prop :=
  ∀ s t : State, MemoriesSound s → step s = .next t → MemoriesSound t

/-- The cursor, the pipeline and the latches stay in agreement (R183 to R186, R202). -/
def Obligations.StepKeepsTheCursorSound : Prop :=
  ∀ s t : State, CursorSound s.cpu → step s = .next t → CursorSound t.cpu

/-- The depth of the pipeline is never exceeded under EXEC0 (R200, R202). -/
def Obligations.PipelineNeverOverflows : Prop :=
  ∀ s : State, CursorSound s.cpu → s.refused = none → step s ≠ .refused .pipelineOverflow

/-- The device list stays sorted, its names distinct, its CPU the only one and its memories apart (R78, R152). -/
def Obligations.StepKeepsTheBoardSound : Prop :=
  ∀ s t : State, BoardSound s → step s = .next t → BoardSound t

/-- The invariants hold at reset. -/
def Obligations.ResetMeetsTheInvariants : Prop :=
  MemoriesSound State.reset ∧ CursorSound State.reset.cpu ∧ BoardSound State.reset

/-- Under EXEC0 the interrupt mode stays 0 once it is 0 (R26, R98). -/
def Obligations.InterruptModeStaysZero : Prop :=
  ∀ s t : State, s.cpu.im = .im0 → step s = .next t → t.cpu.im = .im0

/-- Without a Reset request and a new device nothing writes IX, IY or I, and FAR is only ever zeroed (R22, R30, R98). -/
def Obligations.StepLeavesIxIyAndI : Prop :=
  ∀ s t : State, NoRebuild s → step s = .next t →
    t.cpu.ix = s.cpu.ix ∧ t.cpu.iy = s.cpu.iy ∧ t.cpu.i = s.cpu.i ∧ (t.cpu.far = s.cpu.far ∨ t.cpu.far = 0x0000#16)

/-- A quiescent board changes only the counter and the devices' last values (R173). The premises after `Quiescent` are
this model's: they rule out states in which an NMI was latched, the bus given away or a memory left driving, and boards
with other devices, of which R173 says nothing. -/
def Obligations.QuiescentBoardStaysAsItIs : Prop :=
  ∀ (X : ExecTable) (s : State), Quiescent s → s.refused = none → CursorSound s.cpu → s.cpu.step ≠ .done →
    s.cpu.nmiPending = false → s.cpu.nmiSampled = false → s.cpu.busGranted = false → s.cpu.resetStep = 0 →
    s.bus.active .rd = false → s.bus.active .wr = false →
    (∀ d ∈ s.devices, d.kind = .cpu ∨ ∃ m, d.kind = .refMem m ∧ m.driving = false) →
    ∃ t, boardStep X s = .next t ∧ Quiescent t ∧
      t = { s with clock := ⟨s.clock.counter + 1, []⟩, devices := t.devices } ∧
      t.devices.map (fun d => { d with last := none }) = s.devices.map (fun d => { d with last := none })
end

