-- ==== Sys2Proof/Laws/Bus.lean ====
section
/-!
SUPPORT. What the signal-bus operations do, seen through the observers: the slots of a line, `active`, and the words
the address and data lines carry. Later proofs cite these and never unfold the bus.
-/
namespace Sys2Proof.Machine

/-- The control lines: ids 24 to 36 (R112). -/
def Line.control : Line → Bool
  | .a _ => false
  | .d _ => false
  | .m1 => true
  | .mreq => true
  | .iorq => true
  | .rd => true
  | .wr => true
  | .rfsh => true
  | .halt => true
  | .wait => true
  | .int => true
  | .nmi => true
  | .reset => true
  | .busrq => true
  | .busack => true


section Words
variable {n : Nat}

@[simp] theorem wordOf_levelsOf (v : BitVec n) : wordOf (levelsOf v) = v := by
  ext i h
  cases hb : v[i] <;> simp [wordOf, levelsOf, hb]

@[simp] theorem wordOf_released : wordOf (Vector.replicate n Level.hiZ) = 0#n := by
  ext i h
  simp [wordOf]

@[simp] theorem WordLines.read_write (g : WordLines n) (v : BitVec n) : (g.write v).read = v := by
  simp [WordLines.read, WordLines.write]

@[simp] theorem WordLines.read_release (g : WordLines n) : g.release.read = 0#n := by
  simp [WordLines.read, WordLines.release]

theorem WordLines.get_set (g : WordLines n) (i j : Fin n) (v : Level) :
    (g.set i v).get j = if j = i then ⟨(g.get i).cur, v⟩ else g.get j := by
  obtain ⟨i, hi⟩ := i
  obtain ⟨j, hj⟩ := j
  by_cases h : i = j
  · subst h; simp [WordLines.set, WordLines.get]
  · have h' : ¬ j = i := fun e => h e.symm
    simp [WordLines.set, WordLines.get, h, h']

@[simp] theorem WordLines.get_write (g : WordLines n) (v : BitVec n) (i : Fin n) :
    (g.write v).get i = ⟨(g.get i).cur, if v.getLsbD i then .high else .low⟩ := by
  simp [WordLines.get, WordLines.write, levelsOf]

@[simp] theorem WordLines.get_release (g : WordLines n) (i : Fin n) :
    g.release.get i = ⟨(g.get i).cur, .hiZ⟩ := by
  simp [WordLines.get, WordLines.release]

/-- Two words' lines with the same slots are the same. -/
theorem WordLines.ext_get {g h : WordLines n} (e : ∀ i, g.get i = h.get i) : g = h := by
  obtain ⟨gp, gc⟩ := g
  obtain ⟨hp, hc⟩ := h
  have hp' : gp = hp := by
    ext i hi
    exact congrArg Signal.prev (e ⟨i, hi⟩)
  have hc' : gc = hc := by
    ext i hi
    exact congrArg Signal.cur (e ⟨i, hi⟩)
  rw [hp', hc']

end Words

section Lines
variable (b : Bus) (l l' : Line) (v : Level) (w : Word) (x : Byte)

/-- set writes one line and shifts its slots; every other line is as it was (R110). -/
theorem Bus.get_set : (b.set l v).get l' = if l' = l then ⟨(b.get l).cur, v⟩ else b.get l' := by
  cases l <;> cases l' <;>
    first | rfl | simp [Bus.set, Bus.get, WordLines.get_set]

@[simp] theorem Bus.active_set : (b.set l v).active l' = if l' = l then v == .low else b.active l' := by
  unfold Bus.active Bus.activeAt
  rw [Bus.get_set]
  split <;> rfl

theorem Bus.get_addrWrite (h : l.control = true) : (b.addrWrite w).get l = b.get l := by
  cases l <;> first | rfl | simp [Line.control] at h
theorem Bus.get_addrRelease (h : l.control = true) : b.addrRelease.get l = b.get l := by
  cases l <;> first | rfl | simp [Line.control] at h
theorem Bus.get_dataWrite (h : l.control = true) : (b.dataWrite x).get l = b.get l := by
  cases l <;> first | rfl | simp [Line.control] at h
theorem Bus.get_dataRelease (h : l.control = true) : b.dataRelease.get l = b.get l := by
  cases l <;> first | rfl | simp [Line.control] at h

@[simp] theorem Bus.active_addrWrite_m1 : (b.addrWrite w).active .m1 = b.active .m1 := rfl
@[simp] theorem Bus.active_addrWrite_mreq : (b.addrWrite w).active .mreq = b.active .mreq := rfl
@[simp] theorem Bus.active_addrWrite_iorq : (b.addrWrite w).active .iorq = b.active .iorq := rfl
@[simp] theorem Bus.active_addrWrite_rd : (b.addrWrite w).active .rd = b.active .rd := rfl
@[simp] theorem Bus.active_addrWrite_wr : (b.addrWrite w).active .wr = b.active .wr := rfl
@[simp] theorem Bus.active_addrWrite_rfsh : (b.addrWrite w).active .rfsh = b.active .rfsh := rfl
@[simp] theorem Bus.active_addrWrite_halt : (b.addrWrite w).active .halt = b.active .halt := rfl
@[simp] theorem Bus.active_addrWrite_wait : (b.addrWrite w).active .wait = b.active .wait := rfl
@[simp] theorem Bus.active_addrWrite_int : (b.addrWrite w).active .int = b.active .int := rfl
@[simp] theorem Bus.active_addrWrite_nmi : (b.addrWrite w).active .nmi = b.active .nmi := rfl
@[simp] theorem Bus.active_addrWrite_reset : (b.addrWrite w).active .reset = b.active .reset := rfl
@[simp] theorem Bus.active_addrWrite_busrq : (b.addrWrite w).active .busrq = b.active .busrq := rfl
@[simp] theorem Bus.active_addrWrite_busack : (b.addrWrite w).active .busack = b.active .busack := rfl
@[simp] theorem Bus.active_addrRelease_m1 : b.addrRelease.active .m1 = b.active .m1 := rfl
@[simp] theorem Bus.active_addrRelease_mreq : b.addrRelease.active .mreq = b.active .mreq := rfl
@[simp] theorem Bus.active_addrRelease_iorq : b.addrRelease.active .iorq = b.active .iorq := rfl
@[simp] theorem Bus.active_addrRelease_rd : b.addrRelease.active .rd = b.active .rd := rfl
@[simp] theorem Bus.active_addrRelease_wr : b.addrRelease.active .wr = b.active .wr := rfl
@[simp] theorem Bus.active_addrRelease_rfsh : b.addrRelease.active .rfsh = b.active .rfsh := rfl
@[simp] theorem Bus.active_addrRelease_halt : b.addrRelease.active .halt = b.active .halt := rfl
@[simp] theorem Bus.active_addrRelease_wait : b.addrRelease.active .wait = b.active .wait := rfl
@[simp] theorem Bus.active_addrRelease_int : b.addrRelease.active .int = b.active .int := rfl
@[simp] theorem Bus.active_addrRelease_nmi : b.addrRelease.active .nmi = b.active .nmi := rfl
@[simp] theorem Bus.active_addrRelease_reset : b.addrRelease.active .reset = b.active .reset := rfl
@[simp] theorem Bus.active_addrRelease_busrq : b.addrRelease.active .busrq = b.active .busrq := rfl
@[simp] theorem Bus.active_addrRelease_busack : b.addrRelease.active .busack = b.active .busack := rfl
@[simp] theorem Bus.active_dataWrite_m1 : (b.dataWrite x).active .m1 = b.active .m1 := rfl
@[simp] theorem Bus.active_dataWrite_mreq : (b.dataWrite x).active .mreq = b.active .mreq := rfl
@[simp] theorem Bus.active_dataWrite_iorq : (b.dataWrite x).active .iorq = b.active .iorq := rfl
@[simp] theorem Bus.active_dataWrite_rd : (b.dataWrite x).active .rd = b.active .rd := rfl
@[simp] theorem Bus.active_dataWrite_wr : (b.dataWrite x).active .wr = b.active .wr := rfl
@[simp] theorem Bus.active_dataWrite_rfsh : (b.dataWrite x).active .rfsh = b.active .rfsh := rfl
@[simp] theorem Bus.active_dataWrite_halt : (b.dataWrite x).active .halt = b.active .halt := rfl
@[simp] theorem Bus.active_dataWrite_wait : (b.dataWrite x).active .wait = b.active .wait := rfl
@[simp] theorem Bus.active_dataWrite_int : (b.dataWrite x).active .int = b.active .int := rfl
@[simp] theorem Bus.active_dataWrite_nmi : (b.dataWrite x).active .nmi = b.active .nmi := rfl
@[simp] theorem Bus.active_dataWrite_reset : (b.dataWrite x).active .reset = b.active .reset := rfl
@[simp] theorem Bus.active_dataWrite_busrq : (b.dataWrite x).active .busrq = b.active .busrq := rfl
@[simp] theorem Bus.active_dataWrite_busack : (b.dataWrite x).active .busack = b.active .busack := rfl
@[simp] theorem Bus.active_dataRelease_m1 : b.dataRelease.active .m1 = b.active .m1 := rfl
@[simp] theorem Bus.active_dataRelease_mreq : b.dataRelease.active .mreq = b.active .mreq := rfl
@[simp] theorem Bus.active_dataRelease_iorq : b.dataRelease.active .iorq = b.active .iorq := rfl
@[simp] theorem Bus.active_dataRelease_rd : b.dataRelease.active .rd = b.active .rd := rfl
@[simp] theorem Bus.active_dataRelease_wr : b.dataRelease.active .wr = b.active .wr := rfl
@[simp] theorem Bus.active_dataRelease_rfsh : b.dataRelease.active .rfsh = b.active .rfsh := rfl
@[simp] theorem Bus.active_dataRelease_halt : b.dataRelease.active .halt = b.active .halt := rfl
@[simp] theorem Bus.active_dataRelease_wait : b.dataRelease.active .wait = b.active .wait := rfl
@[simp] theorem Bus.active_dataRelease_int : b.dataRelease.active .int = b.active .int := rfl
@[simp] theorem Bus.active_dataRelease_nmi : b.dataRelease.active .nmi = b.active .nmi := rfl
@[simp] theorem Bus.active_dataRelease_reset : b.dataRelease.active .reset = b.active .reset := rfl
@[simp] theorem Bus.active_dataRelease_busrq : b.dataRelease.active .busrq = b.active .busrq := rfl
@[simp] theorem Bus.active_dataRelease_busack : b.dataRelease.active .busack = b.active .busack := rfl
@[simp] theorem Bus.addrRead_set_m1 : (b.set .m1 v).addrRead = b.addrRead := rfl
@[simp] theorem Bus.addrRead_set_mreq : (b.set .mreq v).addrRead = b.addrRead := rfl
@[simp] theorem Bus.addrRead_set_iorq : (b.set .iorq v).addrRead = b.addrRead := rfl
@[simp] theorem Bus.addrRead_set_rd : (b.set .rd v).addrRead = b.addrRead := rfl
@[simp] theorem Bus.addrRead_set_wr : (b.set .wr v).addrRead = b.addrRead := rfl
@[simp] theorem Bus.addrRead_set_rfsh : (b.set .rfsh v).addrRead = b.addrRead := rfl
@[simp] theorem Bus.addrRead_set_halt : (b.set .halt v).addrRead = b.addrRead := rfl
@[simp] theorem Bus.addrRead_set_wait : (b.set .wait v).addrRead = b.addrRead := rfl
@[simp] theorem Bus.addrRead_set_int : (b.set .int v).addrRead = b.addrRead := rfl
@[simp] theorem Bus.addrRead_set_nmi : (b.set .nmi v).addrRead = b.addrRead := rfl
@[simp] theorem Bus.addrRead_set_reset : (b.set .reset v).addrRead = b.addrRead := rfl
@[simp] theorem Bus.addrRead_set_busrq : (b.set .busrq v).addrRead = b.addrRead := rfl
@[simp] theorem Bus.addrRead_set_busack : (b.set .busack v).addrRead = b.addrRead := rfl
@[simp] theorem Bus.dataRead_set_m1 : (b.set .m1 v).dataRead = b.dataRead := rfl
@[simp] theorem Bus.dataRead_set_mreq : (b.set .mreq v).dataRead = b.dataRead := rfl
@[simp] theorem Bus.dataRead_set_iorq : (b.set .iorq v).dataRead = b.dataRead := rfl
@[simp] theorem Bus.dataRead_set_rd : (b.set .rd v).dataRead = b.dataRead := rfl
@[simp] theorem Bus.dataRead_set_wr : (b.set .wr v).dataRead = b.dataRead := rfl
@[simp] theorem Bus.dataRead_set_rfsh : (b.set .rfsh v).dataRead = b.dataRead := rfl
@[simp] theorem Bus.dataRead_set_halt : (b.set .halt v).dataRead = b.dataRead := rfl
@[simp] theorem Bus.dataRead_set_wait : (b.set .wait v).dataRead = b.dataRead := rfl
@[simp] theorem Bus.dataRead_set_int : (b.set .int v).dataRead = b.dataRead := rfl
@[simp] theorem Bus.dataRead_set_nmi : (b.set .nmi v).dataRead = b.dataRead := rfl
@[simp] theorem Bus.dataRead_set_reset : (b.set .reset v).dataRead = b.dataRead := rfl
@[simp] theorem Bus.dataRead_set_busrq : (b.set .busrq v).dataRead = b.dataRead := rfl
@[simp] theorem Bus.dataRead_set_busack : (b.set .busack v).dataRead = b.dataRead := rfl

@[simp] theorem Bus.addrRead_addrWrite : (b.addrWrite w).addrRead = w := by
  simp [Bus.addrRead, Bus.addrWrite]
@[simp] theorem Bus.addrRead_addrRelease : b.addrRelease.addrRead = 0#16 := by
  simp [Bus.addrRead, Bus.addrRelease]
@[simp] theorem Bus.addrRead_dataWrite : (b.dataWrite x).addrRead = b.addrRead := rfl
@[simp] theorem Bus.addrRead_dataRelease : b.dataRelease.addrRead = b.addrRead := rfl

@[simp] theorem Bus.dataRead_dataWrite : (b.dataWrite x).dataRead = x := by
  simp [Bus.dataRead, Bus.dataWrite]
@[simp] theorem Bus.dataRead_dataRelease : b.dataRelease.dataRead = 0#8 := by
  simp [Bus.dataRead, Bus.dataRelease]
@[simp] theorem Bus.dataRead_addrWrite : (b.addrWrite w).dataRead = b.dataRead := rfl
@[simp] theorem Bus.dataRead_addrRelease : b.addrRelease.dataRead = b.dataRead := rfl

end Lines

end Sys2Proof.Machine
end

