-- ==== Sys2Proof/Laws/Clock.lean ====
section
/-!
SUPPORT. What clock.tick() does (R131): the counter, the events that stay, and what a tick can change of the CPU.
-/
namespace Sys2Proof.Machine

@[simp] theorem Node.setLine_cpu (n : Node) (l : Line) (v : Level) : (n.setLine l v).cpu = n.cpu := rfl
@[simp] theorem Node.setLine_clock (n : Node) (l : Line) (v : Level) : (n.setLine l v).clock = n.clock := rfl
@[simp] theorem Node.setLine_refused (n : Node) (l : Line) (v : Level) : (n.setLine l v).refused = n.refused := rfl
@[simp] theorem Node.setLine_bus (n : Node) (l : Line) (v : Level) : (n.setLine l v).bus = n.bus.set l v := rfl

/-- An event's action changes no register but PC, and no latch (R38, R47). -/
theorem Action.perform_cpu (a : Action) (n : Node) :
    (a.perform n).cpu = { n.cpu with pc := (a.perform n).cpu.pc } := by
  cases a with
  | rfshRelease => rfl
  | pcIncrement => rfl
  | external a => cases a <;> rfl

@[simp] theorem Action.perform_refused (a : Action) (n : Node) : (a.perform n).refused = n.refused := by
  cases a with
  | rfshRelease => rfl
  | pcIncrement => rfl
  | external a => cases a <;> rfl

@[simp] theorem Action.perform_counter (a : Action) (n : Node) :
    (a.perform n).clock.counter = n.clock.counter := by
  cases a with
  | rfshRelease => rfl
  | pcIncrement => rfl
  | external a => cases a <;> rfl

section Fold
variable (es : List Event) (n : Node)

theorem foldl_perform_cpu :
    (es.foldl (fun n e => e.action.perform n) n).cpu =
      { n.cpu with pc := (es.foldl (fun n e => e.action.perform n) n).cpu.pc } := by
  induction es generalizing n with
  | nil => rfl
  | cons e es ih =>
    simp only [List.foldl_cons]
    rw [ih (e.action.perform n), Action.perform_cpu]

theorem foldl_perform_refused : (es.foldl (fun n e => e.action.perform n) n).refused = n.refused := by
  induction es generalizing n with
  | nil => rfl
  | cons e es ih => simp only [List.foldl_cons]; rw [ih]; exact Action.perform_refused _ _

theorem foldl_perform_counter :
    (es.foldl (fun n e => e.action.perform n) n).clock.counter = n.clock.counter := by
  induction es generalizing n with
  | nil => rfl
  | cons e es ih => simp only [List.foldl_cons]; rw [ih]; exact Action.perform_counter _ _

end Fold

/-- tick() changes no register but PC, and no latch (R38, R47, R131). -/
theorem Node.clockTick_cpu (n : Node) : n.clockTick.cpu = { n.cpu with pc := n.clockTick.cpu.pc } :=
  foldl_perform_cpu _ _

@[simp] theorem Node.clockTick_refused (n : Node) : n.clockTick.refused = n.refused := foldl_perform_refused _ _

/-- tick() advances the counter by one (R131, R138). -/
@[simp] theorem Node.clockTick_counter (n : Node) : n.clockTick.clock.counter = n.clock.counter + 1 :=
  foldl_perform_counter _ _

/-- Being at rest does not depend on PC, so tick() does not change it. -/
@[simp] theorem Node.clockTick_atRest (n : Node) : n.clockTick.cpu.atRest = n.cpu.atRest := by
  rw [Node.clockTick_cpu]
  rfl

/-- Without events tick() only counts. -/
theorem Node.clockTick_of_no_events {n : Node} (h : n.clock.events = []) :
    n.clockTick = { n with clock := { counter := n.clock.counter + 1, events := [] } } := by
  simp [Node.clockTick, Clock.due, Clock.advance, h]

end Sys2Proof.Machine
end

