-- ==== Sys2Proof/Laws/Memory.lean ====
section
/-!
SUPPORT. Memory contents: a read after a write, the canonical form is kept, equal contents are equal data.
-/
namespace Sys2Proof.Machine

theorem Memory.wfFrom_mono {lo lo' : Nat} (h : lo' ≤ lo) :
    ∀ {m : Memory}, Memory.wfFrom lo m = true → Memory.wfFrom lo' m = true
  | [], _ => rfl
  | (k, v) :: t, hm => by
    simp only [Memory.wfFrom, Bool.and_eq_true, decide_eq_true_eq] at hm ⊢
    exact ⟨⟨le_trans h hm.1.1, hm.1.2⟩, hm.2⟩

/-- Below the first address of a canonical memory nothing is listed. -/
theorem Memory.read_below {a : Nat} :
    ∀ {lo : Nat} {m : Memory}, Memory.wfFrom lo m = true → a < lo → Memory.read m a = 0x00#8
  | _, [], _, _ => rfl
  | lo, (k, v) :: t, hm, h => by
    simp only [Memory.wfFrom, Bool.and_eq_true, decide_eq_true_eq] at hm
    have hk : ¬ k = a := by omega
    simp only [Memory.read, hk, if_false]
    exact Memory.read_below hm.2 (by omega)

theorem Memory.wfFrom_consCell {lo a : Nat} {v : Byte} {m : Memory} (h : lo ≤ a)
    (hm : Memory.wfFrom (a + 1) m = true) : Memory.wfFrom lo (Memory.consCell a v m) = true := by
  unfold Memory.consCell
  split
  · exact Memory.wfFrom_mono (by omega) hm
  · rename_i hv
    simp only [Memory.wfFrom, Bool.and_eq_true, decide_eq_true_eq]
    exact ⟨⟨h, by simpa using hv⟩, hm⟩

theorem Memory.wfFrom_write {a : Nat} {v : Byte} :
    ∀ {lo : Nat} {m : Memory}, lo ≤ a → Memory.wfFrom lo m = true → Memory.wfFrom lo (Memory.write m a v) = true
  | lo, [], h, _ => Memory.wfFrom_consCell h rfl
  | lo, (k, w) :: t, h, hm => by
    simp only [Memory.wfFrom, Bool.and_eq_true, decide_eq_true_eq] at hm
    unfold Memory.write
    split
    · rename_i hak
      refine Memory.wfFrom_consCell h ?_
      simp only [Memory.wfFrom, Bool.and_eq_true, decide_eq_true_eq]
      exact ⟨⟨by omega, hm.1.2⟩, hm.2⟩
    · split
      · rename_i hak
        subst hak
        exact Memory.wfFrom_consCell h hm.2
      · simp only [Memory.wfFrom, Bool.and_eq_true, decide_eq_true_eq]
        exact ⟨hm.1, Memory.wfFrom_write (by omega) hm.2⟩

/-- A write keeps the canonical form. -/
theorem Memory.wf_write {m : Memory} (a : Nat) (v : Byte) (hm : Memory.wf m = true) :
    Memory.wf (Memory.write m a v) = true :=
  Memory.wfFrom_write (Nat.zero_le a) hm

theorem Memory.read_consCell {a b : Nat} {v : Byte} {m : Memory} (hm : Memory.wfFrom (a + 1) m = true) :
    Memory.read (Memory.consCell a v m) b = if b = a then v else Memory.read m b := by
  unfold Memory.consCell
  split
  · rename_i hv
    split
    · rename_i hb
      subst hb
      rw [hv]
      exact Memory.read_below hm (by omega)
    · rfl
  · simp only [Memory.read]
    by_cases h : b = a
    · simp [h]
    · have h' : ¬ a = b := fun e => h e.symm
      simp [h, h']

theorem Memory.read_writeFrom {a b : Nat} {v : Byte} :
    ∀ {lo : Nat} {m : Memory}, Memory.wfFrom lo m = true →
      Memory.read (Memory.write m a v) b = if b = a then v else Memory.read m b
  | _, [], _ => Memory.read_consCell (m := []) rfl
  | lo, (k, w) :: t, hm => by
    simp only [Memory.wfFrom, Bool.and_eq_true, decide_eq_true_eq] at hm
    unfold Memory.write
    split
    · rename_i hak
      refine Memory.read_consCell ?_
      simp only [Memory.wfFrom, Bool.and_eq_true, decide_eq_true_eq]
      exact ⟨⟨by omega, hm.1.2⟩, hm.2⟩
    · split
      · rename_i hak
        subst hak
        rw [Memory.read_consCell hm.2]
        by_cases h : b = a
        · simp [h]
        · have h' : ¬ a = b := fun e => h e.symm
          simp [h, h', Memory.read]
      · rename_i h1 h2
        simp only [Memory.read]
        rw [Memory.read_writeFrom hm.2]
        by_cases hkb : k = b
        · have hba : ¬ b = a := by omega
          simp [hkb, hba]
        · simp [hkb]

/-- A read after a write: the written byte at its address, every other byte as it was. -/
theorem Memory.read_write {m : Memory} (hm : Memory.wf m = true) (a b : Nat) (v : Byte) :
    Memory.read (Memory.write m a v) b = if b = a then v else Memory.read m b :=
  Memory.read_writeFrom hm

/-- Writing the same byte again changes nothing. -/
theorem Memory.write_consCell {a : Nat} {v : Byte} {t : Memory} (h : Memory.wfFrom (a + 1) t = true) :
    Memory.write (Memory.consCell a v t) a v = Memory.consCell a v t := by
  by_cases hv : v = 0x00#8
  · simp only [Memory.consCell, hv, if_true]
    cases t with
    | nil => rfl
    | cons c t =>
      simp only [Memory.wfFrom, Bool.and_eq_true, decide_eq_true_eq] at h
      have hk : a < c.1 := by omega
      simp [Memory.write, Memory.consCell, hk]
  · simp [Memory.consCell, hv, Memory.write]

theorem Memory.write_writeFrom {a : Nat} {v : Byte} :
    ∀ {lo : Nat} {m : Memory}, Memory.wfFrom lo m = true →
      Memory.write (Memory.write m a v) a v = Memory.write m a v
  | _, [], _ => Memory.write_consCell (t := []) rfl
  | lo, (k, w) :: t, h => by
    have h' := h
    simp only [Memory.wfFrom, Bool.and_eq_true, decide_eq_true_eq] at h
    by_cases h1 : a < k
    · simp only [Memory.write, h1, if_true]
      refine Memory.write_consCell (t := (k, w) :: t) ?_
      simp only [Memory.wfFrom, Bool.and_eq_true, decide_eq_true_eq]
      exact ⟨⟨by omega, h.1.2⟩, h.2⟩
    · by_cases h2 : a = k
      · simp only [Memory.write, h2, if_true, if_false, lt_irrefl]
        exact Memory.write_consCell h.2
      · simp only [Memory.write, h1, h2, if_false]
        rw [Memory.write_writeFrom h.2]

theorem Memory.write_write {m : Memory} (hm : Memory.wf m = true) (a : Nat) (v : Byte) :
    Memory.write (Memory.write m a v) a v = Memory.write m a v := Memory.write_writeFrom hm

/-- A write lists no address but its own that was not listed. -/
theorem Memory.mem_write {a : Nat} {v : Byte} {c : Host.Cell} :
    ∀ {m : Memory}, c ∈ Memory.write m a v → c.1 = a ∨ c ∈ m
  | [], h => by
    simp only [Memory.write, Memory.consCell] at h
    split at h
    · exact .inr h
    · simp only [List.mem_singleton] at h
      exact .inl (by rw [h])
  | (k, w) :: t, h => by
    simp only [Memory.write, Memory.consCell] at h
    split_ifs at h with h1 h2 h3 h4
    · exact .inr h
    · rcases List.mem_cons.mp h with h | h
      · exact .inl (by rw [h])
      · exact .inr h
    · exact .inr (List.mem_cons_of_mem _ h)
    · rcases List.mem_cons.mp h with h | h
      · exact .inl (by rw [h])
      · exact .inr (List.mem_cons_of_mem _ h)
    · rcases List.mem_cons.mp h with h | h
      · exact .inr (by rw [h]; exact List.mem_cons_self)
      · rcases Memory.mem_write h with h | h
        · exact .inl h
        · exact .inr (List.mem_cons_of_mem _ h)

@[simp] theorem RefMem.store_base (m : RefMem) (a : Word) (v : Byte) : (m.store a v).base = m.base := rfl
@[simp] theorem RefMem.store_size (m : RefMem) (a : Word) (v : Byte) : (m.store a v).size = m.size := rfl
@[simp] theorem RefMem.store_writable (m : RefMem) (a : Word) (v : Byte) : (m.store a v).writable = m.writable := rfl
@[simp] theorem RefMem.store_driving (m : RefMem) (a : Word) (v : Byte) : (m.store a v).driving = m.driving := rfl
@[simp] theorem RefMem.decodes_store (m : RefMem) (a b : Word) (v : Byte) :
    (m.store a v).decodes b = m.decodes b := rfl

/-- The byte of a device after a store into it. -/
theorem RefMem.byteAt_store {m : RefMem} (hm : Memory.wf m.bytes = true) (a b : Word) (v : Byte) :
    (m.store a v).byteAt b = if b = a then v else m.byteAt b := by
  unfold RefMem.byteAt RefMem.store
  rw [Memory.read_write hm]
  by_cases h : b = a
  · simp [h]
  · have h' : ¬ b.toNat = a.toNat := fun e => h (BitVec.eq_of_toNat_eq e)
    simp [h, h']

/-- A store keeps the canonical form of the contents. -/
theorem RefMem.wf_store {m : RefMem} (a : Word) (v : Byte) (hm : Memory.wf m.bytes = true) :
    Memory.wf (m.store a v).bytes = true :=
  Memory.wf_write _ _ hm

theorem RefMem.store_store {m : RefMem} (hm : Memory.wf m.bytes = true) (a : Word) (v : Byte) :
    (m.store a v).store a v = m.store a v := by
  simp [RefMem.store, Memory.write_write hm]

/-- A store to an address the device decodes keeps its contents in its range and in canonical form. -/
theorem RefMem.wf_store_decodes {m : RefMem} {a : Word} (v : Byte) (hm : m.wf = true) (ha : m.decodes a = true) :
    (m.store a v).wf = true := by
  simp only [RefMem.wf, RefMem.decodes, RefMem.store, Bool.and_eq_true, List.all_eq_true] at hm ha ⊢
  obtain ⟨⟨⟨h1, h2⟩, h3⟩, h4⟩ := hm
  refine ⟨⟨⟨h1, h2⟩, Memory.wf_write _ _ h3⟩, fun c hc => ?_⟩
  rcases Memory.mem_write hc with h | h
  · rw [h]; exact ha
  · exact h4 c h

theorem RefMem.wf_canonical {m : RefMem} (hm : m.wf = true) : Memory.wf m.bytes = true := by
  simp only [RefMem.wf, Bool.and_eq_true] at hm
  exact hm.1.2

/-- The device's tick keeps its contents in its range and in canonical form (R76, R77). -/
theorem RefMem.wf_tick_range {m : RefMem} (b : Bus) (hm : m.wf = true) : (m.tick b).1.wf = true := by
  have h1 : (m.driveOrRelease b).1.wf = true := by
    unfold RefMem.driveOrRelease
    split_ifs <;> exact hm
  simp only [RefMem.tick, RefMem.takeWrite]
  split
  · rename_i hs
    refine RefMem.wf_store_decodes _ h1 ?_
    simp only [RefMem.selectedForWrite, Bool.and_eq_true] at hs
    exact hs.1.2
  · exact h1

/-- reset() keeps it (R44, R82). -/
theorem RefMem.wf_reset_range {m : RefMem} (clears : Bool) (hm : m.wf = true) : (m.reset clears).wf = true := by
  cases clears
  · exact hm
  · simp only [RefMem.wf, Bool.and_eq_true] at hm
    simp [RefMem.wf, RefMem.reset, Memory.wf, Memory.wfFrom]
    simpa using hm.1.1

/-- The device's tick keeps the canonical form of the contents (R76, R77). -/
theorem RefMem.wf_tick {m : RefMem} (b : Bus) (hm : Memory.wf m.bytes = true) :
    Memory.wf (m.tick b).1.bytes = true := by
  simp only [RefMem.tick, RefMem.takeWrite, RefMem.driveOrRelease]
  split_ifs <;> first | exact hm | exact Memory.wf_write _ _ hm

/-- reset() keeps it (R44, R82). -/
theorem RefMem.wf_reset {m : RefMem} (clears : Bool) (hm : Memory.wf m.bytes = true) :
    Memory.wf (m.reset clears).bytes = true := by
  cases clears
  · exact hm
  · rfl

/-- A load from outside keeps it (log 4). -/
theorem Memory.wf_poke {d : Device} (a : Word) (v : Byte)
    (hd : ∀ m, d.kind = .refMem m → Memory.wf m.bytes = true) :
    ∀ m, (pokeDevice a v d).kind = .refMem m → Memory.wf m.bytes = true := by
  intro m hm
  unfold pokeDevice at hm
  cases hk : d.kind with
  | cpu => simp [hk] at hm
  | external ty sc => simp [hk] at hm
  | refMem m₀ =>
    simp only [hk] at hm
    split at hm
    · obtain rfl : m₀.store a v = m := by simpa using hm
      exact RefMem.wf_store a v (hd m₀ hk)
    · exact hd m hm

end Sys2Proof.Machine
end

