-- ==== Sys2Proof/Laws/Run.lean ====
section
/-!
SUPPORT. Running an undisturbed reference board: one board step as one CPU tick and one memory tick, seen from just
after clock.tick() of one step to just after that of the next.
-/
namespace Sys2Proof.Machine

/-- The CPU's tick, then the reference memory's, in one board step (R160). -/
def cpuThenMemory (X : ExecTable) (mask : Byte) (p : Node × RefMem) : Node × RefMem :=
  ({ cpuTick X mask p.1 with bus := (p.2.tick (cpuTick X mask p.1).bus).2 }, (p.2.tick (cpuTick X mask p.1).bus).1)

/-- From just after clock.tick() of a step to just after clock.tick() of the next. -/
def rotate (X : ExecTable) (mask : Byte) (p : Node × RefMem) : Node × RefMem :=
  ((cpuThenMemory X mask p).1.clockTick, (cpuThenMemory X mask p).2)

/-- The board of `s` with another node and another reference memory. -/
def State.withBoard (s : State) (c d : Device) (p : Node × RefMem) : State :=
  { s with toNode := p.1, devices := [c, { d with kind := .refMem p.2 }] }

/-- Nothing outside the devices is going on. -/
structure Idle (s : State) : Prop where
  running : s.runState = .run
  queue : s.queue = []
  arrivals : s.arrivals = []
  timers : s.timers = []

/-- A CPU and a reference memory, neither with a divider. -/
structure Pair (c d : Device) : Prop where
  cpuKind : c.kind = .cpu
  cpuGate : c.divider = none
  memGate : d.divider = none

/-- A board step of an idle reference board is clock.tick(), the CPU's tick and the memory's tick (R160). -/
theorem boardStep_withBoard {X : ExecTable} {s : State} {c d : Device} {p : Node × RefMem} (hs : Idle s)
    (hp : Pair c d) (hr : p.1.refused = none) :
    boardStep X (s.withBoard c d p) =
      .next (s.withBoard c d (cpuThenMemory X s.params.rIncMask (p.1.clockTick, p.2))) := by
  obtain ⟨h1, h2, h3, h4⟩ := hs
  obtain ⟨k1, k2, k3⟩ := hp
  simp [boardStep, State.withBoard, hr, h1, h2, h3, h4, State.takeArrivals, State.runStep, State.clockTick,
    State.dispatchDevices, dispatchAll, Device.dispatch, Device.tick, k1, k2, k3, State.serviceTimers,
    serviceTimers, State.drainRequest, cpuThenMemory]

/-- k board steps, from just after clock.tick() of the first to the end of the last: none refused, and the run goes on
at all but the last. `stop` looks at the CPU. -/
inductive Steps (X : ExecTable) (mask : Byte) (stop : Cpu → Bool) : Nat → Node × RefMem → Node × RefMem → Prop
  | last {p r : Node × RefMem} (h : cpuThenMemory X mask p = r) (hr : r.1.refused = none) : Steps X mask stop 1 p r
  | more {k : Nat} {p q r : Node × RefMem} (h : rotate X mask p = q) (hr : q.1.refused = none)
      (hrest : stop q.1.cpu = false) (t : Steps X mask stop k q r) : Steps X mask stop (k + 1) p r

/-- The same up to just after the clock.tick() that follows the last step. -/
def Reaches (X : ExecTable) (mask : Byte) (stop : Cpu → Bool) (k : Nat) (p q : Node × RefMem) : Prop :=
  ∃ r, Steps X mask stop k p r ∧ (r.1.clockTick, r.2) = q

theorem Reaches.last {X : ExecTable} {mask : Byte} {stop : Cpu → Bool} {p q : Node × RefMem} (h : rotate X mask p = q)
    (hr : q.1.refused = none) : Reaches X mask stop 1 p q :=
  ⟨cpuThenMemory X mask p, .last rfl (by rw [← hr, ← h]; simp [rotate]), h⟩

theorem Reaches.more {X : ExecTable} {mask : Byte} {stop : Cpu → Bool} {k : Nat} {p q r : Node × RefMem}
    (h : rotate X mask p = q) (hr : q.1.refused = none) (hrest : stop q.1.cpu = false)
    (t : Reaches X mask stop k q r) : Reaches X mask stop (k + 1) p r :=
  t.imp fun _ t => ⟨.more h hr hrest t.1, t.2⟩

theorem Reaches.trans {X : ExecTable} {mask : Byte} {stop : Cpu → Bool} {j k : Nat} {p q r : Node × RefMem}
    (h : Reaches X mask stop j p q) (hrest : stop q.1.cpu = false) (h' : Reaches X mask stop k q r) :
    Reaches X mask stop (k + j) p r := by
  obtain ⟨r₀, h, rfl⟩ := h
  induction h with
  | last e hr =>
    subst e
    exact .more rfl (by simpa [rotate] using hr) hrest h'
  | more e hr hs _ ih => exact .more e hr hs (ih hrest h')

/-- A condition on the CPU that PC does not matter to. -/
def BlindToPc (stop : Cpu → Bool) : Prop := ∀ (c : Cpu) (w : Word), stop { c with pc := w } = stop c

/-- Nothing is in progress that a cycle law speaks of: no micro-op's cycle and no acknowledge cycle. -/
def Cpu.idle (c : Cpu) : Bool := (c.mc == .m1 || c.pipe.isEmpty) && !c.iack

/-- A run that stops early by one condition stops no later by a narrower one. -/
theorem Steps.mono {X : ExecTable} {mask : Byte} {stop stop' : Cpu → Bool} (h : ∀ c, stop' c = true → stop c = true)
    {k : Nat} {p r : Node × RefMem} (hs : Steps X mask stop k p r) : Steps X mask stop' k p r := by
  induction hs with
  | last e hr => exact .last e hr
  | @more k p q r e hr hrest t ih =>
    refine .more e hr ?_ ih
    cases hv : stop' q.1.cpu
    · rfl
    · rw [h _ hv] at hrest; exact absurd hrest (by decide)

theorem Cpu.idle_of_atRest (c : Cpu) (h : c.atRest = true) : c.idle = true := by
  simp only [Cpu.atRest, Bool.and_eq_true] at h
  simp [Cpu.idle, h.1.1, h.1.2]

theorem blindToPc_atRest : BlindToPc Cpu.atRest := fun _ _ => rfl

/-- A run of board steps on an idle reference board, from steps seen from tick to tick. -/
theorem advance_of_steps {X : ExecTable} {s : State} {c d : Device} (hs : Idle s) (hp : Pair c d)
    {stop : Cpu → Bool} (hb : BlindToPc stop) {stopS : State → Bool}
    (hS : ∀ p, stopS (s.withBoard c d p) = stop p.1.cpu) {k : Nat} {p r : Node × RefMem}
    (h : Steps X s.params.rIncMask stop k p r) (hq : stop r.1.cpu = true) :
    ∀ (n : Node) (bound : Nat), n.clockTick = p.1 → n.refused = none → k ≤ bound →
      advance X stopS bound (s.withBoard c d (n, p.2)) = .next (s.withBoard c d r) := by
  have hc : ∀ n : Node, stop n.clockTick.cpu = stop n.cpu := fun n => by rw [Node.clockTick_cpu, hb]
  induction h with
  | @last p r e hr =>
    intro n bound hn href hbd
    obtain ⟨b, rfl⟩ : ∃ b, bound = b + 1 := ⟨bound - 1, by omega⟩
    have hp' : (n.clockTick, p.2) = p := by rw [hn]
    simp only [advance, boardStep_withBoard hs hp (p := (n, p.2)) href, hp', e, hS, hq]
    simp [State.withBoard, hr]
  | @more k p q r e hr hrest t ih =>
    intro n bound hn href hbd
    obtain ⟨b, rfl⟩ : ∃ b, bound = b + 1 := ⟨bound - 1, by omega⟩
    have hr' : (cpuThenMemory X s.params.rIncMask p).1.refused = none := by rw [← hr, ← e]; simp [rotate]
    have ha : stop (cpuThenMemory X s.params.rIncMask p).1.cpu = false := by rw [← hrest, ← e]; simp [rotate, hc]
    have hm : q.2 = (cpuThenMemory X s.params.rIncMask p).2 := by rw [← e]; rfl
    have hp' : (n.clockTick, p.2) = p := by rw [hn]
    have h4 := ih hq (cpuThenMemory X s.params.rIncMask p).1 b (by rw [← e]; rfl) hr' (by omega)
    rw [← h4]
    simp only [advance, boardStep_withBoard hs hp (p := (n, p.2)) href, hp', hm, hS, ha]
    simp [State.withBoard, hr']

end Sys2Proof.Machine
end

