-- ==== Sys2Proof/Laws/State.lean ====
section
/-!
SUPPORT. One lemma per field per update: what each named update of the CPU, the node and the board leaves alone.
-/
namespace Sys2Proof.Machine

/-! ## Updates of the CPU -/

section Cpu
variable (c : Cpu) (r : Reg8) (v : Byte) (p : PostAction) (ps : List PostAction) (b : Bus)

@[simp] theorem Cpu.set8_af' : (c.set8 r v).af' = c.af' := by cases r <;> rfl
@[simp] theorem Cpu.set8_bc' : (c.set8 r v).bc' = c.bc' := by cases r <;> rfl
@[simp] theorem Cpu.set8_de' : (c.set8 r v).de' = c.de' := by cases r <;> rfl
@[simp] theorem Cpu.set8_hl' : (c.set8 r v).hl' = c.hl' := by cases r <;> rfl
@[simp] theorem Cpu.set8_ix : (c.set8 r v).ix = c.ix := by cases r <;> rfl
@[simp] theorem Cpu.set8_iy : (c.set8 r v).iy = c.iy := by cases r <;> rfl
@[simp] theorem Cpu.set8_far : (c.set8 r v).far = c.far := by cases r <;> rfl
@[simp] theorem Cpu.set8_i : (c.set8 r v).i = c.i := by cases r <;> rfl
@[simp] theorem Cpu.set8_r : (c.set8 r v).r = c.r := by cases r <;> rfl
@[simp] theorem Cpu.set8_opcode : (c.set8 r v).opcode = c.opcode := by cases r <;> rfl
@[simp] theorem Cpu.set8_iff1 : (c.set8 r v).iff1 = c.iff1 := by cases r <;> rfl
@[simp] theorem Cpu.set8_iff2 : (c.set8 r v).iff2 = c.iff2 := by cases r <;> rfl
@[simp] theorem Cpu.set8_im : (c.set8 r v).im = c.im := by cases r <;> rfl
@[simp] theorem Cpu.set8_mc : (c.set8 r v).mc = c.mc := by cases r <;> rfl
@[simp] theorem Cpu.set8_step : (c.set8 r v).step = c.step := by cases r <;> rfl
@[simp] theorem Cpu.set8_pipe : (c.set8 r v).pipe = c.pipe := by cases r <;> rfl
@[simp] theorem Cpu.set8_halted : (c.set8 r v).halted = c.halted := by cases r <;> rfl
@[simp] theorem Cpu.set8_nmiPending : (c.set8 r v).nmiPending = c.nmiPending := by cases r <;> rfl
@[simp] theorem Cpu.set8_nmiSampled : (c.set8 r v).nmiSampled = c.nmiSampled := by cases r <;> rfl
@[simp] theorem Cpu.set8_busGranted : (c.set8 r v).busGranted = c.busGranted := by cases r <;> rfl
@[simp] theorem Cpu.set8_iack : (c.set8 r v).iack = c.iack := by cases r <;> rfl
@[simp] theorem Cpu.set8_ibyte : (c.set8 r v).ibyte = c.ibyte := by cases r <;> rfl
@[simp] theorem Cpu.set8_resetStep : (c.set8 r v).resetStep = c.resetStep := by cases r <;> rfl

@[simp] theorem PostAction.apply_af : (p.apply c).af = c.af := by
  cases p <;> first | rfl | (simp only [PostAction.apply]; split <;> rfl)
@[simp] theorem PostAction.apply_bc : (p.apply c).bc = c.bc := by
  cases p <;> first | rfl | (simp only [PostAction.apply]; split <;> rfl)
@[simp] theorem PostAction.apply_de : (p.apply c).de = c.de := by
  cases p <;> first | rfl | (simp only [PostAction.apply]; split <;> rfl)
@[simp] theorem PostAction.apply_hl : (p.apply c).hl = c.hl := by
  cases p <;> first | rfl | (simp only [PostAction.apply]; split <;> rfl)
@[simp] theorem PostAction.apply_af' : (p.apply c).af' = c.af' := by
  cases p <;> first | rfl | (simp only [PostAction.apply]; split <;> rfl)
@[simp] theorem PostAction.apply_bc' : (p.apply c).bc' = c.bc' := by
  cases p <;> first | rfl | (simp only [PostAction.apply]; split <;> rfl)
@[simp] theorem PostAction.apply_de' : (p.apply c).de' = c.de' := by
  cases p <;> first | rfl | (simp only [PostAction.apply]; split <;> rfl)
@[simp] theorem PostAction.apply_hl' : (p.apply c).hl' = c.hl' := by
  cases p <;> first | rfl | (simp only [PostAction.apply]; split <;> rfl)
@[simp] theorem PostAction.apply_ix : (p.apply c).ix = c.ix := by
  cases p <;> first | rfl | (simp only [PostAction.apply]; split <;> rfl)
@[simp] theorem PostAction.apply_iy : (p.apply c).iy = c.iy := by
  cases p <;> first | rfl | (simp only [PostAction.apply]; split <;> rfl)
@[simp] theorem PostAction.apply_far : (p.apply c).far = c.far := by
  cases p <;> first | rfl | (simp only [PostAction.apply]; split <;> rfl)
@[simp] theorem PostAction.apply_i : (p.apply c).i = c.i := by
  cases p <;> first | rfl | (simp only [PostAction.apply]; split <;> rfl)
@[simp] theorem PostAction.apply_r : (p.apply c).r = c.r := by
  cases p <;> first | rfl | (simp only [PostAction.apply]; split <;> rfl)
@[simp] theorem PostAction.apply_opcode : (p.apply c).opcode = c.opcode := by
  cases p <;> first | rfl | (simp only [PostAction.apply]; split <;> rfl)
@[simp] theorem PostAction.apply_iff1 : (p.apply c).iff1 = c.iff1 := by
  cases p <;> first | rfl | (simp only [PostAction.apply]; split <;> rfl)
@[simp] theorem PostAction.apply_iff2 : (p.apply c).iff2 = c.iff2 := by
  cases p <;> first | rfl | (simp only [PostAction.apply]; split <;> rfl)
@[simp] theorem PostAction.apply_im : (p.apply c).im = c.im := by
  cases p <;> first | rfl | (simp only [PostAction.apply]; split <;> rfl)
@[simp] theorem PostAction.apply_mc : (p.apply c).mc = c.mc := by
  cases p <;> first | rfl | (simp only [PostAction.apply]; split <;> rfl)
@[simp] theorem PostAction.apply_step : (p.apply c).step = c.step := by
  cases p <;> first | rfl | (simp only [PostAction.apply]; split <;> rfl)
@[simp] theorem PostAction.apply_pipe : (p.apply c).pipe = c.pipe := by
  cases p <;> first | rfl | (simp only [PostAction.apply]; split <;> rfl)
@[simp] theorem PostAction.apply_halted : (p.apply c).halted = c.halted := by
  cases p <;> first | rfl | (simp only [PostAction.apply]; split <;> rfl)
@[simp] theorem PostAction.apply_nmiPending : (p.apply c).nmiPending = c.nmiPending := by
  cases p <;> first | rfl | (simp only [PostAction.apply]; split <;> rfl)
@[simp] theorem PostAction.apply_nmiSampled : (p.apply c).nmiSampled = c.nmiSampled := by
  cases p <;> first | rfl | (simp only [PostAction.apply]; split <;> rfl)
@[simp] theorem PostAction.apply_busGranted : (p.apply c).busGranted = c.busGranted := by
  cases p <;> first | rfl | (simp only [PostAction.apply]; split <;> rfl)
@[simp] theorem PostAction.apply_iack : (p.apply c).iack = c.iack := by
  cases p <;> first | rfl | (simp only [PostAction.apply]; split <;> rfl)
@[simp] theorem PostAction.apply_ibyte : (p.apply c).ibyte = c.ibyte := by
  cases p <;> first | rfl | (simp only [PostAction.apply]; split <;> rfl)
@[simp] theorem PostAction.apply_resetStep : (p.apply c).resetStep = c.resetStep := by
  cases p <;> first | rfl | (simp only [PostAction.apply]; split <;> rfl)

@[simp] theorem Cpu.applyPost_af : (c.applyPost ps).af = c.af := by
  induction ps generalizing c with
  | nil => rfl
  | cons p ps ih => exact (ih (p.apply c)).trans (PostAction.apply_af c p)
@[simp] theorem Cpu.applyPost_bc : (c.applyPost ps).bc = c.bc := by
  induction ps generalizing c with
  | nil => rfl
  | cons p ps ih => exact (ih (p.apply c)).trans (PostAction.apply_bc c p)
@[simp] theorem Cpu.applyPost_de : (c.applyPost ps).de = c.de := by
  induction ps generalizing c with
  | nil => rfl
  | cons p ps ih => exact (ih (p.apply c)).trans (PostAction.apply_de c p)
@[simp] theorem Cpu.applyPost_hl : (c.applyPost ps).hl = c.hl := by
  induction ps generalizing c with
  | nil => rfl
  | cons p ps ih => exact (ih (p.apply c)).trans (PostAction.apply_hl c p)
@[simp] theorem Cpu.applyPost_af' : (c.applyPost ps).af' = c.af' := by
  induction ps generalizing c with
  | nil => rfl
  | cons p ps ih => exact (ih (p.apply c)).trans (PostAction.apply_af' c p)
@[simp] theorem Cpu.applyPost_bc' : (c.applyPost ps).bc' = c.bc' := by
  induction ps generalizing c with
  | nil => rfl
  | cons p ps ih => exact (ih (p.apply c)).trans (PostAction.apply_bc' c p)
@[simp] theorem Cpu.applyPost_de' : (c.applyPost ps).de' = c.de' := by
  induction ps generalizing c with
  | nil => rfl
  | cons p ps ih => exact (ih (p.apply c)).trans (PostAction.apply_de' c p)
@[simp] theorem Cpu.applyPost_hl' : (c.applyPost ps).hl' = c.hl' := by
  induction ps generalizing c with
  | nil => rfl
  | cons p ps ih => exact (ih (p.apply c)).trans (PostAction.apply_hl' c p)
@[simp] theorem Cpu.applyPost_ix : (c.applyPost ps).ix = c.ix := by
  induction ps generalizing c with
  | nil => rfl
  | cons p ps ih => exact (ih (p.apply c)).trans (PostAction.apply_ix c p)
@[simp] theorem Cpu.applyPost_iy : (c.applyPost ps).iy = c.iy := by
  induction ps generalizing c with
  | nil => rfl
  | cons p ps ih => exact (ih (p.apply c)).trans (PostAction.apply_iy c p)
@[simp] theorem Cpu.applyPost_far : (c.applyPost ps).far = c.far := by
  induction ps generalizing c with
  | nil => rfl
  | cons p ps ih => exact (ih (p.apply c)).trans (PostAction.apply_far c p)
@[simp] theorem Cpu.applyPost_i : (c.applyPost ps).i = c.i := by
  induction ps generalizing c with
  | nil => rfl
  | cons p ps ih => exact (ih (p.apply c)).trans (PostAction.apply_i c p)
@[simp] theorem Cpu.applyPost_r : (c.applyPost ps).r = c.r := by
  induction ps generalizing c with
  | nil => rfl
  | cons p ps ih => exact (ih (p.apply c)).trans (PostAction.apply_r c p)
@[simp] theorem Cpu.applyPost_opcode : (c.applyPost ps).opcode = c.opcode := by
  induction ps generalizing c with
  | nil => rfl
  | cons p ps ih => exact (ih (p.apply c)).trans (PostAction.apply_opcode c p)
@[simp] theorem Cpu.applyPost_iff1 : (c.applyPost ps).iff1 = c.iff1 := by
  induction ps generalizing c with
  | nil => rfl
  | cons p ps ih => exact (ih (p.apply c)).trans (PostAction.apply_iff1 c p)
@[simp] theorem Cpu.applyPost_iff2 : (c.applyPost ps).iff2 = c.iff2 := by
  induction ps generalizing c with
  | nil => rfl
  | cons p ps ih => exact (ih (p.apply c)).trans (PostAction.apply_iff2 c p)
@[simp] theorem Cpu.applyPost_im : (c.applyPost ps).im = c.im := by
  induction ps generalizing c with
  | nil => rfl
  | cons p ps ih => exact (ih (p.apply c)).trans (PostAction.apply_im c p)
@[simp] theorem Cpu.applyPost_mc : (c.applyPost ps).mc = c.mc := by
  induction ps generalizing c with
  | nil => rfl
  | cons p ps ih => exact (ih (p.apply c)).trans (PostAction.apply_mc c p)
@[simp] theorem Cpu.applyPost_step : (c.applyPost ps).step = c.step := by
  induction ps generalizing c with
  | nil => rfl
  | cons p ps ih => exact (ih (p.apply c)).trans (PostAction.apply_step c p)
@[simp] theorem Cpu.applyPost_pipe : (c.applyPost ps).pipe = c.pipe := by
  induction ps generalizing c with
  | nil => rfl
  | cons p ps ih => exact (ih (p.apply c)).trans (PostAction.apply_pipe c p)
@[simp] theorem Cpu.applyPost_halted : (c.applyPost ps).halted = c.halted := by
  induction ps generalizing c with
  | nil => rfl
  | cons p ps ih => exact (ih (p.apply c)).trans (PostAction.apply_halted c p)
@[simp] theorem Cpu.applyPost_nmiPending : (c.applyPost ps).nmiPending = c.nmiPending := by
  induction ps generalizing c with
  | nil => rfl
  | cons p ps ih => exact (ih (p.apply c)).trans (PostAction.apply_nmiPending c p)
@[simp] theorem Cpu.applyPost_nmiSampled : (c.applyPost ps).nmiSampled = c.nmiSampled := by
  induction ps generalizing c with
  | nil => rfl
  | cons p ps ih => exact (ih (p.apply c)).trans (PostAction.apply_nmiSampled c p)
@[simp] theorem Cpu.applyPost_busGranted : (c.applyPost ps).busGranted = c.busGranted := by
  induction ps generalizing c with
  | nil => rfl
  | cons p ps ih => exact (ih (p.apply c)).trans (PostAction.apply_busGranted c p)
@[simp] theorem Cpu.applyPost_iack : (c.applyPost ps).iack = c.iack := by
  induction ps generalizing c with
  | nil => rfl
  | cons p ps ih => exact (ih (p.apply c)).trans (PostAction.apply_iack c p)
@[simp] theorem Cpu.applyPost_ibyte : (c.applyPost ps).ibyte = c.ibyte := by
  induction ps generalizing c with
  | nil => rfl
  | cons p ps ih => exact (ih (p.apply c)).trans (PostAction.apply_ibyte c p)
@[simp] theorem Cpu.applyPost_resetStep : (c.applyPost ps).resetStep = c.resetStep := by
  induction ps generalizing c with
  | nil => rfl
  | cons p ps ih => exact (ih (p.apply c)).trans (PostAction.apply_resetStep c p)

@[simp] theorem Cpu.nextStep_af : (c.nextStep).af = c.af := rfl
@[simp] theorem Cpu.nextStep_bc : (c.nextStep).bc = c.bc := rfl
@[simp] theorem Cpu.nextStep_de : (c.nextStep).de = c.de := rfl
@[simp] theorem Cpu.nextStep_hl : (c.nextStep).hl = c.hl := rfl
@[simp] theorem Cpu.nextStep_af' : (c.nextStep).af' = c.af' := rfl
@[simp] theorem Cpu.nextStep_bc' : (c.nextStep).bc' = c.bc' := rfl
@[simp] theorem Cpu.nextStep_de' : (c.nextStep).de' = c.de' := rfl
@[simp] theorem Cpu.nextStep_hl' : (c.nextStep).hl' = c.hl' := rfl
@[simp] theorem Cpu.nextStep_ix : (c.nextStep).ix = c.ix := rfl
@[simp] theorem Cpu.nextStep_iy : (c.nextStep).iy = c.iy := rfl
@[simp] theorem Cpu.nextStep_sp : (c.nextStep).sp = c.sp := rfl
@[simp] theorem Cpu.nextStep_pc : (c.nextStep).pc = c.pc := rfl
@[simp] theorem Cpu.nextStep_wz : (c.nextStep).wz = c.wz := rfl
@[simp] theorem Cpu.nextStep_far : (c.nextStep).far = c.far := rfl
@[simp] theorem Cpu.nextStep_i : (c.nextStep).i = c.i := rfl
@[simp] theorem Cpu.nextStep_r : (c.nextStep).r = c.r := rfl
@[simp] theorem Cpu.nextStep_opcode : (c.nextStep).opcode = c.opcode := rfl
@[simp] theorem Cpu.nextStep_iff1 : (c.nextStep).iff1 = c.iff1 := rfl
@[simp] theorem Cpu.nextStep_iff2 : (c.nextStep).iff2 = c.iff2 := rfl
@[simp] theorem Cpu.nextStep_im : (c.nextStep).im = c.im := rfl
@[simp] theorem Cpu.nextStep_mc : (c.nextStep).mc = c.mc := rfl
@[simp] theorem Cpu.nextStep_pipe : (c.nextStep).pipe = c.pipe := rfl
@[simp] theorem Cpu.nextStep_halted : (c.nextStep).halted = c.halted := rfl
@[simp] theorem Cpu.nextStep_nmiPending : (c.nextStep).nmiPending = c.nmiPending := rfl
@[simp] theorem Cpu.nextStep_nmiSampled : (c.nextStep).nmiSampled = c.nmiSampled := rfl
@[simp] theorem Cpu.nextStep_busGranted : (c.nextStep).busGranted = c.busGranted := rfl
@[simp] theorem Cpu.nextStep_iack : (c.nextStep).iack = c.iack := rfl
@[simp] theorem Cpu.nextStep_ibyte : (c.nextStep).ibyte = c.ibyte := rfl
@[simp] theorem Cpu.nextStep_resetStep : (c.nextStep).resetStep = c.resetStep := rfl

@[simp] theorem Cpu.nextStep_step : c.nextStep.step = c.step.next := rfl

@[simp] theorem Cpu.endCycle_af : (c.endCycle).af = c.af := rfl
@[simp] theorem Cpu.endCycle_bc : (c.endCycle).bc = c.bc := rfl
@[simp] theorem Cpu.endCycle_de : (c.endCycle).de = c.de := rfl
@[simp] theorem Cpu.endCycle_hl : (c.endCycle).hl = c.hl := rfl
@[simp] theorem Cpu.endCycle_af' : (c.endCycle).af' = c.af' := rfl
@[simp] theorem Cpu.endCycle_bc' : (c.endCycle).bc' = c.bc' := rfl
@[simp] theorem Cpu.endCycle_de' : (c.endCycle).de' = c.de' := rfl
@[simp] theorem Cpu.endCycle_hl' : (c.endCycle).hl' = c.hl' := rfl
@[simp] theorem Cpu.endCycle_ix : (c.endCycle).ix = c.ix := rfl
@[simp] theorem Cpu.endCycle_iy : (c.endCycle).iy = c.iy := rfl
@[simp] theorem Cpu.endCycle_sp : (c.endCycle).sp = c.sp := rfl
@[simp] theorem Cpu.endCycle_pc : (c.endCycle).pc = c.pc := rfl
@[simp] theorem Cpu.endCycle_wz : (c.endCycle).wz = c.wz := rfl
@[simp] theorem Cpu.endCycle_far : (c.endCycle).far = c.far := rfl
@[simp] theorem Cpu.endCycle_i : (c.endCycle).i = c.i := rfl
@[simp] theorem Cpu.endCycle_r : (c.endCycle).r = c.r := rfl
@[simp] theorem Cpu.endCycle_opcode : (c.endCycle).opcode = c.opcode := rfl
@[simp] theorem Cpu.endCycle_iff1 : (c.endCycle).iff1 = c.iff1 := rfl
@[simp] theorem Cpu.endCycle_iff2 : (c.endCycle).iff2 = c.iff2 := rfl
@[simp] theorem Cpu.endCycle_im : (c.endCycle).im = c.im := rfl
@[simp] theorem Cpu.endCycle_halted : (c.endCycle).halted = c.halted := rfl
@[simp] theorem Cpu.endCycle_nmiPending : (c.endCycle).nmiPending = c.nmiPending := rfl
@[simp] theorem Cpu.endCycle_nmiSampled : (c.endCycle).nmiSampled = c.nmiSampled := rfl
@[simp] theorem Cpu.endCycle_busGranted : (c.endCycle).busGranted = c.busGranted := rfl
@[simp] theorem Cpu.endCycle_iack : (c.endCycle).iack = c.iack := rfl
@[simp] theorem Cpu.endCycle_ibyte : (c.endCycle).ibyte = c.ibyte := rfl
@[simp] theorem Cpu.endCycle_resetStep : (c.endCycle).resetStep = c.resetStep := rfl

@[simp] theorem Cpu.endCycle_step : c.endCycle.step = .done := rfl
@[simp] theorem Cpu.endCycle_mc : c.endCycle.mc = c.mc.next := rfl
@[simp] theorem Cpu.endCycle_pipe : c.endCycle.pipe = c.pipe.tail := rfl

@[simp] theorem Cpu.preDecSp_af : (c.preDecSp).af = c.af := rfl
@[simp] theorem Cpu.preDecSp_bc : (c.preDecSp).bc = c.bc := rfl
@[simp] theorem Cpu.preDecSp_de : (c.preDecSp).de = c.de := rfl
@[simp] theorem Cpu.preDecSp_hl : (c.preDecSp).hl = c.hl := rfl
@[simp] theorem Cpu.preDecSp_af' : (c.preDecSp).af' = c.af' := rfl
@[simp] theorem Cpu.preDecSp_bc' : (c.preDecSp).bc' = c.bc' := rfl
@[simp] theorem Cpu.preDecSp_de' : (c.preDecSp).de' = c.de' := rfl
@[simp] theorem Cpu.preDecSp_hl' : (c.preDecSp).hl' = c.hl' := rfl
@[simp] theorem Cpu.preDecSp_ix : (c.preDecSp).ix = c.ix := rfl
@[simp] theorem Cpu.preDecSp_iy : (c.preDecSp).iy = c.iy := rfl
@[simp] theorem Cpu.preDecSp_pc : (c.preDecSp).pc = c.pc := rfl
@[simp] theorem Cpu.preDecSp_wz : (c.preDecSp).wz = c.wz := rfl
@[simp] theorem Cpu.preDecSp_far : (c.preDecSp).far = c.far := rfl
@[simp] theorem Cpu.preDecSp_i : (c.preDecSp).i = c.i := rfl
@[simp] theorem Cpu.preDecSp_r : (c.preDecSp).r = c.r := rfl
@[simp] theorem Cpu.preDecSp_opcode : (c.preDecSp).opcode = c.opcode := rfl
@[simp] theorem Cpu.preDecSp_iff1 : (c.preDecSp).iff1 = c.iff1 := rfl
@[simp] theorem Cpu.preDecSp_iff2 : (c.preDecSp).iff2 = c.iff2 := rfl
@[simp] theorem Cpu.preDecSp_im : (c.preDecSp).im = c.im := rfl
@[simp] theorem Cpu.preDecSp_mc : (c.preDecSp).mc = c.mc := rfl
@[simp] theorem Cpu.preDecSp_step : (c.preDecSp).step = c.step := rfl
@[simp] theorem Cpu.preDecSp_pipe : (c.preDecSp).pipe = c.pipe := rfl
@[simp] theorem Cpu.preDecSp_halted : (c.preDecSp).halted = c.halted := rfl
@[simp] theorem Cpu.preDecSp_nmiPending : (c.preDecSp).nmiPending = c.nmiPending := rfl
@[simp] theorem Cpu.preDecSp_nmiSampled : (c.preDecSp).nmiSampled = c.nmiSampled := rfl
@[simp] theorem Cpu.preDecSp_busGranted : (c.preDecSp).busGranted = c.busGranted := rfl
@[simp] theorem Cpu.preDecSp_iack : (c.preDecSp).iack = c.iack := rfl
@[simp] theorem Cpu.preDecSp_ibyte : (c.preDecSp).ibyte = c.ibyte := rfl
@[simp] theorem Cpu.preDecSp_resetStep : (c.preDecSp).resetStep = c.resetStep := rfl

@[simp] theorem Cpu.preDecSp_sp : c.preDecSp.sp = c.sp - 1#16 := rfl

@[simp] theorem Cpu.sampleNmi_af : (c.sampleNmi b).af = c.af := rfl
@[simp] theorem Cpu.sampleNmi_bc : (c.sampleNmi b).bc = c.bc := rfl
@[simp] theorem Cpu.sampleNmi_de : (c.sampleNmi b).de = c.de := rfl
@[simp] theorem Cpu.sampleNmi_hl : (c.sampleNmi b).hl = c.hl := rfl
@[simp] theorem Cpu.sampleNmi_af' : (c.sampleNmi b).af' = c.af' := rfl
@[simp] theorem Cpu.sampleNmi_bc' : (c.sampleNmi b).bc' = c.bc' := rfl
@[simp] theorem Cpu.sampleNmi_de' : (c.sampleNmi b).de' = c.de' := rfl
@[simp] theorem Cpu.sampleNmi_hl' : (c.sampleNmi b).hl' = c.hl' := rfl
@[simp] theorem Cpu.sampleNmi_ix : (c.sampleNmi b).ix = c.ix := rfl
@[simp] theorem Cpu.sampleNmi_iy : (c.sampleNmi b).iy = c.iy := rfl
@[simp] theorem Cpu.sampleNmi_sp : (c.sampleNmi b).sp = c.sp := rfl
@[simp] theorem Cpu.sampleNmi_pc : (c.sampleNmi b).pc = c.pc := rfl
@[simp] theorem Cpu.sampleNmi_wz : (c.sampleNmi b).wz = c.wz := rfl
@[simp] theorem Cpu.sampleNmi_far : (c.sampleNmi b).far = c.far := rfl
@[simp] theorem Cpu.sampleNmi_i : (c.sampleNmi b).i = c.i := rfl
@[simp] theorem Cpu.sampleNmi_r : (c.sampleNmi b).r = c.r := rfl
@[simp] theorem Cpu.sampleNmi_opcode : (c.sampleNmi b).opcode = c.opcode := rfl
@[simp] theorem Cpu.sampleNmi_iff1 : (c.sampleNmi b).iff1 = c.iff1 := rfl
@[simp] theorem Cpu.sampleNmi_iff2 : (c.sampleNmi b).iff2 = c.iff2 := rfl
@[simp] theorem Cpu.sampleNmi_im : (c.sampleNmi b).im = c.im := rfl
@[simp] theorem Cpu.sampleNmi_mc : (c.sampleNmi b).mc = c.mc := rfl
@[simp] theorem Cpu.sampleNmi_step : (c.sampleNmi b).step = c.step := rfl
@[simp] theorem Cpu.sampleNmi_pipe : (c.sampleNmi b).pipe = c.pipe := rfl
@[simp] theorem Cpu.sampleNmi_halted : (c.sampleNmi b).halted = c.halted := rfl
@[simp] theorem Cpu.sampleNmi_busGranted : (c.sampleNmi b).busGranted = c.busGranted := rfl
@[simp] theorem Cpu.sampleNmi_iack : (c.sampleNmi b).iack = c.iack := rfl
@[simp] theorem Cpu.sampleNmi_ibyte : (c.sampleNmi b).ibyte = c.ibyte := rfl
@[simp] theorem Cpu.sampleNmi_resetStep : (c.sampleNmi b).resetStep = c.resetStep := rfl

@[simp] theorem Cpu.sampleNmi_nmiSampled : (c.sampleNmi b).nmiSampled = b.active .nmi := rfl
@[simp] theorem Cpu.sampleNmi_nmiPending :
    (c.sampleNmi b).nmiPending = (c.nmiPending || (b.active .nmi && !c.nmiSampled)) := rfl

@[simp] theorem Cpu.normalise_af : c.normalise.af = c.af := by
  simp only [Cpu.normalise]; split_ifs <;> rfl
@[simp] theorem Cpu.normalise_bc : c.normalise.bc = c.bc := by
  simp only [Cpu.normalise]; split_ifs <;> rfl
@[simp] theorem Cpu.normalise_de : c.normalise.de = c.de := by
  simp only [Cpu.normalise]; split_ifs <;> rfl
@[simp] theorem Cpu.normalise_hl : c.normalise.hl = c.hl := by
  simp only [Cpu.normalise]; split_ifs <;> rfl
@[simp] theorem Cpu.normalise_af' : c.normalise.af' = c.af' := by
  simp only [Cpu.normalise]; split_ifs <;> rfl
@[simp] theorem Cpu.normalise_bc' : c.normalise.bc' = c.bc' := by
  simp only [Cpu.normalise]; split_ifs <;> rfl
@[simp] theorem Cpu.normalise_de' : c.normalise.de' = c.de' := by
  simp only [Cpu.normalise]; split_ifs <;> rfl
@[simp] theorem Cpu.normalise_hl' : c.normalise.hl' = c.hl' := by
  simp only [Cpu.normalise]; split_ifs <;> rfl
@[simp] theorem Cpu.normalise_ix : c.normalise.ix = c.ix := by
  simp only [Cpu.normalise]; split_ifs <;> rfl
@[simp] theorem Cpu.normalise_iy : c.normalise.iy = c.iy := by
  simp only [Cpu.normalise]; split_ifs <;> rfl
@[simp] theorem Cpu.normalise_sp : c.normalise.sp = c.sp := by
  simp only [Cpu.normalise]; split_ifs <;> rfl
@[simp] theorem Cpu.normalise_pc : c.normalise.pc = c.pc := by
  simp only [Cpu.normalise]; split_ifs <;> rfl
@[simp] theorem Cpu.normalise_wz : c.normalise.wz = c.wz := by
  simp only [Cpu.normalise]; split_ifs <;> rfl
@[simp] theorem Cpu.normalise_far : c.normalise.far = c.far := by
  simp only [Cpu.normalise]; split_ifs <;> rfl
@[simp] theorem Cpu.normalise_i : c.normalise.i = c.i := by
  simp only [Cpu.normalise]; split_ifs <;> rfl
@[simp] theorem Cpu.normalise_r : c.normalise.r = c.r := by
  simp only [Cpu.normalise]; split_ifs <;> rfl
@[simp] theorem Cpu.normalise_opcode : c.normalise.opcode = c.opcode := by
  simp only [Cpu.normalise]; split_ifs <;> rfl
@[simp] theorem Cpu.normalise_iff1 : c.normalise.iff1 = c.iff1 := by
  simp only [Cpu.normalise]; split_ifs <;> rfl
@[simp] theorem Cpu.normalise_iff2 : c.normalise.iff2 = c.iff2 := by
  simp only [Cpu.normalise]; split_ifs <;> rfl
@[simp] theorem Cpu.normalise_im : c.normalise.im = c.im := by
  simp only [Cpu.normalise]; split_ifs <;> rfl
@[simp] theorem Cpu.normalise_pipe : c.normalise.pipe = c.pipe := by
  simp only [Cpu.normalise]; split_ifs <;> rfl
@[simp] theorem Cpu.normalise_halted : c.normalise.halted = c.halted := by
  simp only [Cpu.normalise]; split_ifs <;> rfl
@[simp] theorem Cpu.normalise_nmiPending : c.normalise.nmiPending = c.nmiPending := by
  simp only [Cpu.normalise]; split_ifs <;> rfl
@[simp] theorem Cpu.normalise_nmiSampled : c.normalise.nmiSampled = c.nmiSampled := by
  simp only [Cpu.normalise]; split_ifs <;> rfl
@[simp] theorem Cpu.normalise_busGranted : c.normalise.busGranted = c.busGranted := by
  simp only [Cpu.normalise]; split_ifs <;> rfl
@[simp] theorem Cpu.normalise_iack : c.normalise.iack = c.iack := by
  simp only [Cpu.normalise]; split_ifs <;> rfl
@[simp] theorem Cpu.normalise_ibyte : c.normalise.ibyte = c.ibyte := by
  simp only [Cpu.normalise]; split_ifs <;> rfl
@[simp] theorem Cpu.normalise_resetStep : c.normalise.resetStep = c.resetStep := by
  simp only [Cpu.normalise]; split_ifs <;> rfl

/-- Normalise does nothing in the middle of a cycle (R183). -/
theorem Cpu.normalise_of_ne_done (h : c.step ≠ .done) : c.normalise = c := by simp [Cpu.normalise, h]

/-- Normalise starts the next micro-op's cycle (R183). -/
theorem Cpu.normalise_of_pipe (h : c.step = .done) (hp : c.pipe ≠ []) :
    c.normalise = { c with step := .t1h1 } := by simp [Cpu.normalise, h, hp]

/-- Normalise returns to M1 when the pipeline is empty (R183). -/
theorem Cpu.normalise_of_empty (h : c.step = .done) (hp : c.pipe = []) :
    c.normalise = { c with mc := .m1, step := .t1h1 } := by simp [Cpu.normalise, h, hp]

end Cpu

/-! ## Updates of the node -/

section Node
variable (n : Node) (u : MicroOp) (us : List MicroOp)

@[simp] theorem Node.nextStep_cpu : n.nextStep.cpu = n.cpu.nextStep := rfl
@[simp] theorem Node.nextStep_bus : n.nextStep.bus = n.bus := rfl
@[simp] theorem Node.nextStep_clock : n.nextStep.clock = n.clock := rfl
@[simp] theorem Node.nextStep_refused : n.nextStep.refused = n.refused := rfl

@[simp] theorem Node.toM2_bus : n.toM2.bus = n.bus := rfl
@[simp] theorem Node.toM2_clock : n.toM2.clock = n.clock := rfl
@[simp] theorem Node.toM2_refused : n.toM2.refused = n.refused := rfl
@[simp] theorem Node.toM2_cpu : n.toM2.cpu = { n.cpu with step := .done, mc := .m2 } := rfl

/-- A push onto a pipeline with room appends at the tail (R200). -/
theorem Node.push_of_room (h : n.cpu.pipe.length < 8) :
    n.push u = { n with cpu := { n.cpu with pipe := n.cpu.pipe ++ [u] } } := if_pos h

/-- Pushing micro-ops that have room appends them in order (R200). -/
theorem Node.pushAll_of_room (h : n.cpu.pipe.length + us.length ≤ 8) :
    n.pushAll us = { n with cpu := { n.cpu with pipe := n.cpu.pipe ++ us } } := by
  induction us generalizing n with
  | nil => simp [Node.pushAll]
  | cons u us ih =>
    simp only [List.length_cons] at h
    have h1 := Node.push_of_room n u (by omega)
    have h2 := ih (n.push u) (by rw [h1]; simp; omega)
    simp only [Node.pushAll, List.foldl_cons] at h2 ⊢
    rw [h2, h1]
    simp

@[simp] theorem Node.push_bus : (n.push u).bus = n.bus := by unfold Node.push; split <;> rfl
@[simp] theorem Node.push_clock : (n.push u).clock = n.clock := by unfold Node.push; split <;> rfl

@[simp] theorem Node.pushAll_bus : (n.pushAll us).bus = n.bus := by
  induction us generalizing n with
  | nil => rfl
  | cons u us ih => exact (ih (n.push u)).trans (Node.push_bus n u)

@[simp] theorem Node.pushAll_clock : (n.pushAll us).clock = n.clock := by
  induction us generalizing n with
  | nil => rfl
  | cons u us ih => exact (ih (n.push u)).trans (Node.push_clock n u)

end Node

/-! ## Updates of the board -/

section Board
variable (s : State) (X : ExecTable) (a : Word) (v : Byte) (t : TimerLine) (k : Nat)

@[simp] theorem State.clockTick_devices : (s.clockTick).devices = s.devices := rfl
@[simp] theorem State.clockTick_runState : (s.clockTick).runState = s.runState := rfl
@[simp] theorem State.clockTick_queue : (s.clockTick).queue = s.queue := rfl
@[simp] theorem State.clockTick_timers : (s.clockTick).timers = s.timers := rfl
@[simp] theorem State.clockTick_arrivals : (s.clockTick).arrivals = s.arrivals := rfl
@[simp] theorem State.clockTick_targetFrequency : (s.clockTick).targetFrequency = s.targetFrequency := rfl
@[simp] theorem State.clockTick_params : (s.clockTick).params = s.params := rfl

@[simp] theorem State.clockTick_toNode : s.clockTick.toNode = s.toNode.clockTick := rfl

@[simp] theorem State.dispatchDevices_runState : (s.dispatchDevices X).runState = s.runState := rfl
@[simp] theorem State.dispatchDevices_queue : (s.dispatchDevices X).queue = s.queue := rfl
@[simp] theorem State.dispatchDevices_timers : (s.dispatchDevices X).timers = s.timers := rfl
@[simp] theorem State.dispatchDevices_arrivals : (s.dispatchDevices X).arrivals = s.arrivals := rfl
@[simp] theorem State.dispatchDevices_targetFrequency : (s.dispatchDevices X).targetFrequency = s.targetFrequency := rfl
@[simp] theorem State.dispatchDevices_params : (s.dispatchDevices X).params = s.params := rfl

@[simp] theorem State.serviceTimers_cpu : (s.serviceTimers).cpu = s.cpu := rfl
@[simp] theorem State.serviceTimers_clock : (s.serviceTimers).clock = s.clock := rfl
@[simp] theorem State.serviceTimers_refused : (s.serviceTimers).refused = s.refused := rfl
@[simp] theorem State.serviceTimers_devices : (s.serviceTimers).devices = s.devices := rfl
@[simp] theorem State.serviceTimers_runState : (s.serviceTimers).runState = s.runState := rfl
@[simp] theorem State.serviceTimers_queue : (s.serviceTimers).queue = s.queue := rfl
@[simp] theorem State.serviceTimers_arrivals : (s.serviceTimers).arrivals = s.arrivals := rfl
@[simp] theorem State.serviceTimers_targetFrequency : (s.serviceTimers).targetFrequency = s.targetFrequency := rfl
@[simp] theorem State.serviceTimers_params : (s.serviceTimers).params = s.params := rfl

@[simp] theorem State.resetDevices_bus : (s.resetDevices).bus = s.bus := rfl
@[simp] theorem State.resetDevices_clock : (s.resetDevices).clock = s.clock := rfl
@[simp] theorem State.resetDevices_refused : (s.resetDevices).refused = s.refused := rfl
@[simp] theorem State.resetDevices_runState : (s.resetDevices).runState = s.runState := rfl
@[simp] theorem State.resetDevices_queue : (s.resetDevices).queue = s.queue := rfl
@[simp] theorem State.resetDevices_timers : (s.resetDevices).timers = s.timers := rfl
@[simp] theorem State.resetDevices_arrivals : (s.resetDevices).arrivals = s.arrivals := rfl
@[simp] theorem State.resetDevices_targetFrequency : (s.resetDevices).targetFrequency = s.targetFrequency := rfl
@[simp] theorem State.resetDevices_params : (s.resetDevices).params = s.params := rfl

@[simp] theorem State.poke_cpu : (s.poke a v).cpu = s.cpu := rfl
@[simp] theorem State.poke_bus : (s.poke a v).bus = s.bus := rfl
@[simp] theorem State.poke_clock : (s.poke a v).clock = s.clock := rfl
@[simp] theorem State.poke_refused : (s.poke a v).refused = s.refused := rfl
@[simp] theorem State.poke_runState : (s.poke a v).runState = s.runState := rfl
@[simp] theorem State.poke_queue : (s.poke a v).queue = s.queue := rfl
@[simp] theorem State.poke_timers : (s.poke a v).timers = s.timers := rfl
@[simp] theorem State.poke_arrivals : (s.poke a v).arrivals = s.arrivals := rfl
@[simp] theorem State.poke_targetFrequency : (s.poke a v).targetFrequency = s.targetFrequency := rfl
@[simp] theorem State.poke_params : (s.poke a v).params = s.params := rfl

@[simp] theorem State.takeArrivals_cpu : s.takeArrivals.cpu = s.cpu := by
  unfold State.takeArrivals; split <;> rfl
@[simp] theorem State.takeArrivals_bus : s.takeArrivals.bus = s.bus := by
  unfold State.takeArrivals; split <;> rfl
@[simp] theorem State.takeArrivals_clock : s.takeArrivals.clock = s.clock := by
  unfold State.takeArrivals; split <;> rfl
@[simp] theorem State.takeArrivals_refused : s.takeArrivals.refused = s.refused := by
  unfold State.takeArrivals; split <;> rfl
@[simp] theorem State.takeArrivals_devices : s.takeArrivals.devices = s.devices := by
  unfold State.takeArrivals; split <;> rfl
@[simp] theorem State.takeArrivals_runState : s.takeArrivals.runState = s.runState := by
  unfold State.takeArrivals; split <;> rfl
@[simp] theorem State.takeArrivals_timers : s.takeArrivals.timers = s.timers := by
  unfold State.takeArrivals; split <;> rfl
@[simp] theorem State.takeArrivals_targetFrequency : s.takeArrivals.targetFrequency = s.targetFrequency := by
  unfold State.takeArrivals; split <;> rfl
@[simp] theorem State.takeArrivals_params : s.takeArrivals.params = s.params := by
  unfold State.takeArrivals; split <;> rfl

@[simp] theorem State.pulse_cpu : (s.pulse t k).cpu = s.cpu := by
  simp only [State.pulse]; split_ifs <;> rfl
@[simp] theorem State.pulse_clock : (s.pulse t k).clock = s.clock := by
  simp only [State.pulse]; split_ifs <;> rfl
@[simp] theorem State.pulse_refused : (s.pulse t k).refused = s.refused := by
  simp only [State.pulse]; split_ifs <;> rfl
@[simp] theorem State.pulse_devices : (s.pulse t k).devices = s.devices := by
  simp only [State.pulse]; split_ifs <;> rfl
@[simp] theorem State.pulse_runState : (s.pulse t k).runState = s.runState := by
  simp only [State.pulse]; split_ifs <;> rfl
@[simp] theorem State.pulse_queue : (s.pulse t k).queue = s.queue := by
  simp only [State.pulse]; split_ifs <;> rfl
@[simp] theorem State.pulse_arrivals : (s.pulse t k).arrivals = s.arrivals := by
  simp only [State.pulse]; split_ifs <;> rfl
@[simp] theorem State.pulse_targetFrequency : (s.pulse t k).targetFrequency = s.targetFrequency := by
  simp only [State.pulse]; split_ifs <;> rfl
@[simp] theorem State.pulse_params : (s.pulse t k).params = s.params := by
  simp only [State.pulse]; split_ifs <;> rfl

end Board

/-- What arrives joins the queue behind what waits (log 9). -/
theorem State.takeArrivals_eq (s : State) :
    s.takeArrivals = { s with queue := s.queue ++ s.arrivals.head?.getD [], arrivals := s.arrivals.tail } := by
  obtain ⟨n, ds, r, q, ts, a, f, p⟩ := s
  cases a <;> simp [State.takeArrivals]

/-- The dispatch of a list of devices as a fold over it, the node handed on from device to device (R160). -/
theorem dispatchAll_eq_foldl (X : ExecTable) (mask : Byte) (ds done : List Device) (n : Node) :
    ds.foldl (fun p d => (p.1 ++ [(d.dispatch X mask p.2).1], (d.dispatch X mask p.2).2)) (done, n) =
      (done ++ (dispatchAll X mask ds n).1, (dispatchAll X mask ds n).2) := by
  induction ds generalizing done n with
  | nil => simp [dispatchAll]
  | cons d ds ih => simp [dispatchAll, ih]

@[simp] theorem State.construction_devices (p : Params) (ds : List Device) :
    (State.construction p ds).devices = ds.map Device.fresh := rfl
@[simp] theorem State.construction_cpu (p : Params) (ds : List Device) : (State.construction p ds).cpu = Cpu.zero := rfl
@[simp] theorem Device.fresh_last (d : Device) : d.fresh.last = none := rfl
@[simp] theorem Device.fresh_divider (d : Device) : d.fresh.divider = d.divider := rfl
@[simp] theorem Device.fresh_name (d : Device) : d.fresh.name = d.name := rfl

end Sys2Proof.Machine
end

