-- ==== Sys2Proof/Laws/Cycles.lean ====
section
/-!
SUPPORT. One CPU tick on a board on which nothing interferes, and the memory-read (R210) and memory-write (R215) cycles
as one law each, from just after one clock.tick() to just after another.
-/
namespace Sys2Proof.Machine

/-! ## The CPU in the middle of a cycle -/

/-- The CPU at a phase, with the latches as a tick without NMI and RESET leaves them. -/
def Cpu.atPhase (c : Cpu) (st : HalfStep) : Cpu := { c with step := st, nmiSampled := false, resetStep := 0 }

section AtPhase
variable (c : Cpu) (st st' : HalfStep) (r : Reg8) (v : Byte) (a : AddrSel) (ps : List PostAction) (p : PostAction)

@[simp] theorem Cpu.atPhase_step : (c.atPhase st).step = st := rfl
@[simp] theorem Cpu.atPhase_mc : (c.atPhase st).mc = c.mc := rfl
@[simp] theorem Cpu.atPhase_pipe : (c.atPhase st).pipe = c.pipe := rfl
@[simp] theorem Cpu.atPhase_halted : (c.atPhase st).halted = c.halted := rfl
@[simp] theorem Cpu.atPhase_iack : (c.atPhase st).iack = c.iack := rfl
@[simp] theorem Cpu.atPhase_busGranted : (c.atPhase st).busGranted = c.busGranted := rfl
@[simp] theorem Cpu.atPhase_nmiPending : (c.atPhase st).nmiPending = c.nmiPending := rfl
@[simp] theorem Cpu.atPhase_iff1 : (c.atPhase st).iff1 = c.iff1 := rfl
@[simp] theorem Cpu.atPhase_pc : (c.atPhase st).pc = c.pc := rfl
@[simp] theorem Cpu.atPhase_i : (c.atPhase st).i = c.i := rfl
@[simp] theorem Cpu.atPhase_r : (c.atPhase st).r = c.r := rfl
@[simp] theorem Cpu.atPhase_atPhase : (c.atPhase st).atPhase st' = c.atPhase st' := rfl
@[simp] theorem Cpu.nextStep_atPhase : (c.atPhase st).nextStep = c.atPhase st.next := rfl
@[simp] theorem Cpu.address_atPhase : (c.atPhase st).address a = c.address a := by cases a <;> rfl
@[simp] theorem Cpu.get8_atPhase : (c.atPhase st).get8 r = c.get8 r := by cases r <;> rfl
theorem Cpu.set8_atPhase : (c.atPhase st).set8 r v = (c.set8 r v).atPhase st := by cases r <;> rfl
theorem PostAction.apply_atPhase : p.apply (c.atPhase st) = (p.apply c).atPhase st := by
  cases p with
  | jumpWZIfNZ =>
    have e : (c.atPhase st).flagZ = c.flagZ := rfl
    cases h : c.flagZ <;> simp only [PostAction.apply, e, h] <;> rfl
  | _ => rfl
theorem Cpu.applyPost_atPhase : (c.atPhase st).applyPost ps = (c.applyPost ps).atPhase st := by
  induction ps generalizing c with
  | nil => rfl
  | cons p ps ih =>
    simp only [Cpu.applyPost, List.foldl_cons, PostAction.apply_atPhase] at ih ⊢
    exact ih _
@[simp] theorem Cpu.endCycle_atPhase : (c.atPhase st).endCycle = c.endCycle.atPhase .done := rfl

end AtPhase

/-- The node at a phase of a cycle, with no event pending and no mark. -/
def Node.mid (c : Cpu) (st : HalfStep) (b : Bus) (k : Int) : Node := ⟨c.atPhase st, b, ⟨k, []⟩, none⟩

section Mid
variable (c : Cpu) (st : HalfStep) (b : Bus) (k : Int)
@[simp] theorem Node.mid_cpu : (Node.mid c st b k).cpu = c.atPhase st := rfl
@[simp] theorem Node.mid_bus : (Node.mid c st b k).bus = b := rfl
@[simp] theorem Node.mid_clock : (Node.mid c st b k).clock = ⟨k, []⟩ := rfl
@[simp] theorem Node.mid_refused : (Node.mid c st b k).refused = none := rfl
@[simp] theorem Node.clockTick_mid : (Node.mid c st b k).clockTick = Node.mid c st b (k + 1) := rfl
end Mid

/-- What never changes while a micro-op's cycle runs with nothing interfering. -/
structure Busy (c : Cpu) : Prop where
  pipe : c.pipe ≠ []
  granted : c.busGranted = false
  awake : c.halted = false
  noAck : c.iack = false

/-- None of RESET, BUSRQ, NMI, WAIT, RFSH is active. -/
structure Calm (b : Bus) : Prop where
  reset : b.active .reset = false
  busrq : b.active .busrq = false
  nmi : b.active .nmi = false
  wait : b.active .wait = false

/-- The latches as a tick without NMI and RESET leaves them. -/
def Cpu.settle (c : Cpu) : Cpu := { c with nmiSampled := false, resetStep := 0 }

/-- The CPU's tick with nothing interfering and no interrupt to take: one phase of normal decode (R182). -/
theorem cpuTick_calm {X : ExecTable} {mask : Byte} {n : Node} (hb : Calm n.bus) (hg : n.cpu.busGranted = false)
    (hn : (n.cpu.nmiPending && n.cpu.normalise.atBoundary) = false)
    (hi : (n.bus.active .int && n.cpu.iff1 && n.cpu.normalise.atBoundary) = false) :
    cpuTick X mask n = normalDecode X mask { n with cpu := n.cpu.normalise.settle } := by
  obtain ⟨h1, h2, h3, -⟩ := hb
  have hs : (n.cpu.sampleNmi n.bus).normalise = { n.cpu.normalise with nmiSampled := false } := by
    simp only [Cpu.sampleNmi, h3, Cpu.normalise, Bool.false_and, Bool.or_false]
    split_ifs <;> rfl
  have e1 : n.cpu.normalise.settle.busGranted = false := by simp [Cpu.settle, hg]
  have e2 : (n.cpu.normalise.settle.nmiPending && n.cpu.normalise.settle.atBoundary) = false := by
    rw [← hn, ← Cpu.normalise_nmiPending n.cpu]
    rfl
  have e3 : (n.bus.active .int && n.cpu.normalise.settle.iff1 && n.cpu.normalise.settle.atBoundary) = false := by
    rw [← hi, ← Cpu.normalise_iff1 n.cpu]
    rfl
  unfold cpuTick prioritise
  rw [hs]
  simp only [h1, h2, Bool.false_and, Bool.or_false, Bool.false_eq_true, if_false]
  change (if n.cpu.normalise.settle.busGranted = true then _
    else if (n.cpu.normalise.settle.nmiPending && n.cpu.normalise.settle.atBoundary) = true then _
    else if (n.bus.active .int && n.cpu.normalise.settle.iff1 && n.cpu.normalise.settle.atBoundary) = true then _
    else _) = _
  simp only [e1, e2, e3, Bool.false_eq_true, if_false]
  rfl

/-- The CPU's tick in the middle of a micro-op's cycle. -/
theorem cpuTick_mid {X : ExecTable} {mask : Byte} {c : Cpu} {st : HalfStep} {b : Bus} {k : Int} (hc : Busy c)
    (hm : c.mc ≠ .m1) (hb : Calm b) :
    cpuTick X mask (.mid c st b k) = microPhase (.mid c (if st = .done then .t1h1 else st) b k) := by
  obtain ⟨p1, p2, p3, p4⟩ := hc
  have hn : (c.atPhase st).normalise = c.atPhase (if st = .done then .t1h1 else st) := by
    by_cases h : st = .done
    · rw [if_pos h, Cpu.normalise_of_pipe _ (by simpa using h) (by simpa using p1)]
      rfl
    · rw [if_neg h, Cpu.normalise_of_ne_done _ (by simpa using h)]
  have hbd : (c.atPhase st).normalise.atBoundary = false := by
    rw [hn]
    simp [Cpu.atBoundary, p1]
  rw [cpuTick_calm (by simpa using hb) (by simpa using p2) (by simp [hbd]) (by simp [hbd])]
  have e : ({ (Node.mid c st b k) with cpu := (Node.mid c st b k).cpu.normalise.settle } : Node) =
      .mid c (if st = .done then .t1h1 else st) b k := by
    rw [Node.mid_cpu, hn]
    rfl
  rw [e, normalDecode]
  simp [p3, hm]

/-- rotate in the middle of a micro-op's cycle. -/
theorem rotate_mid {X : ExecTable} {mask : Byte} {c : Cpu} {st : HalfStep} {b : Bus} {k : Int} {m : RefMem}
    (hc : Busy c) (hm : c.mc ≠ .m1) (hb : Calm b) {c' : Cpu} {st' : HalfStep} {b' b'' : Bus} {m' : RefMem}
    (hp : microPhase (.mid c (if st = .done then .t1h1 else st) b k) = .mid c' st' b' k)
    (ht : m.tick b' = (m', b'')) :
    rotate X mask (.mid c st b k, m) = (.mid c' st' b'' (k + 1), m') := by
  have h : cpuTick X mask (.mid c st b k) = .mid c' st' b' k := by rw [cpuTick_mid hc hm hb, hp]
  simp only [rotate, cpuThenMemory, h, Node.mid_bus, ht]
  rfl

/-! ## The memory's tick -/

/-- Writing the same byte again changes nothing. -/
theorem RefMem.afterWrite_afterWrite {m : RefMem} (hm : Memory.wf m.bytes = true) (a : Word) (v : Byte) :
    (m.afterWrite a v).afterWrite a v = m.afterWrite a v := by
  by_cases h : (m.decodes a && m.writable) = true
  · have e : m.afterWrite a v = m.store a v := by simp [RefMem.afterWrite, h]
    rw [e]
    unfold RefMem.afterWrite
    have h' : ((m.store a v).decodes a && (m.store a v).writable) = true := h
    rw [if_pos h', RefMem.store_store hm]
  · have e : m.afterWrite a v = m := by simp only [RefMem.afterWrite, h]; rfl
    rw [e, e]

section Tick
variable {m : RefMem} {b : Bus}

/-- Neither read nor written, and not driving: nothing happens. -/
theorem RefMem.tick_idle (hr : b.active .rd = false) (hw : b.active .wr = false) (hd : m.driving = false) :
    m.tick b = (m, b) := by
  simp [RefMem.tick, RefMem.driveOrRelease, RefMem.takeWrite, RefMem.selectedForRead, RefMem.selectedForWrite, hr, hw,
    hd]

/-- The lines a tick of the memory leaves alone. -/
structure SameControl (b b' : Bus) : Prop where
  lines : ∀ l : Line, l.control = true → b'.active l = b.active l
  addr : b'.addrRead = b.addrRead

theorem SameControl.refl (b : Bus) : SameControl b b := ⟨fun _ _ => rfl, rfl⟩
theorem SameControl.dataWrite (b : Bus) (v : Byte) : SameControl b (b.dataWrite v) :=
  ⟨fun l h => by simp [Bus.active, Bus.activeAt, Bus.get_dataWrite b l v h], rfl⟩
theorem SameControl.dataRelease (b : Bus) : SameControl b b.dataRelease :=
  ⟨fun l h => by simp [Bus.active, Bus.activeAt, Bus.get_dataRelease b l h], rfl⟩

theorem SameControl.calm {b b' : Bus} (h : SameControl b b') (hb : Calm b) : Calm b' :=
  ⟨by rw [h.lines _ rfl, hb.1], by rw [h.lines _ rfl, hb.2], by rw [h.lines _ rfl, hb.3], by rw [h.lines _ rfl, hb.4]⟩

/-- Selected for a read, or not decoding and the lines undriven: the data lines carry `answer` (R76, R79). -/
theorem RefMem.tick_read (hq : b.active .mreq = true) (hr : b.active .rd = true) (hf : b.active .rfsh = false)
    (hw : b.active .wr = false) (hd : m.driving = true → m.decodes b.addrRead = true)
    (hz : m.decodes b.addrRead = false → b.dataRead = 0x00#8) :
    ∃ b', m.tick b = ({ m with driving := m.decodes b.addrRead }, b') ∧ SameControl b b' ∧
      b'.dataRead = m.answer b.addrRead := by
  by_cases h : m.decodes b.addrRead = true
  · refine ⟨b.dataWrite (m.byteAt b.addrRead), ?_, .dataWrite _ _, by simp [RefMem.answer, h]⟩
    simp [RefMem.tick, RefMem.driveOrRelease, RefMem.takeWrite, RefMem.selectedForRead, RefMem.selectedForWrite, hr,
      hw, hq, hf, h]
  · have hn : m.decodes b.addrRead = false := by simpa using h
    have hd' : m.driving = false := by
      cases hv : m.driving
      · rfl
      · exact absurd (hd hv) h
    refine ⟨b, ?_, .refl _, by simp [RefMem.answer, hn, hz hn]⟩
    have e : ({ m with driving := false } : RefMem) = m := by rw [← hd']
    simp [RefMem.tick, RefMem.driveOrRelease, RefMem.takeWrite, RefMem.selectedForRead, RefMem.selectedForWrite, hr,
      hw, hq, hf, hn, hd', e]

/-- No longer read: the lines that were driven are released (R76). -/
theorem RefMem.tick_release (hr : b.active .rd = false) (hw : b.active .wr = false)
    (hz : m.driving = false → b.dataRead = 0x00#8) :
    ∃ b', m.tick b = ({ m with driving := false }, b') ∧ SameControl b b' ∧ b'.dataRead = 0x00#8 := by
  cases hd : m.driving
  · have e : ({ m with driving := false } : RefMem) = m := by rw [← hd]
    exact ⟨b, by rw [RefMem.tick_idle hr hw hd, e], .refl _, hz hd⟩
  · refine ⟨b.dataRelease, ?_, .dataRelease _, by simp⟩
    simp [RefMem.tick, RefMem.driveOrRelease, RefMem.takeWrite, RefMem.selectedForRead, RefMem.selectedForWrite, hr,
      hw, hd]

/-- Selected for a write: the byte on the data lines is taken, if the device may be written (R77). -/
theorem RefMem.tick_write (hq : b.active .mreq = true) (hw : b.active .wr = true) (hf : b.active .rfsh = false)
    (hr : b.active .rd = false) (hd : m.driving = false) :
    m.tick b = (m.afterWrite b.addrRead b.dataRead, b) := by
  by_cases h : m.decodes b.addrRead = true
  · by_cases hy : m.writable = true
    · simp [RefMem.tick, RefMem.driveOrRelease, RefMem.takeWrite, RefMem.selectedForRead, RefMem.selectedForWrite, hr,
        hw, hq, hf, hd, RefMem.afterWrite, h, hy]
    · simp [RefMem.tick, RefMem.driveOrRelease, RefMem.takeWrite, RefMem.selectedForRead, RefMem.selectedForWrite, hr,
        hw, hq, hf, hd, RefMem.afterWrite, hy]
  · simp [RefMem.tick, RefMem.driveOrRelease, RefMem.takeWrite, RefMem.selectedForRead, RefMem.selectedForWrite, hr,
      hw, hq, hf, hd, RefMem.afterWrite, h]

end Tick

end Sys2Proof.Machine
end

