-- ==== Sys2Proof/Laws/MicroOps.lean ====
section
/-!
SUPPORT. The memory-read cycle (R210) and the memory-write cycle (R215) as one law each, and a whole list of micro-ops
drained in FIFO order (R201).
-/
namespace Sys2Proof.Machine

/-- The lines between two cycles: nothing interferes, no strobe is active, nobody drives the data lines. -/
structure Quiet (b : Bus) : Prop extends Calm b where
  rfsh : b.active .rfsh = false
  rd : b.active .rd = false
  wr : b.active .wr = false
  data : b.dataRead = 0x00#8

/-- What a micro-op does to the register file and the memory, its bus cycle left out. -/
def MicroOp.effect (u : MicroOp) (p : Cpu × RefMem) : Cpu × RefMem :=
  match u with
  | .mr asel dst post => ((p.1.set8 dst (p.2.answer (p.1.address asel))).applyPost post, p.2)
  | .mw asel src post => (p.1.applyPost post, p.2.afterWrite (p.1.address asel) (p.1.get8 src))

/-! ## The phases -/

section Phases
variable {c : Cpu} {b : Bus} {k : Int} {asel : AddrSel} {dst src : Reg8} {post : List PostAction} {rest : List MicroOp}

theorem mr_t1h1 (h : c.pipe = .mr asel dst post :: rest) :
    microPhase (.mid c .t1h1 b k) = .mid c .t1h2 (b.addrWrite (c.address asel)) k := by
  simp only [microPhase, Node.mid_cpu, Cpu.atPhase_pipe, h, mrPhase, Cpu.atPhase_step, Cpu.address_atPhase]
  rfl

theorem mr_t1h2 (h : c.pipe = .mr asel dst post :: rest) :
    microPhase (.mid c .t1h2 b k) = .mid c .t2h1 ((b.set .mreq .low).set .rd .low) k := by
  simp only [microPhase, Node.mid_cpu, Cpu.atPhase_pipe, h, mrPhase, Cpu.atPhase_step]
  rfl

theorem mr_t2h1 (h : c.pipe = .mr asel dst post :: rest) (hw : b.active .wait = false) :
    microPhase (.mid c .t2h1 b k) = .mid c .t2h2 b k := by
  simp only [microPhase, Node.mid_cpu, Cpu.atPhase_pipe, h, mrPhase, Cpu.atPhase_step, Node.waitPhase, Node.mid_bus,
    hw, Bool.false_eq_true, if_false]
  rfl

theorem mr_t2h2 (h : c.pipe = .mr asel dst post :: rest) :
    microPhase (.mid c .t2h2 b k) = .mid c .t3h1 b k := by
  simp only [microPhase, Node.mid_cpu, Cpu.atPhase_pipe, h, mrPhase, Cpu.atPhase_step]
  rfl

theorem mr_t3h1 (h : c.pipe = .mr asel dst post :: rest) :
    microPhase (.mid c .t3h1 b k) = .mid c .t3h2 b k := by
  simp only [microPhase, Node.mid_cpu, Cpu.atPhase_pipe, h, mrPhase, Cpu.atPhase_step]
  rfl

theorem mr_t3h2 (h : c.pipe = .mr asel dst post :: rest) :
    microPhase (.mid c .t3h2 b k) =
      .mid ((c.set8 dst b.dataRead).applyPost post).endCycle .done ((b.set .mreq .high).set .rd .high) k := by
  simp only [microPhase, Node.mid_cpu, Cpu.atPhase_pipe, h, mrPhase, Cpu.atPhase_step, mrT3H2, Node.mid_bus,
    Cpu.set8_atPhase, Cpu.applyPost_atPhase, Cpu.endCycle_atPhase]
  rfl

theorem mw_t1h1 (h : c.pipe = .mw asel src post :: rest) :
    microPhase (.mid c .t1h1 b k) = .mid c .t1h2 (b.addrWrite (c.address asel)) k := by
  simp only [microPhase, Node.mid_cpu, Cpu.atPhase_pipe, h, mwPhase, Cpu.atPhase_step, Cpu.address_atPhase]
  rfl

theorem mw_t1h2 (h : c.pipe = .mw asel src post :: rest) :
    microPhase (.mid c .t1h2 b k) = .mid c .t2h1 ((b.set .mreq .low).dataWrite (c.get8 src)) k := by
  simp only [microPhase, Node.mid_cpu, Cpu.atPhase_pipe, h, mwPhase, Cpu.atPhase_step, Cpu.get8_atPhase]
  rfl

theorem mw_t2h1 (h : c.pipe = .mw asel src post :: rest) (hw : b.active .wait = false) :
    microPhase (.mid c .t2h1 b k) = .mid c .t2h2 b k := by
  simp only [microPhase, Node.mid_cpu, Cpu.atPhase_pipe, h, mwPhase, Cpu.atPhase_step, Node.waitPhase, Node.mid_bus,
    hw, Bool.false_eq_true, if_false]
  rfl

theorem mw_t2h2 (h : c.pipe = .mw asel src post :: rest) :
    microPhase (.mid c .t2h2 b k) = .mid c .t3h1 (b.set .wr .low) k := by
  simp only [microPhase, Node.mid_cpu, Cpu.atPhase_pipe, h, mwPhase, Cpu.atPhase_step]
  rfl

theorem mw_t3h1 (h : c.pipe = .mw asel src post :: rest) :
    microPhase (.mid c .t3h1 b k) = .mid c .t3h2 b k := by
  simp only [microPhase, Node.mid_cpu, Cpu.atPhase_pipe, h, mwPhase, Cpu.atPhase_step]
  rfl

theorem mw_t3h2 (h : c.pipe = .mw asel src post :: rest) :
    microPhase (.mid c .t3h2 b k) =
      .mid (c.applyPost post).endCycle .done ((b.set .wr .high).set .mreq .high).dataRelease k := by
  simp only [microPhase, Node.mid_cpu, Cpu.atPhase_pipe, h, mwPhase, Cpu.atPhase_step, mwT3H2, Node.mid_bus,
    Cpu.applyPost_atPhase, Cpu.endCycle_atPhase]
  rfl

end Phases

/-! ## The cycles -/

section Cycle
variable {X : ExecTable} {mask : Byte} {c : Cpu} {b : Bus} {k : Int} {m : RefMem} {asel : AddrSel} {dst src : Reg8}
  {post : List PostAction} {rest : List MicroOp} {st : HalfStep}

/-- A cycle starts from a complete cursor or, after NMI entry, from T1_H1. -/
theorem starts (hst : st = .done ∨ st = .t1h1) : (if st = .done then HalfStep.t1h1 else st) = .t1h1 := by
  rcases hst with rfl | rfl <;> rfl

/-- With a micro-op in the pipeline the CPU is not at rest. -/
theorem Busy.not_idle (h : Busy c) (hm : c.mc ≠ .m1) (st : HalfStep) : (c.atPhase st).idle = false := by
  obtain ⟨h, -, -, -⟩ := h
  simp [Cpu.idle, h, hm]

theorem RefMem.not_driving (hd : m.driving = false) : ({ m with driving := false } : RefMem) = m := by rw [← hd]

/-- The MR cycle: six ticks, and then the register half holds the byte the address answers with, and the post-actions
are done (R210). -/
theorem mr_cycle (hst : st = .done ∨ st = .t1h1) (hc : Busy c) (hm : c.mc ≠ .m1) (hb : Quiet b) (hd : m.driving = false)
    (hp : c.pipe = .mr asel dst post :: rest) :
    ∃ b', Quiet b' ∧ b'.active .int = b.active .int ∧
      Reaches X mask Cpu.idle 6 (.mid c st b k, m)
        (.mid ((c.set8 dst (m.answer (c.address asel))).applyPost post).endCycle .done b' (k + 6), m) := by
  obtain ⟨⟨q1, q2, q3, q4⟩, q5, q6, q7, q8⟩ := hb
  -- T1_H1
  have r1 := rotate_mid (X := X) (mask := mask) (k := k) (m := m) hc hm ⟨q1, q2, q3, q4⟩ (st := st)
    (by rw [starts hst]; exact mr_t1h1 hp) (RefMem.tick_idle (by simpa using q6) (by simpa using q7) hd)
  -- T1_H2
  have c2 : Calm (b.addrWrite (c.address asel)) := ⟨by simpa, by simpa, by simpa, by simpa⟩
  obtain ⟨b2, t2, s2, d2⟩ := RefMem.tick_read (m := m)
    (b := ((b.addrWrite (c.address asel)).set .mreq .low).set .rd .low) (by simp) (by simp) (by simpa using q5)
    (by simpa using q7) (by simp [hd]) (by simp [q8])
  have r2 := rotate_mid (X := X) (mask := mask) (k := k + 1) hc hm c2 (st := .t1h2) (mr_t1h2 hp) t2
  -- T2_H1
  have a2 : b2.addrRead = c.address asel := by rw [s2.addr]; simp
  have c2' : Calm b2 := s2.calm ⟨by simpa, by simpa, by simpa, by simpa⟩
  have f2 : b2.active .mreq = true := by rw [s2.lines _ rfl]; simp
  have g2 : b2.active .rd = true := by rw [s2.lines _ rfl]; simp
  have h2 : b2.active .rfsh = false := by rw [s2.lines _ rfl]; simpa using q5
  have i2 : b2.active .wr = false := by rw [s2.lines _ rfl]; simpa using q7
  have j2 : b2.active .int = b.active .int := by rw [s2.lines _ rfl]; simp
  simp only [Bus.addrRead_set_mreq, Bus.addrRead_set_rd, Bus.addrRead_addrWrite] at t2 d2 r2
  generalize hA : c.address asel = A at *
  have hold : ∀ b2 : Bus, b2.addrRead = A → Calm b2 → b2.active .mreq = true → b2.active .rd = true →
      b2.active .rfsh = false → b2.active .wr = false → b2.dataRead = m.answer A →
      ∃ b3, ({ m with driving := m.decodes A } : RefMem).tick b2 = ({ m with driving := m.decodes A }, b3) ∧
        SameControl b2 b3 ∧ b3.dataRead = m.answer A := by
    intro b2 a2 _ f2 g2 h2 i2 d2
    have h := RefMem.tick_read (m := { m with driving := m.decodes A }) f2 g2 h2 i2 (by rw [a2]; exact fun h => h)
      (by rw [a2, d2]; intro h; have h : m.decodes A = false := h; simp [RefMem.answer, h])
    rw [a2] at h
    exact h
  obtain ⟨b3, t3, s3, d3⟩ := hold b2 a2 c2' f2 g2 h2 i2 d2
  have r3 := rotate_mid (X := X) (mask := mask) (k := k + 1 + 1) hc hm c2' (st := .t2h1) (mr_t2h1 hp c2'.wait) t3
  -- T2_H2
  have a3 : b3.addrRead = A := by rw [s3.addr, a2]
  have c3 := s3.calm c2'
  have f3 : b3.active .mreq = true := by rw [s3.lines _ rfl, f2]
  have g3 : b3.active .rd = true := by rw [s3.lines _ rfl, g2]
  have h3 : b3.active .rfsh = false := by rw [s3.lines _ rfl, h2]
  have i3 : b3.active .wr = false := by rw [s3.lines _ rfl, i2]
  have j3 : b3.active .int = b.active .int := by rw [s3.lines _ rfl, j2]
  obtain ⟨b4, t4, s4, d4⟩ := hold b3 a3 c3 f3 g3 h3 i3 d3
  have r4 := rotate_mid (X := X) (mask := mask) (k := k + 1 + 1 + 1) hc hm c3 (st := .t2h2) (mr_t2h2 hp) t4
  -- T3_H1
  have a4 : b4.addrRead = A := by rw [s4.addr, a3]
  have c4 := s4.calm c3
  have f4 : b4.active .mreq = true := by rw [s4.lines _ rfl, f3]
  have g4 : b4.active .rd = true := by rw [s4.lines _ rfl, g3]
  have h4 : b4.active .rfsh = false := by rw [s4.lines _ rfl, h3]
  have i4 : b4.active .wr = false := by rw [s4.lines _ rfl, i3]
  have j4 : b4.active .int = b.active .int := by rw [s4.lines _ rfl, j3]
  obtain ⟨b5, t5, s5, d5⟩ := hold b4 a4 c4 f4 g4 h4 i4 d4
  have r5 := rotate_mid (X := X) (mask := mask) (k := k + 1 + 1 + 1 + 1) hc hm c4 (st := .t3h1) (mr_t3h1 hp) t5
  -- T3_H2
  have c5 := s5.calm c4
  have h5 : b5.active .rfsh = false := by rw [s5.lines _ rfl, h4]
  have i5 : b5.active .wr = false := by rw [s5.lines _ rfl, i4]
  have j5 : b5.active .int = b.active .int := by rw [s5.lines _ rfl, j4]
  obtain ⟨b6, t6, s6, d6⟩ := RefMem.tick_release (m := { m with driving := m.decodes A })
    (b := (b5.set .mreq .high).set .rd .high) (by simp) (by simpa using i5)
    (by intro h; have h : m.decodes A = false := h; simp [d5, RefMem.answer, h])
  have r6 := rotate_mid (X := X) (mask := mask) (k := k + 1 + 1 + 1 + 1 + 1) hc hm c5 (st := .t3h2)
    (mr_t3h2 hp) t6
  have e6 : ({ ({ m with driving := m.decodes A } : RefMem) with driving := false } : RefMem) = m := by rw [← hd]
  rw [e6, d5] at r6
  have c6 : Calm b6 := s6.calm ⟨by simpa using c5.1, by simpa using c5.2, by simpa using c5.3, by simpa using c5.4⟩
  refine ⟨b6, ⟨c6, ?_, ?_, ?_, d6⟩, ?_, ?_⟩
  · rw [s6.lines _ rfl]; simpa using h5
  · rw [s6.lines _ rfl]; simp
  · rw [s6.lines _ rfl]; simpa using i5
  · rw [s6.lines _ rfl, ← j5]; simp
  · have ek : k + 6 = k + 1 + 1 + 1 + 1 + 1 + 1 := by omega
    rw [ek]
    exact .more r1 rfl (hc.not_idle hm _) (.more r2 rfl (hc.not_idle hm _) (.more r3 rfl (hc.not_idle hm _)
      (.more r4 rfl (hc.not_idle hm _) (.more r5 rfl (hc.not_idle hm _) (.last r6 rfl)))))

/-- The MW cycle: six ticks, and then the memory has taken the byte where it decodes the address and may be written,
and the post-actions are done (R215, R77). -/
theorem mw_cycle (hst : st = .done ∨ st = .t1h1) (hc : Busy c) (hm : c.mc ≠ .m1) (hb : Quiet b) (hd : m.driving = false)
    (hw : Memory.wf m.bytes = true) (hp : c.pipe = .mw asel src post :: rest) :
    ∃ b', Quiet b' ∧ b'.active .int = b.active .int ∧
      Reaches X mask Cpu.idle 6 (.mid c st b k, m)
        (.mid (c.applyPost post).endCycle .done b' (k + 6), m.afterWrite (c.address asel) (c.get8 src)) := by
  obtain ⟨⟨q1, q2, q3, q4⟩, q5, q6, q7, q8⟩ := hb
  generalize hA : c.address asel = A
  generalize hV : c.get8 src = V
  -- T1_H1
  have r1 := rotate_mid (X := X) (mask := mask) (k := k) (m := m) hc hm ⟨q1, q2, q3, q4⟩ (st := st)
    (by rw [starts hst]; exact mw_t1h1 hp) (RefMem.tick_idle (by simpa using q6) (by simpa using q7) hd)
  rw [hA] at r1
  -- T1_H2
  have c2 : Calm (b.addrWrite A) := ⟨by simpa, by simpa, by simpa, by simpa⟩
  have r2 := rotate_mid (X := X) (mask := mask) (k := k + 1) (m := m) hc hm c2 (st := .t1h2) (mw_t1h2 hp)
    (RefMem.tick_idle (by simpa using q6) (by simpa using q7) hd)
  rw [hV] at r2
  -- T2_H1
  obtain ⟨b2, e2⟩ : ∃ b2, b2 = ((b.addrWrite A).set .mreq .low).dataWrite V := ⟨_, rfl⟩
  rw [← e2] at r2
  have c3 : Calm b2 := by rw [e2]; exact ⟨by simpa, by simpa, by simpa, by simpa⟩
  have h1 : b2.active .rd = false := by rw [e2]; simpa using q6
  have h2 : b2.active .wr = false := by rw [e2]; simpa using q7
  have h3 : b2.active .rfsh = false := by rw [e2]; simpa using q5
  have h4 : b2.active .mreq = true := by rw [e2]; simp
  have h5 : b2.active .int = b.active .int := by rw [e2]; simp
  have h6 : b2.addrRead = A := by rw [e2]; simp
  have h7 : b2.dataRead = V := by rw [e2]; simp
  have r3 := rotate_mid (X := X) (mask := mask) (k := k + 1 + 1) (m := m) hc hm c3 (st := .t2h1)
    (mw_t2h1 hp c3.wait) (RefMem.tick_idle h1 h2 hd)
  -- T2_H2
  have t4 : m.tick (b2.set .wr .low) = (m.afterWrite A V, b2.set .wr .low) := by
    have h := RefMem.tick_write (m := m) (b := b2.set .wr .low) (by simpa using h4) (by simp) (by simpa using h3)
      (by simpa using h1) hd
    rw [h]
    simp [h6, h7]
  have r4 := rotate_mid (X := X) (mask := mask) (k := k + 1 + 1 + 1) hc hm c3 (st := .t2h2) (mw_t2h2 hp) t4
  -- T3_H1
  have c5 : Calm (b2.set .wr .low) := ⟨by simpa using c3.1, by simpa using c3.2, by simpa using c3.3, by simpa using c3.4⟩
  have hd' : (m.afterWrite A V).driving = false := by
    unfold RefMem.afterWrite
    split <;> exact hd
  have t5 : (m.afterWrite A V).tick (b2.set .wr .low) = (m.afterWrite A V, b2.set .wr .low) := by
    have h := RefMem.tick_write (m := m.afterWrite A V) (b := b2.set .wr .low) (by simpa using h4) (by simp)
      (by simpa using h3) (by simpa using h1) hd'
    rw [h]
    simp [h6, h7, RefMem.afterWrite_afterWrite hw]
  have r5 := rotate_mid (X := X) (mask := mask) (k := k + 1 + 1 + 1 + 1) hc hm c5 (st := .t3h1) (mw_t3h1 hp) t5
  -- T3_H2
  have r6 := rotate_mid (X := X) (mask := mask) (k := k + 1 + 1 + 1 + 1 + 1) (m := m.afterWrite A V) hc hm c5
    (st := .t3h2) (mw_t3h2 hp) (RefMem.tick_idle (by simpa using h1) (by simp) hd')
  refine ⟨(((b2.set .wr .low).set .wr .high).set .mreq .high).dataRelease,
    ⟨⟨?_, ?_, ?_, ?_⟩, ?_, ?_, ?_, ?_⟩, ?_, ?_⟩
  case refine_10 =>
    have ek : k + 6 = k + 1 + 1 + 1 + 1 + 1 + 1 := by omega
    rw [ek]
    exact .more r1 rfl (hc.not_idle hm _) (.more r2 rfl (hc.not_idle hm _) (.more r3 rfl (hc.not_idle hm _)
      (.more r4 rfl (hc.not_idle hm _) (.more r5 rfl (hc.not_idle hm _) (.last r6 rfl)))))
  · simpa using c3.1
  · simpa using c3.2
  · simpa using c3.3
  · simpa using c3.4
  · simpa using h3
  · simpa using h1
  · simp
  · simp
  · simpa using h5

end Cycle

/-! ## A list of micro-ops -/

/-- The register file and the memory after micro-ops, in order. -/
def MicroOp.effects (us : List MicroOp) (p : Cpu × RefMem) : Cpu × RefMem := us.foldl (fun p u => u.effect p) p

theorem RefMem.afterWrite_driving {m : RefMem} (a : Word) (v : Byte) : (m.afterWrite a v).driving = m.driving := by
  unfold RefMem.afterWrite
  split <;> rfl

theorem RefMem.afterWrite_wf {m : RefMem} (a : Word) (v : Byte) (hm : m.wf = true) : (m.afterWrite a v).wf = true := by
  unfold RefMem.afterWrite
  split
  · rename_i h
    simp only [Bool.and_eq_true] at h
    exact RefMem.wf_store_decodes v hm h.1
  · exact hm

section Effect
variable (u : MicroOp) (p : Cpu × RefMem)
@[simp] theorem MicroOp.effect_pipe : (u.effect p).1.pipe = p.1.pipe := by cases u <;> simp [MicroOp.effect]
@[simp] theorem MicroOp.effect_mc : (u.effect p).1.mc = p.1.mc := by cases u <;> simp [MicroOp.effect]
@[simp] theorem MicroOp.effect_busGranted : (u.effect p).1.busGranted = p.1.busGranted := by
  cases u <;> simp [MicroOp.effect]
@[simp] theorem MicroOp.effect_halted : (u.effect p).1.halted = p.1.halted := by cases u <;> simp [MicroOp.effect]
@[simp] theorem MicroOp.effect_iack : (u.effect p).1.iack = p.1.iack := by cases u <;> simp [MicroOp.effect]
@[simp] theorem MicroOp.effect_driving : (u.effect p).2.driving = p.2.driving := by
  cases u <;> simp [MicroOp.effect, RefMem.afterWrite_driving]
theorem MicroOp.effect_wf (h : p.2.wf = true) : (u.effect p).2.wf = true := by
  cases u with
  | mr => exact h
  | mw => exact RefMem.afterWrite_wf _ _ h
end Effect

/-- The cursor, with no other field: what EndCycle and Normalise touch. -/
theorem Cpu.set8_endCycle (c : Cpu) (r : Reg8) (v : Byte) : c.endCycle.set8 r v = (c.set8 r v).endCycle := by
  cases r <;> rfl
theorem Cpu.address_endCycle (c : Cpu) (a : AddrSel) : c.endCycle.address a = c.address a := by cases a <;> rfl
theorem Cpu.get8_endCycle (c : Cpu) (r : Reg8) : c.endCycle.get8 r = c.get8 r := by cases r <;> rfl
theorem PostAction.apply_endCycle (p : PostAction) (c : Cpu) : p.apply c.endCycle = (p.apply c).endCycle := by
  cases p with
  | jumpWZIfNZ =>
    have e : c.endCycle.flagZ = c.flagZ := rfl
    cases h : c.flagZ <;> simp only [PostAction.apply, e, h] <;> rfl
  | _ => rfl
theorem Cpu.applyPost_endCycle (c : Cpu) (ps : List PostAction) :
    c.endCycle.applyPost ps = (c.applyPost ps).endCycle := by
  induction ps generalizing c with
  | nil => rfl
  | cons p ps ih =>
    simp only [Cpu.applyPost, List.foldl_cons, PostAction.apply_endCycle] at ih ⊢
    exact ih _
theorem MicroOp.effect_endCycle (u : MicroOp) (c : Cpu) (m : RefMem) :
    u.effect (c.endCycle, m) = ((u.effect (c, m)).1.endCycle, (u.effect (c, m)).2) := by
  cases u <;>
    simp only [MicroOp.effect, Cpu.address_endCycle, Cpu.get8_endCycle, Cpu.set8_endCycle, Cpu.applyPost_endCycle]

theorem MicroOp.effects_endCycle (us : List MicroOp) (c : Cpu) (m : RefMem) :
    MicroOp.effects us (c.endCycle, m) = ((MicroOp.effects us (c, m)).1.endCycle, (MicroOp.effects us (c, m)).2) := by
  induction us generalizing c m with
  | nil => rfl
  | cons u us ih =>
    simp only [MicroOp.effects, List.foldl_cons, MicroOp.effect_endCycle] at ih ⊢
    exact ih _ _

/-- One micro-op's cycle. -/
theorem micro_cycle {X : ExecTable} {mask : Byte} {c : Cpu} {b : Bus} {k : Int} {m : RefMem} {u : MicroOp}
    {rest : List MicroOp} {st : HalfStep} (hst : st = .done ∨ st = .t1h1) (hg : c.busGranted = false) (hh : c.halted = false) (ha : c.iack = false)
    (hm : c.mc ≠ .m1) (hb : Quiet b) (hd : m.driving = false) (hw : m.wf = true) (hp : c.pipe = u :: rest) :
    ∃ b', Quiet b' ∧ b'.active .int = b.active .int ∧
      Reaches X mask Cpu.idle 6 (.mid c st b k, m)
        (.mid (u.effect (c, m)).1.endCycle .done b' (k + 6), (u.effect (c, m)).2) := by
  have hc : Busy c := ⟨by simp [hp], hg, hh, ha⟩
  cases u with
  | mr asel dst post => exact mr_cycle hst hc hm hb hd hp
  | mw asel src post => exact mw_cycle hst hc hm hb hd (RefMem.wf_canonical hw) hp

/-- Draining the pipeline: six ticks a micro-op, in FIFO order (R201), and the register file and the memory are those
of `MicroOp.effects`. The cursor ends complete and the pipeline empty. -/
theorem micro_cycles {X : ExecTable} {mask : Byte} :
    ∀ (us : List MicroOp) {c : Cpu} {b : Bus} {k : Int} {m : RefMem} {st : HalfStep}, us ≠ [] →
      st = .done ∨ st = .t1h1 → c.busGranted = false →
      c.halted = false → c.iack = false → c.mc ≠ .m1 → Quiet b → m.driving = false → m.wf = true → c.pipe = us →
      ∃ b' c', Quiet b' ∧ b'.active .int = b.active .int ∧
        c' = { (MicroOp.effects us (c, m)).1 with mc := c'.mc, pipe := [], step := .done } ∧
        Reaches X mask Cpu.idle (6 * us.length) (.mid c st b k, m)
          (.mid c' .done b' (k + 6 * us.length), (MicroOp.effects us (c, m)).2)
  | [], _, _, _, _, _, h, _, _, _, _, _, _, _, _, _ => absurd rfl h
  | [u], c, b, k, m, st, _, hst, hg, hh, ha, hm, hb, hd, hw, hp => by
    obtain ⟨b', h1, h2, h3⟩ := micro_cycle (X := X) (mask := mask) (k := k) hst hg hh ha hm hb hd hw hp
    refine ⟨b', (u.effect (c, m)).1.endCycle, h1, h2, ?_, by simpa [MicroOp.effects] using h3⟩
    have e : (u.effect (c, m)).1.pipe = [u] := by rw [MicroOp.effect_pipe]; exact hp
    simp only [MicroOp.effects, List.foldl_cons, List.foldl_nil]
    unfold Cpu.endCycle
    rw [e]
    rfl
  | u :: u' :: us, c, b, k, m, st, _, hst, hg, hh, ha, hm, hb, hd, hw, hp => by
    obtain ⟨b1, h1, h2, h3⟩ := micro_cycle (X := X) (mask := mask) (k := k) hst hg hh ha hm hb hd hw hp
    have e : (u.effect (c, m)).1.pipe = u :: u' :: us := by rw [MicroOp.effect_pipe]; exact hp
    have hm' : (u.effect (c, m)).1.endCycle.mc ≠ .m1 := by
      have e' : (u.effect (c, m)).1.endCycle.mc = c.mc.next := by simp
      rw [e']
      cases c.mc <;> decide
    obtain ⟨b', c', g1, g2, g3, g4⟩ := micro_cycles (X := X) (mask := mask) (u' :: us) (b := b1) (k := k + 6)
      (c := (u.effect (c, m)).1.endCycle) (m := (u.effect (c, m)).2) (st := .done) (by simp) (.inl rfl) (by simpa using hg) (by simpa using hh)
      (by simpa using ha) hm' h1 (by simpa using hd) (MicroOp.effect_wf _ _ hw) (by simp [Cpu.endCycle, hp])
    have hr : ((u.effect (c, m)).1.endCycle.atPhase .done).idle = false := by
      simp only [Cpu.idle, Cpu.atPhase_mc, Cpu.atPhase_pipe, beq_false_of_ne hm']
      simp [Cpu.endCycle, hp]
    refine ⟨b', c', g1, by rw [g2, h2], ?_, ?_⟩
    · rw [g3]
      simp only [MicroOp.effects_endCycle]
      rfl
    · have t := h3.trans (by simpa using hr) g4
      have e1 : 6 * (u' :: us).length + 6 = 6 * (u :: u' :: us).length := by simp; omega
      have e2 : k + 6 + 6 * ((u' :: us).length : Int) = k + 6 * ((u :: u' :: us).length : Int) := by
        simp only [List.length_cons]; push_cast; omega
      rw [e1, e2] at t
      have e3 : (MicroOp.effects (u' :: us) ((u.effect (c, m)).1.endCycle, (u.effect (c, m)).2)).2 =
          (MicroOp.effects (u :: u' :: us) (c, m)).2 := by rw [MicroOp.effects_endCycle]; rfl
      rw [e3] at t
      exact t

end Sys2Proof.Machine
end

