-- ==== Sys2Proof/Laws/Instruction.lean ====
section
/-!
SUPPORT. An instruction from the phase that executes its opcode to its end, and the fetch before it, on a board on which
nothing interferes: what `runEntry` and `State.fetch` answer, said once.
-/
namespace Sys2Proof.Machine

/-! ## The board as a pair -/

/-- A board of OnBoard is a pair of a CPU and a reference memory, and putting a node and a memory into the pair is the
frame of `Completes`. -/
theorem OnBoard.pair {s : State} {m : RefMem} (h : OnBoard s m) :
    ∃ c d, Idle s ∧ Pair c d ∧ s.devices = [c, d] ∧ d.kind = .refMem m ∧
      ∀ p : Node × RefMem, s.withBoard c d p = { s.withMemory p.2 with toNode := p.1 } := by
  have hb := h.board
  match hs : s.devices with
  | [] => simp [hs] at hb
  | [_] => simp [hs] at hb
  | _ :: _ :: _ :: _ => simp [hs] at hb
  | [c, d] =>
    simp only [hs, List.map_cons, List.map_nil, List.cons.injEq, Prod.mk.injEq, and_true] at hb
    obtain ⟨⟨h1, h2⟩, h3, h4⟩ := hb
    refine ⟨c, d, ⟨h.running, h.queue, h.arrivals, h.timers⟩, ⟨h1, h2, h4⟩, rfl, h3, fun p => ?_⟩
    simp [State.withBoard, State.withMemory, Device.withRefMem, hs, h1, h3]

/-- What a board comes to when the node's next tick is quiet and the CPU at rest. -/
theorem rested_of_mid {s : State} {m m' : RefMem} (h : OnBoard s m) {n : Node} {c : Cpu} {b : Bus} {k : Int}
    (hn : n.clockTick = .mid c .done b k) (hr : n.refused = none) (hk : n.clock.counter + 1 = k) (h0 : 0 ≤ k)
    (hb : Quiet b) (hd : m'.driving = false) (hw : m'.wf = true) (hg : c.busGranted = false) (ha : c.iack = false)
    (hp : c.pipe = []) : Rested { s.withMemory m' with toNode := n } m' (c.rested) := by
  obtain ⟨c₀, d₀, -, hpair, hdev, hkind, -⟩ := h.pair
  obtain ⟨⟨q1, q2, q3, q4⟩, q5, q6, q7, q8⟩ := hb
  have hc : n.cpu = { c.atPhase .done with pc := n.cpu.pc } := by
    have e := Node.clockTick_cpu n
    rw [hn] at e
    simp only [Node.mid_cpu] at e
    rw [e]
  have hT : State.clockTick { s.withMemory m' with toNode := n } =
      { s.withMemory m' with toNode := .mid c .done b k } := by
    simp only [State.clockTick, hn]
  refine ⟨⟨h.running, h.queue, h.arrivals, h.timers, hr, ?_, hw, ?_, ?_, ?_, ?_, ?_, ?_, ?_, ?_, hd, ?_, ?_⟩, ?_, ?_, ?_, ?_⟩
  · obtain ⟨k1, k2, k3⟩ := hpair
    simp [State.withMemory, Device.withRefMem, hdev, k1, k2, k3, hkind]
  · change -1 ≤ n.clock.counter
    omega
  · rw [hT]; exact q1
  · rw [hT]; exact q2
  · rw [hT]; exact q3
  · rw [hT]; exact q4
  · rw [hT]; exact q6
  · rw [hT]; exact q7
  · rw [hT]; exact q8
  · change n.cpu.busGranted = false
    rw [hc]; exact hg
  · change n.cpu.iack = false
    rw [hc]; exact ha
  · change n.cpu.atRest = true
    rw [hc]
    simp [Cpu.atRest, Cpu.atPhase, hp, ha]
  · rw [hT]; exact q5
  · rw [hT]; rfl
  · rw [hT]
    change (c.atPhase .done).normalise = _
    rw [Cpu.normalise_of_empty (c.atPhase .done) rfl hp]
    simp [Cpu.rested, Cpu.atPhase, hp]

/-! ## The phase that executes the opcode -/

/-- What R206 forbids an immediate action to write, as far as the run goes. -/
structure KeepsCursor (f : Cpu → Cpu) : Prop where
  pipe : ∀ c, (f c).pipe = c.pipe
  granted : ∀ c, (f c).busGranted = c.busGranted
  noAck : ∀ c, (f c).iack = c.iack
  latches : ∀ c, f c.settle = (f c).settle

/-- The CPU after T4_H2 of M1 and the delayed increment of PC (R197). -/
def Cpu.dispatched (c : Cpu) (e : Entry) : Cpu :=
  { e.imm c with pipe := e.ops, mc := .m2, pc := (e.imm c).pc + 1#16 }

/-- The lines after T4_H2 of M1, before the memory's tick (R197). -/
def Bus.dispatched (b : Bus) (halted : Bool) : Bus :=
  if halted then (b.set .mreq .high).set .halt .low else b.set .mreq .high

theorem m1T4H2_wired {e : Entry} {n : Node} (hp : n.cpu.pipe = [])
    (he : KeepsCursor e.imm) (hl : e.ops.length ≤ 8) :
    m1T4H2 (fun _ => some e) n =
      { n with
        cpu := { e.imm n.cpu with pipe := e.ops, mc := .m2, step := .done }
        bus := n.bus.dispatched (e.imm n.cpu).halted
        clock := n.clock.schedule Config.pcIncDelay .pcIncrement } := by
  have h1 : (e.imm n.cpu).pipe = [] := by rw [he.pipe, hp]
  unfold m1T4H2 Node.execute Node.applyEntry
  simp only
  rw [Node.pushAll_of_room _ _ (by simp [h1, hl])]
  simp only [h1, List.nil_append, Bus.dispatched]
  cases h : (e.imm n.cpu).halted <;> simp only [Bool.false_eq_true, if_false, if_true] <;> rfl

/-- T4_H2 of M1 and the next clock.tick(): the entry is applied, the refresh released, PC incremented (R197, R198). -/
theorem rotate_dispatch {e : Entry} {mask : Byte} {n : Node} {m : RefMem} {k : Int} (hm : n.cpu.mc = .m1)
    (hs : n.cpu.step = .t4h2) (hp : n.cpu.pipe = []) (hh : n.cpu.halted = false) (hg : n.cpu.busGranted = false)
    (ha : n.cpu.iack = false) (hu : n.refused = none) (hk : n.clock = ⟨k, [⟨k + 1, .rfshRelease⟩]⟩) (h0 : 0 ≤ k)
    (hb : Calm n.bus) (hr : n.bus.active .rd = false) (hw : n.bus.active .wr = false)
    (hz : n.bus.dataRead = 0x00#8) (hd : m.driving = false) (he : KeepsCursor e.imm) (hl : e.ops.length ≤ 8) :
    ∃ b', Quiet b' ∧ b'.active .int = n.bus.active .int ∧
      rotate (fun _ => some e) mask (n, m) = (.mid (n.cpu.dispatched e) .done b' (k + 1), m) := by
  obtain ⟨q1, q2, q3, q4⟩ := hb
  have hn : n.cpu.normalise = n.cpu := Cpu.normalise_of_ne_done _ (by simp [hs])
  have hbd : n.cpu.atBoundary = false := by simp [Cpu.atBoundary, hs]
  have ht : cpuTick (fun _ => some e) mask n =
      m1T4H2 (fun _ => some e) { n with cpu := n.cpu.settle } := by
    rw [cpuTick_calm ⟨q1, q2, q3, q4⟩ hg (by simp [hn, hbd]) (by simp [hn, hbd]), hn]
    simp only [normalDecode, Cpu.settle, hh, hm, ha, m1Phase, hs, Bool.false_eq_true, if_false, if_true]
  rw [m1T4H2_wired (by simpa [Cpu.settle] using hp) he hl] at ht
  simp only [he.latches] at ht
  have hB : ∀ h : Bool, Calm (n.bus.dispatched h) ∧ (n.bus.dispatched h).active .rd = false ∧
      (n.bus.dispatched h).active .wr = false ∧ (n.bus.dispatched h).dataRead = 0x00#8 ∧
      (n.bus.dispatched h).active .int = n.bus.active .int := by
    intro h
    cases h <;> exact ⟨⟨by simpa [Bus.dispatched], by simpa [Bus.dispatched], by simpa [Bus.dispatched],
      by simpa [Bus.dispatched]⟩, by simpa [Bus.dispatched], by simpa [Bus.dispatched], by simpa [Bus.dispatched],
      by simp [Bus.dispatched]⟩
  obtain ⟨⟨g1, g2, g3, g4⟩, g5, g6, g7, g8⟩ := hB (e.imm n.cpu).halted
  refine ⟨(n.bus.dispatched (e.imm n.cpu).halted).set .rfsh .high,
    ⟨⟨by simpa using g1, by simpa using g2, by simpa using g3, by simpa using g4⟩, by simp, by simpa using g5,
      by simpa using g6, by simpa using g7⟩, by simpa using g8, ?_⟩
  have hbus : (e.imm n.cpu).settle.halted = (e.imm n.cpu).halted := rfl
  simp only [rotate, cpuThenMemory, ht, hbus, RefMem.tick_idle g5 g6 hd]
  refine Prod.ext ?_ rfl
  simp only [hk, Clock.schedule, Config.pcIncDelay, h0, if_true, List.singleton_append, Node.clockTick, Clock.due,
    Clock.advance]
  have e1 : (k + ((1 : Nat) : Int)) = k + 1 := rfl
  simp only [e1, List.filter_cons, List.filter_nil, le_refl, decide_true, if_true, List.foldl_cons, List.foldl_nil,
    Bool.not_true, Bool.false_eq_true, if_false, Action.perform, hu]
  rfl

/-! ## The cursor does not matter to what micro-ops compute -/

theorem Cpu.set8_rested (c : Cpu) (r : Reg8) (v : Byte) : c.rested.set8 r v = (c.set8 r v).rested := by
  cases r <;> rfl
theorem Cpu.address_rested (c : Cpu) (a : AddrSel) : c.rested.address a = c.address a := by cases a <;> rfl
theorem Cpu.get8_rested (c : Cpu) (r : Reg8) : c.rested.get8 r = c.get8 r := by cases r <;> rfl
theorem PostAction.apply_rested (p : PostAction) (c : Cpu) : p.apply c.rested = (p.apply c).rested := by
  cases p with
  | jumpWZIfNZ =>
    have e : c.rested.flagZ = c.flagZ := rfl
    cases h : c.flagZ <;> simp only [PostAction.apply, e, h] <;> rfl
  | _ => rfl
theorem Cpu.applyPost_rested (c : Cpu) (ps : List PostAction) : c.rested.applyPost ps = (c.applyPost ps).rested := by
  induction ps generalizing c with
  | nil => rfl
  | cons p ps ih =>
    simp only [Cpu.applyPost, List.foldl_cons, PostAction.apply_rested] at ih ⊢
    exact ih _
theorem MicroOp.effect_rested (u : MicroOp) (c : Cpu) (m : RefMem) :
    u.effect (c.rested, m) = ((u.effect (c, m)).1.rested, (u.effect (c, m)).2) := by
  cases u <;>
    simp only [MicroOp.effect, Cpu.address_rested, Cpu.get8_rested, Cpu.set8_rested, Cpu.applyPost_rested]
theorem MicroOp.effects_rested (us : List MicroOp) (c : Cpu) (m : RefMem) :
    MicroOp.effects us (c.rested, m) = ((MicroOp.effects us (c, m)).1.rested, (MicroOp.effects us (c, m)).2) := by
  induction us generalizing c m with
  | nil => rfl
  | cons u us ih =>
    simp only [MicroOp.effects, List.foldl_cons, MicroOp.effect_rested] at ih ⊢
    exact ih _ _

/-! ## The instruction's end -/

section Effects
variable (us : List MicroOp) (p : Cpu × RefMem)
theorem MicroOp.effects_busGranted : (MicroOp.effects us p).1.busGranted = p.1.busGranted := by
  induction us generalizing p with
  | nil => rfl
  | cons u us ih => simp only [MicroOp.effects, List.foldl_cons] at ih ⊢; rw [ih, MicroOp.effect_busGranted]
theorem MicroOp.effects_iack : (MicroOp.effects us p).1.iack = p.1.iack := by
  induction us generalizing p with
  | nil => rfl
  | cons u us ih => simp only [MicroOp.effects, List.foldl_cons] at ih ⊢; rw [ih, MicroOp.effect_iack]
theorem MicroOp.effects_driving : (MicroOp.effects us p).2.driving = p.2.driving := by
  induction us generalizing p with
  | nil => rfl
  | cons u us ih => simp only [MicroOp.effects, List.foldl_cons] at ih ⊢; rw [ih, MicroOp.effect_driving]
theorem MicroOp.effects_wf (h : p.2.wf = true) : (MicroOp.effects us p).2.wf = true := by
  induction us generalizing p with
  | nil => exact h
  | cons u us ih =>
    simp only [MicroOp.effects, List.foldl_cons] at ih ⊢
    exact ih _ (MicroOp.effect_wf _ _ h)
end Effects

/-- Running an entry to its end: one tick for the phase that executes it and six for each micro-op; the register file
and the memory are those of the immediate action, the increment of PC and the micro-ops, in that order. This is all a
run of an instruction does on a board on which nothing interferes. -/
theorem runEntry_completes {s : State} {m : RefMem} {e : Entry} (h : AtDispatch s m) (he : KeepsCursor e.imm)
    (hl : e.ops.length ≤ 8) (hh : e.ops ≠ [] → (e.imm s.cpu).halted = false) :
    ∃ t, runEntry e s = .next t ∧
      Completes s t
        (MicroOp.effects e.ops (({ e.imm s.cpu with pc := (e.imm s.cpu).pc + 1#16 } : Cpu).rested, m)).2
        (MicroOp.effects e.ops (({ e.imm s.cpu with pc := (e.imm s.cpu).pc + 1#16 } : Cpu).rested, m)).1
        (1 + 6 * e.ops.length) := by
  obtain ⟨c, d, hidle, hpair, hdev, hkind, hwith⟩ := h.toOnBoard.pair
  have hself : s.withBoard c d (s.toNode, m) = s := by
    obtain ⟨dn, df, dd, dl, dk⟩ := d
    obtain ⟨sn, sd, sr, sq, st, sa, sf, sp⟩ := s
    subst hdev
    subst hkind
    rfl
  have htick : s.toNode.clockTick =
      ⟨s.cpu, s.bus, ⟨s.clock.counter + 1, [⟨s.clock.counter + 2, .rfshRelease⟩]⟩, none⟩ := by
    have h1 : ¬ s.clock.counter + 2 ≤ s.clock.counter + 1 := by omega
    simp [Node.clockTick, Clock.due, Clock.advance, h.events, h.unmarked]
  have hbus : s.clockTick.bus = s.bus := by simp only [State.clockTick, htick]
  have q1 := h.reset; have q2 := h.busrq; have q3 := h.nmi; have q4 := h.wait
  have q5 := h.rd; have q6 := h.wr; have q7 := h.data
  rw [hbus] at q1 q2 q3 q4 q5 q6 q7
  have e2 : s.clock.counter + 2 = s.clock.counter + 1 + 1 := by omega
  rw [e2] at htick
  obtain ⟨b1, hb1, -, hr1⟩ := rotate_dispatch (e := e) (mask := s.params.rIncMask) (m := m)
    (n := ⟨s.cpu, s.bus, ⟨s.clock.counter + 1, [⟨s.clock.counter + 1 + 1, .rfshRelease⟩]⟩, none⟩)
    h.cycle h.phase h.pipe h.awake h.owns h.noAck rfl rfl (by have := h.counter; omega) ⟨q1, q2, q3, q4⟩ q5 q6 q7
    h.released he hl
  have hg : (s.cpu.dispatched e).busGranted = false := by
    rw [← h.owns]; exact he.granted s.cpu
  have ha : (s.cpu.dispatched e).iack = false := by
    rw [← h.noAck]; exact he.noAck s.cpu
  -- the run as steps seen from tick to tick, and what it leaves
  obtain ⟨k, b', c', hsteps, hq, hcpu, hk⟩ : ∃ k b' c',
      Reaches (fun _ => some e) s.params.rIncMask Cpu.idle (1 + 6 * e.ops.length)
        (⟨s.cpu, s.bus, ⟨s.clock.counter + 1, [⟨s.clock.counter + 1 + 1, .rfshRelease⟩]⟩, none⟩, m)
        (.mid c' .done b' k, (MicroOp.effects e.ops (s.cpu.dispatched e, m)).2) ∧ Quiet b' ∧
      c' = { (MicroOp.effects e.ops (s.cpu.dispatched e, m)).1 with mc := c'.mc, pipe := [], step := c'.step } ∧
      k = s.clock.counter + 2 + 6 * e.ops.length := by
    by_cases ho : e.ops = []
    · refine ⟨s.clock.counter + 1 + 1, b1, s.cpu.dispatched e, ?_, hb1, ?_, by simp [ho]; omega⟩
      · have hz : (MicroOp.effects e.ops (s.cpu.dispatched e, m)).2 = m := by rw [ho]; rfl
        rw [hz, ho]
        exact .last hr1 rfl
      · rw [ho]
        simp only [MicroOp.effects, List.foldl_nil, Cpu.dispatched, ho]
    · have hm2 : (s.cpu.dispatched e).mc ≠ .m1 := by simp [Cpu.dispatched]
      obtain ⟨b', c', g1, -, g3, g4⟩ := micro_cycles (X := fun _ => some e) (mask := s.params.rIncMask) e.ops
        (c := s.cpu.dispatched e) (k := s.clock.counter + 1 + 1) (m := m) (st := .done) ho (.inl rfl) hg (hh ho) ha hm2 hb1 h.released
        h.contents rfl
      refine ⟨s.clock.counter + 1 + 1 + 6 * e.ops.length, b', c', ?_, g1, ?_, by omega⟩
      · rw [Nat.add_comm]
        refine .more hr1 rfl ?_ g4
        simp [Cpu.idle, Cpu.atPhase, Cpu.dispatched, ho]
      · rw [g3]
  have hrest : c'.pipe = [] := by rw [hcpu]
  have hgr : c'.busGranted = false := by rw [hcpu]; simp only; rw [MicroOp.effects_busGranted]; exact hg
  have hak : c'.iack = false := by rw [hcpu]; simp only; rw [MicroOp.effects_iack]; exact ha
  obtain ⟨⟨n', m'⟩, hsteps, hend⟩ := hsteps
  obtain ⟨h1, rfl⟩ := Prod.mk.inj hend
  have h2 : n'.refused = none := by rw [← Node.clockTick_refused, h1]; rfl
  have h3 : n'.clock.counter + 1 = k := by rw [← Node.clockTick_counter, h1]; rfl
  have hat : n'.cpu.atRest = true := by
    rw [← Node.clockTick_atRest, h1]
    simp [Cpu.atRest, Cpu.atPhase, hrest, hak]
  have hb64 : 1 + 6 * e.ops.length ≤ Config.stepBound := by simp only [Config.stepBound]; omega
  have h4 := advance_of_steps (s := s) hidle hpair blindToPc_atRest (stopS := State.resting)
    (fun p => by simp [State.resting, State.withBoard, hidle.running]) (hsteps.mono Cpu.idle_of_atRest) hat s.toNode Config.stepBound htick
    h.unmarked hb64
  rw [hself] at h4
  refine ⟨_, h4, ?_⟩
  have hfin : c'.rested =
      (MicroOp.effects e.ops (({ e.imm s.cpu with pc := (e.imm s.cpu).pc + 1#16 } : Cpu).rested, m)).1 ∧
      (MicroOp.effects e.ops (s.cpu.dispatched e, m)).2 =
        (MicroOp.effects e.ops (({ e.imm s.cpu with pc := (e.imm s.cpu).pc + 1#16 } : Cpu).rested, m)).2 := by
    have e1 : ({ e.imm s.cpu with pc := (e.imm s.cpu).pc + 1#16 } : Cpu).rested = (s.cpu.dispatched e).rested := rfl
    rw [e1, MicroOp.effects_rested]
    refine ⟨?_, rfl⟩
    rw [hcpu]
    rfl
  obtain ⟨f1, f2⟩ := hfin
  rw [← f1, ← f2, hwith]
  refine ⟨?_, ?_, rfl⟩
  · refine rested_of_mid h.toOnBoard h1 h2 h3 ?_ hq ?_ ?_ hgr hak hrest
    · have := h.counter; omega
    · rw [MicroOp.effects_driving]; exact h.released
    · exact MicroOp.effects_wf _ _ h.contents
  · change n'.clock.counter = _
    push_cast
    omega

end Sys2Proof.Machine
end

