-- ==== Sys2Proof/Laws/Acknowledge.lean ====
section
/-!
SUPPORT. The interrupt-acknowledge cycle (R317) on a board on which nothing interferes and no device answers it: its
phases T1_H1 to T4_H1 as one law.
-/
namespace Sys2Proof.Machine

/-- What never changes while an acknowledge cycle runs. -/
structure Acking (c : Cpu) : Prop where
  cycle : c.mc = .m1
  granted : c.busGranted = false
  awake : c.halted = false
  ack : c.iack = true

/-- The CPU's tick in an acknowledge cycle: one of its phases, whatever NMI and INT say (R182, R184). -/
theorem cpuTick_ack {X : ExecTable} {mask : Byte} {c : Cpu} {st : HalfStep} {b : Bus} {k : Int} (hc : Acking c)
    (hst : st ≠ .done) (hb : Calm b) : cpuTick X mask (.mid c st b k) = iackPhase X (.mid c st b k) := by
  obtain ⟨h1, h2, h3, h4⟩ := hc
  have hn : (c.atPhase st).normalise = c.atPhase st := Cpu.normalise_of_ne_done _ (by simpa using hst)
  have hbd : (c.atPhase st).atBoundary = false := by simp [Cpu.atBoundary, h4]
  rw [cpuTick_calm (by simpa using hb) (by simpa using h2) (by simp [hn, hbd]) (by simp [hn, hbd]), Node.mid_cpu, hn]
  have e : ({ (Node.mid c st b k) with cpu := (c.atPhase st).settle } : Node) = .mid c st b k := rfl
  rw [e, normalDecode]
  simp only [Node.mid_cpu, Cpu.atPhase_halted, Cpu.atPhase_mc, Cpu.atPhase_iack, h1, h3, h4, Bool.false_eq_true,
    if_false, if_true]

/-- rotate in an acknowledge cycle, where the memory neither is read nor written. -/
theorem rotate_ack {X : ExecTable} {mask : Byte} {c c' : Cpu} {st st' : HalfStep} {b b' : Bus} {k : Int} {m : RefMem}
    (hc : Acking c) (hst : st ≠ .done) (hb : Calm b) (hr : b'.active .rd = false) (hw : b'.active .wr = false)
    (hd : m.driving = false) (hp : iackPhase X (.mid c st b k) = .mid c' st' b' k) :
    rotate X mask (.mid c st b k, m) = (.mid c' st' b' (k + 1), m) := by
  have h : cpuTick X mask (.mid c st b k) = .mid c' st' b' k := by rw [cpuTick_ack hc hst hb, hp]
  simp only [rotate, cpuThenMemory, h, Node.mid_bus, RefMem.tick_idle hr hw hd]
  rfl

theorem Acking.goes_on {c : Cpu} (h : Acking c) (st : HalfStep) : (c.atPhase st).idle = false := by
  simp [Cpu.idle, h.ack]

/-- The phases T1_H1 to T4_H1 of the acknowledge cycle: seven ticks; the byte on the data lines is latched, and the lines
are quiet again. -/
theorem ack_cycle {X : ExecTable} {mask : Byte} {c : Cpu} {b : Bus} {k : Int} {m : RefMem} (hc : Acking c)
    (hb : Quiet b) (hd : m.driving = false) :
    ∃ b', Quiet b' ∧ b'.get .halt = b.get .halt ∧ b'.active .int = b.active .int ∧
      Reaches X mask Cpu.idle 7 (.mid c .t1h1 b k, m)
        (.mid { c with ibyte := 0x00#8 } .t4h2 b' (k + 7), m) := by
  obtain ⟨⟨q1, q2, q3, q4⟩, q5, q6, q7, q8⟩ := hb
  obtain ⟨b1, e1⟩ : ∃ b1, b1 = (b.addrWrite c.pc).set .m1 .low := ⟨_, rfl⟩
  obtain ⟨b4, e4⟩ : ∃ b4, b4 = b1.set .iorq .low := ⟨_, rfl⟩
  obtain ⟨b6, e6⟩ : ∃ b6, b6 = (b4.set .iorq .high).set .m1 .high := ⟨_, rfl⟩
  have c1 : Calm b1 := by rw [e1]; exact ⟨by simpa, by simpa, by simpa, by simpa⟩
  have c4 : Calm b4 := by
    rw [e4]; exact ⟨by simpa using c1.1, by simpa using c1.2, by simpa using c1.3, by simpa using c1.4⟩
  have c6 : Calm b6 := by
    rw [e6]; exact ⟨by simpa using c4.1, by simpa using c4.2, by simpa using c4.3, by simpa using c4.4⟩
  have r1 : b1.active .rd = false := by rw [e1]; simpa
  have w1 : b1.active .wr = false := by rw [e1]; simpa
  have r4 : b4.active .rd = false := by rw [e4]; simpa
  have w4 : b4.active .wr = false := by rw [e4]; simpa
  have r6 : b6.active .rd = false := by rw [e6]; simpa
  have w6 : b6.active .wr = false := by rw [e6]; simpa
  have d4 : b4.dataRead = 0x00#8 := by rw [e4, e1]; simpa
  have hc6 : Acking { c with ibyte := 0x00#8 } := ⟨hc.1, hc.2, hc.3, hc.4⟩
  have s1 := rotate_ack (X := X) (mask := mask) (k := k) (m := m) (c' := c) (st := .t1h1) (st' := .t1h2) (b' := b1) hc
    (by decide) ⟨q1, q2, q3, q4⟩ r1 w1 hd (by rw [e1]; rfl)
  have s2 := rotate_ack (X := X) (mask := mask) (k := k + 1) (m := m) (c' := c) (st := .t1h2) (st' := .t2h1)
    (b' := b1) hc (by decide) c1 r1 w1 hd rfl
  have s3 := rotate_ack (X := X) (mask := mask) (k := k + 1 + 1) (m := m) (c' := c) (st := .t2h1) (st' := .t2h2)
    (b' := b1) hc (by decide) c1 r1 w1 hd rfl
  have s4 := rotate_ack (X := X) (mask := mask) (k := k + 1 + 1 + 1) (m := m) (c' := c) (st := .t2h2) (st' := .t3h1)
    (b' := b4) hc (by decide) c1 r4 w4 hd (by rw [e4]; rfl)
  have s5 := rotate_ack (X := X) (mask := mask) (k := k + 1 + 1 + 1 + 1) (m := m) (c' := c) (st := .t3h1)
    (st' := .t3h2) (b' := b4) hc (by decide) c4 r4 w4 hd
    (by simp only [iackPhase, Node.mid_cpu, Cpu.atPhase_step, Node.waitPhase, Node.mid_bus, c4.wait,
          Bool.false_eq_true, if_false]; rfl)
  have s6 := rotate_ack (X := X) (mask := mask) (k := k + 1 + 1 + 1 + 1 + 1) (m := m)
    (c' := { c with ibyte := 0x00#8 }) (st := .t3h2) (st' := .t4h1) (b' := b6) hc (by decide) c4 r6 w6 hd
    (by simp only [iackPhase, Node.mid_cpu, Cpu.atPhase_step, iackT3H2, Node.mid_bus, d4, ← e6]; rfl)
  have s7 := rotate_ack (X := X) (mask := mask) (k := k + 1 + 1 + 1 + 1 + 1 + 1) (m := m)
    (c' := { c with ibyte := 0x00#8 }) (st := .t4h1) (st' := .t4h2) (b' := b6) hc6 (by decide) c6 r6 w6 hd rfl
  refine ⟨b6, ⟨c6, ?_, r6, w6, ?_⟩, ?_, ?_, ?_⟩
  · rw [e6, e4, e1]; simpa
  · rw [e6, e4, e1]; simpa
  · rw [e6, e4, e1]; rfl
  · rw [e6, e4, e1]; simp
  · have ek : k + 7 = k + 1 + 1 + 1 + 1 + 1 + 1 + 1 := by omega
    rw [ek]
    exact .more s1 rfl (hc.goes_on _) (.more s2 rfl (hc.goes_on _) (.more s3 rfl (hc.goes_on _)
      (.more s4 rfl (hc.goes_on _) (.more s5 rfl (hc.goes_on _) (.more s6 rfl (hc6.goes_on _) (.last s7 rfl))))))

end Sys2Proof.Machine
end

