-- ==== Sys2Proof/Laws/Entries.lean ====
section
/-!
SUPPORT. The entries of EXEC0: exec runs the entry of its instruction, every entry keeps what R206 forbids it to write
and pushes at most four micro-ops (R202), and EXEC0 looks at the opcode alone.
-/
namespace Sys2Proof.Machine

/-- The meaning of an instruction runs its entry. -/
theorem exec_eq_runEntry (i : Instr) (s : State) : exec i s = runEntry (entryOf i) s := by cases i <;> rfl

theorem entryOf_keepsCursor (i : Instr) : KeepsCursor (entryOf i).imm := by
  cases i <;> exact ⟨fun _ => rfl, fun _ => rfl, fun _ => rfl, fun _ => rfl⟩

theorem entryOf_ops_length (i : Instr) : (entryOf i).ops.length ≤ 4 := by
  cases i <;> exact Nat.le_of_ble_eq_true rfl

/-- An entry that pushes micro-ops does not halt the CPU. -/
theorem entryOf_halted (i : Instr) (c : Cpu) (h : (entryOf i).ops ≠ []) : ((entryOf i).imm c).halted = c.halted := by
  cases i <;> first | rfl | exact absurd rfl h

/-- exec answers, on a board on which nothing interferes: the micro-ops of the entry, in order, after the immediate
action and the increment of PC. -/
theorem exec_completes {s : State} {m : RefMem} (i : Instr) (h : AtDispatch s m) :
    ∃ t, exec i s = .next t ∧
      Completes s t (MicroOp.effects (entryOf i).ops
          (({ (entryOf i).imm s.cpu with pc := ((entryOf i).imm s.cpu).pc + 1#16 } : Cpu).rested, m)).2
        (MicroOp.effects (entryOf i).ops
          (({ (entryOf i).imm s.cpu with pc := ((entryOf i).imm s.cpu).pc + 1#16 } : Cpu).rested, m)).1
        (1 + 6 * (entryOf i).ops.length) := by
  rw [exec_eq_runEntry]
  exact runEntry_completes h (entryOf_keepsCursor i) (by have := entryOf_ops_length i; omega)
    (fun ho => by rw [entryOf_halted i _ ho, h.awake])

section Latches
variable (i : Instr) (c : Cpu)
theorem entryOf_imm_pc : ((entryOf i).imm c).pc = c.pc := by cases i <;> rfl
theorem entryOf_imm_mc : ((entryOf i).imm c).mc = c.mc := by cases i <;> rfl
theorem entryOf_imm_step : ((entryOf i).imm c).step = c.step := by cases i <;> rfl
theorem entryOf_imm_pipe : ((entryOf i).imm c).pipe = c.pipe := by cases i <;> rfl
theorem entryOf_imm_iack : ((entryOf i).imm c).iack = c.iack := by cases i <;> rfl
theorem entryOf_imm_busGranted : ((entryOf i).imm c).busGranted = c.busGranted := by cases i <;> rfl
theorem entryOf_imm_nmiPending : ((entryOf i).imm c).nmiPending = c.nmiPending := by cases i <;> rfl
theorem entryOf_imm_nmiSampled : ((entryOf i).imm c).nmiSampled = c.nmiSampled := by cases i <;> rfl
theorem entryOf_imm_resetStep : ((entryOf i).imm c).resetStep = c.resetStep := by cases i <;> rfl
theorem entryOf_imm_opcode : ((entryOf i).imm c).opcode = c.opcode := by cases i <;> rfl
theorem entryOf_imm_im : ((entryOf i).imm c).im = c.im := by cases i <;> rfl
theorem entryOf_imm_ix : ((entryOf i).imm c).ix = c.ix := by cases i <;> rfl
theorem entryOf_imm_iy : ((entryOf i).imm c).iy = c.iy := by cases i <;> rfl
theorem entryOf_imm_i : ((entryOf i).imm c).i = c.i := by cases i <;> rfl
theorem entryOf_imm_r : ((entryOf i).imm c).r = c.r := by cases i <;> rfl
theorem entryOf_imm_far : ((entryOf i).imm c).far = c.far := by cases i <;> rfl
theorem entryOf_imm_wz : ((entryOf i).imm c).wz = c.wz := by cases i <;> rfl
end Latches

/-- Every wired opcode of EXEC0 has the entry of an instruction (R9, R94). -/
theorem exec0_entry {op : Byte} {e : Entry} (h : exec0 op = some e) : ∃ i, e = entryOf i := by
  unfold exec0 at h
  cases hd : decodeInstr [op, 0x00#8, 0x00#8] with
  | none => simp [hd] at h
  | some i => exact ⟨i, by simpa [hd] using h.symm⟩

end Sys2Proof.Machine
end

