-- ==== Sys2Proof/Laws/Fetch.lean ====
section
/-!
SUPPORT. The opcode fetch (R190 to R198) on a board on which nothing interferes, from an instruction boundary to the
phase that executes the opcode: what `State.fetch` answers, said once.
-/
namespace Sys2Proof.Machine

/-- The byte a read finds on such a board is the memory's answer (R76, R78, R79). -/
theorem OnBoard.peek {s : State} {m : RefMem} (h : OnBoard s m) (a : Word) : s.peek a = m.answer a := by
  obtain ⟨c, d, -, ⟨h1, -, -⟩, hdev, h2, -⟩ := h.pair
  by_cases hd : m.decodes a = true <;> simp [State.peek, busByte, hdev, Device.refMem?, h1, h2, hd, RefMem.answer]

/-- The node at a phase of M1, with a clock of its own. -/
def Node.phase (c : Cpu) (st : HalfStep) (b : Bus) (ck : Clock) : Node := ⟨c.atPhase st, b, ck, none⟩

section Phase
variable (c : Cpu) (st : HalfStep) (b : Bus) (ck : Clock)
@[simp] theorem Node.phase_cpu : (Node.phase c st b ck).cpu = c.atPhase st := rfl
@[simp] theorem Node.phase_bus : (Node.phase c st b ck).bus = b := rfl
@[simp] theorem Node.phase_clock : (Node.phase c st b ck).clock = ck := rfl
@[simp] theorem Node.phase_refused : (Node.phase c st b ck).refused = none := rfl

/-- tick() with no event due (R131). -/
theorem Node.clockTick_phase {k : Int} {es : List Event} (h : ∀ e ∈ es, k + 1 < e.expiry) :
    (Node.phase c st b ⟨k, es⟩).clockTick = .phase c st b ⟨k + 1, es⟩ := by
  have h1 : (Clock.mk k es).due = [] := by
    simp only [Clock.due, List.filter_eq_nil_iff]
    intro e he
    have := h e he
    simp only [decide_eq_true_eq]
    omega
  have h2 : (Clock.mk k es).advance = ⟨k + 1, es⟩ := by
    simp only [Clock.advance, Clock.mk.injEq, true_and, List.filter_eq_self]
    intro e he
    have := h e he
    simp only [Bool.not_eq_true', decide_eq_false_iff_not]
    omega
  simp only [Node.clockTick, Node.phase_clock, h1, h2, List.foldl_nil]
  rfl

end Phase

theorem due_later {k k' : Int} {a : Action} (h : k < k') : ∀ e ∈ [(⟨k', a⟩ : Event)], k < e.expiry := by
  intro e he
  rw [List.mem_singleton.mp he]
  exact h

/-- The CPU is fetching: in M1, not halted, with nothing pushed. -/
structure Fetching (c : Cpu) : Prop where
  cycle : c.mc = .m1
  pipe : c.pipe = []
  awake : c.halted = false
  owns : c.busGranted = false
  noAck : c.iack = false

/-- One tick of the CPU in M1 after T1_H1. -/
theorem cpuThenMemory_m1 {X : ExecTable} {mask : Byte} {c c' : Cpu} {st st' : HalfStep} {b b' b'' : Bus} {k : Int}
    {es es' : List Event} {m m' : RefMem} (hc : Fetching c) (h1 : st ≠ .t1h1) (h2 : st ≠ .done) (hb : Calm b)
    (hp : m1Phase X mask (.phase c st b ⟨k, es⟩) = .phase c' st' b' ⟨k, es'⟩) (ht : m.tick b' = (m', b'')) :
    cpuThenMemory X mask (.phase c st b ⟨k, es⟩, m) = (.phase c' st' b'' ⟨k, es'⟩, m') := by
  obtain ⟨f1, f2, f3, f4, f5⟩ := hc
  have hn : (c.atPhase st).normalise = c.atPhase st := Cpu.normalise_of_ne_done _ h2
  have hbd : (c.atPhase st).atBoundary = false := by simp [Cpu.atBoundary, h1]
  have h : cpuTick X mask (.phase c st b ⟨k, es⟩) = .phase c' st' b' ⟨k, es'⟩ := by
    rw [cpuTick_calm hb f4 (by simp [hn, hbd]) (by simp [hn, hbd]), Node.phase_cpu, hn]
    have e : ({ (Node.phase c st b ⟨k, es⟩) with cpu := (c.atPhase st).settle } : Node) = .phase c st b ⟨k, es⟩ := rfl
    rw [e, normalDecode]
    simp only [Node.phase_cpu, Cpu.atPhase_halted, Cpu.atPhase_mc, Cpu.atPhase_iack, f1, f3, f5, hp,
      Bool.false_eq_true, if_false, if_true]
  simp only [cpuThenMemory, h, Node.phase_bus, ht]
  rfl

theorem rotate_m1 {X : ExecTable} {mask : Byte} {c c' : Cpu} {st st' : HalfStep} {b b' b'' : Bus} {k : Int}
    {es es' : List Event} {m m' : RefMem} (hc : Fetching c) (h1 : st ≠ .t1h1) (h2 : st ≠ .done) (hb : Calm b)
    (hp : m1Phase X mask (.phase c st b ⟨k, es⟩) = .phase c' st' b' ⟨k, es'⟩) (ht : m.tick b' = (m', b''))
    (he : ∀ e ∈ es', k + 1 < e.expiry) :
    rotate X mask (.phase c st b ⟨k, es⟩, m) = (.phase c' st' b'' ⟨k + 1, es'⟩, m') := by
  simp only [rotate, cpuThenMemory_m1 hc h1 h2 hb hp ht]
  rw [Node.clockTick_phase _ _ _ he]

/-- Whether a run of `State.fetch` ends at this CPU. -/
def Cpu.fetchEnds (c : Cpu) : Bool := c.atRest || (c.mc == .m1 && c.step == .t4h2 && !c.iack)

theorem blindToPc_fetchEnds : BlindToPc Cpu.fetchEnds := fun _ _ => rfl

theorem Fetching.goes_on {c : Cpu} (_ : Fetching c) {st : HalfStep} (h1 : st ≠ .t1h1) (h2 : st ≠ .done)
    (h3 : st ≠ .t4h2) : (c.atPhase st).fetchEnds = false := by
  simp [Cpu.fetchEnds, Cpu.atRest, h1, h2, h3]

/-- The phases T1_H1 to T4_H1 of M1 (R191 to R196): the opcode latched, the refresh under way. -/
theorem m1_fetch {X : ExecTable} {mask : Byte} {n : Node} {c : Cpu} {k : Int} {m : RefMem} (hc : Fetching c)
    (hn : n.cpu.normalise = c) (hst : c.step = .t1h1) (hk : n.clock = ⟨k, []⟩) (h0 : 0 ≤ k) (hu : n.refused = none)
    (hb : Quiet n.bus) (hnmi : c.nmiPending = false) (hint : (n.bus.active .int && c.iff1) = false)
    (hd : m.driving = false) :
    ∃ b', Calm b' ∧ b'.active .rd = false ∧ b'.active .wr = false ∧ b'.dataRead = 0x00#8 ∧
      Steps X mask Cpu.fetchEnds 7 (n, m)
        (.phase (c.fetched mask (m.answer c.pc)) .t4h2 b' ⟨k + 6, [⟨k + 8, .rfshRelease⟩]⟩, m) := by
  obtain ⟨⟨q1, q2, q3, q4⟩, q5, q6, q7, q8⟩ := hb
  have hnb : n.cpu.busGranted = false := by rw [← hc.owns, ← hn, Cpu.normalise_busGranted]
  have hcs : c.settle = c.atPhase .t1h1 := by rw [← hst]; rfl
  -- T1_H1
  obtain ⟨b1, e1⟩ : ∃ b1, b1 = (n.bus.addrWrite c.pc).set .m1 .low := ⟨_, rfl⟩
  have r1 : rotate X mask (n, m) = (.phase c .t1h2 b1 ⟨k + 1, []⟩, m) := by
    have h : cpuTick X mask n = .phase c .t1h2 b1 ⟨k, []⟩ := by
      rw [cpuTick_calm ⟨q1, q2, q3, q4⟩ hnb (by rw [← Cpu.normalise_nmiPending n.cpu, hn, hnmi]; rfl)
        (by rw [← Cpu.normalise_iff1 n.cpu, hn, hint]; rfl), hn, hcs, normalDecode]
      simp only [Cpu.atPhase_halted, Cpu.atPhase_mc, Cpu.atPhase_iack, hc.cycle, hc.awake, hc.noAck,
        Bool.false_eq_true, if_false, if_true, m1Phase, Cpu.atPhase_step, m1T1H1, Cpu.atPhase_pc, e1, hk]
      simp only [Node.nextStep, hu]
      rfl
    have t : m.tick b1 = (m, b1) := RefMem.tick_idle (by simpa [e1] using q6) (by simpa [e1] using q7) hd
    simp only [rotate, cpuThenMemory, h, Node.phase_bus, t]
    refine Prod.ext ?_ rfl
    exact Node.clockTick_phase _ _ _ (by simp)
  have c1 : Calm b1 := ⟨by simpa [e1], by simpa [e1], by simpa [e1], by simpa [e1]⟩
  have f1 : b1.active .rfsh = false := by simpa [e1] using q5
  have w1 : b1.active .wr = false := by simpa [e1] using q7
  have d1 : b1.dataRead = 0x00#8 := by simpa [e1] using q8
  have a1 : b1.addrRead = c.pc := by simp [e1]
  generalize hA : c.pc = A at *
  -- T1_H2
  obtain ⟨b2, t2, s2, d2⟩ := RefMem.tick_read (m := m) (b := (b1.set .mreq .low).set .rd .low) (by simp) (by simp)
    (by simpa using f1) (by simpa using w1) (by simp [hd]) (by simp [d1])
  simp only [Bus.addrRead_set_mreq, Bus.addrRead_set_rd, a1] at t2 d2
  have r2 : rotate X mask (.phase c .t1h2 b1 ⟨k + 1, []⟩, m) = _ :=
    rotate_m1 (X := X) (mask := mask) (k := k + 1) (es := []) (es' := []) (c' := c) (st' := .t2h1)
      (b' := (b1.set .mreq .low).set .rd .low) hc (by decide) (by decide) c1 rfl t2 (by simp)
  have a2 : b2.addrRead = A := by rw [s2.addr]; simpa using a1
  have c2 : Calm b2 := s2.calm ⟨by simpa using c1.1, by simpa using c1.2, by simpa using c1.3, by simpa using c1.4⟩
  have g2 : b2.active .mreq = true := by rw [s2.lines _ rfl]; simp
  have h2 : b2.active .rd = true := by rw [s2.lines _ rfl]; simp
  have f2 : b2.active .rfsh = false := by rw [s2.lines _ rfl]; simpa using f1
  have w2 : b2.active .wr = false := by rw [s2.lines _ rfl]; simpa using w1
  have hold : ∀ b2 : Bus, b2.addrRead = A → b2.active .mreq = true → b2.active .rd = true →
      b2.active .rfsh = false → b2.active .wr = false → b2.dataRead = m.answer A →
      ∃ b3, ({ m with driving := m.decodes A } : RefMem).tick b2 = ({ m with driving := m.decodes A }, b3) ∧
        SameControl b2 b3 ∧ b3.dataRead = m.answer A := by
    intro b2 a2 g2 h2 f2 w2 d2
    have h := RefMem.tick_read (m := { m with driving := m.decodes A }) g2 h2 f2 w2 (by rw [a2]; exact fun h => h)
      (by rw [a2, d2]; intro h; have h : m.decodes A = false := h; simp [RefMem.answer, h])
    rw [a2] at h
    exact h
  -- T2_H1
  obtain ⟨b3, t3, s3, d3⟩ := hold b2 a2 g2 h2 f2 w2 d2
  have r3 := rotate_m1 (X := X) (mask := mask) (k := k + 1 + 1) (es := []) (es' := []) (c := c) (c' := c)
    (st := .t2h1) (st' := .t2h2) (b' := b2) hc (by decide) (by decide) c2
    (by simp only [m1Phase, Node.phase_cpu, Cpu.atPhase_step, Node.waitPhase, Node.phase_bus, c2.wait,
          Bool.false_eq_true, if_false]; rfl) t3 (by simp)
  have a3 : b3.addrRead = A := by rw [s3.addr, a2]
  have c3 := s3.calm c2
  have g3 : b3.active .mreq = true := by rw [s3.lines _ rfl, g2]
  have h3 : b3.active .rd = true := by rw [s3.lines _ rfl, h2]
  have f3 : b3.active .rfsh = false := by rw [s3.lines _ rfl, f2]
  have w3 : b3.active .wr = false := by rw [s3.lines _ rfl, w2]
  -- T2_H2
  obtain ⟨b4, t4, s4, d4⟩ := hold b3 a3 g3 h3 f3 w3 d3
  have r4 := rotate_m1 (X := X) (mask := mask) (k := k + 1 + 1 + 1) (es := []) (es' := []) (c := c) (c' := c)
    (st := .t2h2) (st' := .t3h1) (b' := b3) hc (by decide) (by decide) c3 rfl t4 (by simp)
  have c4 := s4.calm c3
  have w4 : b4.active .wr = false := by rw [s4.lines _ rfl, w3]
  -- T3_H1
  obtain ⟨bb, eb⟩ : ∃ bb, bb = ((((b4.set .m1 .high).set .mreq .high).set .rd .high).set .rfsh .low).addrWrite
    (c.i ++ c.r) := ⟨_, rfl⟩
  obtain ⟨b5, t5, s5, d5⟩ := RefMem.tick_release (m := { m with driving := m.decodes A }) (b := bb)
    (by simp [eb]) (by simpa [eb] using w4)
    (by intro h; have h : m.decodes A = false := h; simp [eb, d4, RefMem.answer, h])
  have em : ({ ({ m with driving := m.decodes A } : RefMem) with driving := false } : RefMem) = m := by rw [← hd]
  rw [em] at t5
  have hc5 : Fetching { c with opcode := m.answer A } := ⟨hc.1, hc.2, hc.3, hc.4, hc.5⟩
  have r5 := rotate_m1 (X := X) (mask := mask) (k := k + 1 + 1 + 1 + 1) (es := [])
    (es' := [⟨k + 8, .rfshRelease⟩]) (c := c) (c' := { c with opcode := m.answer A })
    (st := .t3h1) (st' := .t3h2) (b' := bb) hc (by decide) (by decide) c4
    (by
      have e8 : k + 1 + 1 + 1 + 1 + ((4 : Nat) : Int) = k + 8 := by omega
      have ep : 0 ≤ k + 1 + 1 + 1 + 1 := by omega
      simp only [m1Phase, Node.phase_cpu, Cpu.atPhase_step, m1T3H1, Node.phase_bus, Node.phase_clock, Clock.schedule,
        Config.rfshDelay, ep, if_true, e8, Cpu.atPhase_i, Cpu.atPhase_r, ← eb, d4]
      rfl) t5 (by exact due_later (by omega))
  have c5 : Calm b5 := s5.calm ⟨by simpa [eb] using c4.1, by simpa [eb] using c4.2, by simpa [eb] using c4.3,
    by simpa [eb] using c4.4⟩
  have h5 : b5.active .rd = false := by rw [s5.lines _ rfl]; simp [eb]
  have w5 : b5.active .wr = false := by rw [s5.lines _ rfl]; simpa [eb] using w4
  -- T3_H2
  have hc6 : Fetching (c.fetched mask (m.answer A)) := ⟨hc.1, hc.2, hc.3, hc.4, hc.5⟩
  have r6 := rotate_m1 (X := X) (mask := mask) (k := k + 1 + 1 + 1 + 1 + 1) (es := [⟨k + 8, .rfshRelease⟩])
    (es' := [⟨k + 8, .rfshRelease⟩]) (c := { c with opcode := m.answer A }) (c' := c.fetched mask (m.answer A))
    (st := .t3h2) (st' := .t4h1) (b' := b5.set .mreq .low) hc5 (by decide) (by decide) c5 rfl
    (RefMem.tick_idle (by simpa using h5) (by simpa using w5) hd)
    (by exact due_later (by omega))
  have c6 : Calm (b5.set .mreq .low) := ⟨by simpa using c5.1, by simpa using c5.2, by simpa using c5.3,
    by simpa using c5.4⟩
  -- T4_H1
  have r7 := cpuThenMemory_m1 (X := X) (mask := mask) (k := k + 1 + 1 + 1 + 1 + 1 + 1) (es := [⟨k + 8, .rfshRelease⟩])
    (es' := [⟨k + 8, .rfshRelease⟩]) (c := c.fetched mask (m.answer A)) (c' := c.fetched mask (m.answer A))
    (st := .t4h1) (st' := .t4h2) (b' := b5.set .mreq .low) hc6 (by decide) (by decide) c6 rfl
    (RefMem.tick_idle (by simpa using h5) (by simpa using w5) hd)
  refine ⟨b5.set .mreq .low, c6, by simpa using h5, by simpa using w5, by simpa using d5, ?_⟩
  have ek : k + 6 = k + 1 + 1 + 1 + 1 + 1 + 1 := by omega
  rw [ek]
  exact .more r1 rfl (hc.goes_on (by decide) (by decide) (by decide))
    (.more r2 rfl (hc.goes_on (by decide) (by decide) (by decide))
      (.more r3 rfl (hc.goes_on (by decide) (by decide) (by decide))
        (.more r4 rfl (hc.goes_on (by decide) (by decide) (by decide))
          (.more r5 rfl (hc5.goes_on (by decide) (by decide) (by decide))
            (.more r6 rfl (hc6.goes_on (by decide) (by decide) (by decide)) (.last r7 rfl))))))

/-! ## The fetch and the step -/

theorem Cpu.normalise_atRest {c : Cpu} (h : c.atRest = true) :
    c.normalise.mc = .m1 ∧ c.normalise.step = .t1h1 ∧ c.normalise.pipe = [] ∧ c.normalise.iack = false := by
  simp only [Cpu.atRest, Bool.and_eq_true, Bool.or_eq_true, List.isEmpty_iff, Bool.not_eq_true', beq_iff_eq] at h
  obtain ⟨⟨h1, h2⟩, h3⟩ := h
  by_cases hd : c.step = .done
  · rw [Cpu.normalise_of_empty _ hd h1]
    exact ⟨rfl, rfl, h1, h2⟩
  · rw [Cpu.normalise_of_ne_done _ hd]
    rcases h3 with h3 | ⟨h3, h4⟩
    · exact absurd h3 hd
    · exact ⟨h3, h4, h1, h2⟩

/-- At rest the cursor is at an instruction boundary once normalised (R184). -/
theorem Rested.cursor {s : State} {m : RefMem} {c : Cpu} (h : Rested s m c) :
    c.mc = .m1 ∧ c.step = .t1h1 ∧ c.pipe = [] ∧ c.iack = false := by
  rw [← h.cpu]
  refine Cpu.normalise_atRest ?_
  have e : s.clockTick.cpu.atRest = s.cpu.atRest := Node.clockTick_atRest s.toNode
  rw [e, h.rest]

/-- From an instruction boundary the fetch comes, in seven board steps, to the phase that executes the opcode: the
opcode is latched and R incremented, and nothing else of the board has changed but the lines and the clock (R191 to
R196). -/
theorem fetch_boundary {s : State} {m : RefMem} {c : Cpu} (h : AtBoundary s m c) :
    ∃ t, s.fetch = .next t ∧ AtDispatch t m ∧ t.dispatching = true ∧
      t.cpu = { c.fetched s.params.rIncMask (m.answer c.pc) with step := .t4h2, nmiSampled := false, resetStep := 0 } ∧
      t.clock.counter = s.clock.counter + 7 ∧ t = { s with toNode := t.toNode } := by
  obtain ⟨c0, d0, hidle, hpair, hdev, hkind, hwith⟩ := h.toOnBoard.pair
  obtain ⟨g1, g2, g3, g4⟩ := h.toRested.cursor
  have hself : s.withBoard c0 d0 (s.toNode, m) = s := by
    obtain ⟨dn, df, dd, dl, dk⟩ := d0
    obtain ⟨sn, sd, sr, sq, st, sa, sf, sp⟩ := s
    subst hdev
    subst hkind
    rfl
  have hg : c.busGranted = false := by
    have e := congrArg Cpu.busGranted (Node.clockTick_cpu s.toNode)
    rw [← h.cpu, Cpu.normalise_busGranted, ← h.owns]
    exact e
  have hu : s.toNode.clockTick.refused = none := by rw [Node.clockTick_refused, h.unmarked]
  have hck : s.toNode.clockTick.clock = ⟨s.clock.counter + 1, []⟩ := by
    have e1 := Node.clockTick_counter s.toNode
    have e2 := h.fired
    have e3 : s.toNode.clockTick.clock.events = [] := e2
    rw [← e1, ← e3]
  obtain ⟨b', hb', q5, q6, q7, hsteps⟩ := m1_fetch (X := exec0) (mask := s.params.rIncMask) (n := s.toNode.clockTick)
    (c := c) (k := s.clock.counter + 1) (m := m) ⟨g1, g3, h.awake, hg, g4⟩ h.cpu g2 hck
    (by have := h.counter; omega) hu ⟨⟨h.reset, h.busrq, h.nmi, h.wait⟩, h.refresh, h.rd, h.wr, h.data⟩ h.noNmi
    h.noInt h.released
  have h4 := advance_of_steps (s := s) hidle hpair blindToPc_fetchEnds
    (stopS := fun t => t.resting || t.dispatching)
    (fun p => by simp [State.resting, State.dispatching, Cpu.fetchEnds, State.withBoard, hidle.running]) hsteps
    (by simp [Cpu.fetchEnds, Cpu.fetched, g1, g4]) s.toNode Config.stepBound rfl h.unmarked (by decide)
  rw [hself, hwith] at h4
  have hnd : s.dispatching = false := by
    have hr := h.rest
    simp only [Cpu.atRest, Bool.and_eq_true, Bool.or_eq_true, beq_iff_eq] at hr
    rcases hr.2 with e | ⟨-, e⟩ <;> simp [State.dispatching, e]
  have hmem : s.withMemory m = s := by
    have e := hwith (s.toNode, m)
    rw [hself] at e
    exact e.symm
  rw [hmem] at h4
  obtain ⟨N, hN⟩ : ∃ N : Int → Node, N = fun k => .phase (c.fetched s.params.rIncMask (m.answer c.pc)) .t4h2 b'
      ⟨k, [⟨s.clock.counter + 1 + 8, .rfshRelease⟩]⟩ := ⟨_, rfl⟩
  obtain ⟨t, ht⟩ : ∃ t, t = { s with toNode := N (s.clock.counter + 1 + 6) } := ⟨_, rfl⟩
  have hT : t.clockTick = { s with toNode := N (s.clock.counter + 1 + 7) } := by
    rw [ht]
    simp only [State.clockTick, hN]
    rw [Node.clockTick_phase _ _ _ (due_later (by omega))]
    have e : s.clock.counter + 1 + 6 + 1 = s.clock.counter + 1 + 7 := by omega
    rw [e]
  have hcpu : t.cpu = (c.fetched s.params.rIncMask (m.answer c.pc)).atPhase .t4h2 := by rw [ht, hN]; rfl
  have hrf : t.refused = none := by rw [ht, hN]; rfl
  have hev : t.clock.events = [⟨s.clock.counter + 1 + 8, .rfshRelease⟩] := by rw [ht, hN]; rfl
  have hcn : t.clock.counter = s.clock.counter + 1 + 6 := by rw [ht, hN]; rfl
  have hB : t.clockTick.bus = b' := by rw [hT, hN]; rfl
  refine ⟨t, ?_, ?_, ?_, hcpu, ?_, ?_⟩
  · rw [ht, hN]
    simp only [State.fetch, hnd, Bool.false_eq_true, if_false, h4]
  · have hcnt : t.clock.counter = s.clock.counter + 7 := by rw [hcn]; omega
    refine ⟨⟨?_, ?_, ?_, ?_, ?_, ?_, h.contents, ?_, ?_, ?_, ?_, ?_, ?_, ?_, ?_, h.released, ?_, ?_⟩, ?_, ?_, ?_, ?_, ?_⟩
    · rw [ht]; exact h.running
    · rw [ht]; exact h.queue
    · rw [ht]; exact h.arrivals
    · rw [ht]; exact h.timers
    · exact hrf
    · rw [ht]; exact h.board
    · have := h.counter; omega
    · rw [hB]; exact hb'.reset
    · rw [hB]; exact hb'.busrq
    · rw [hB]; exact hb'.nmi
    · rw [hB]; exact hb'.wait
    · rw [hB]; exact q5
    · rw [hB]; exact q6
    · rw [hB]; exact q7
    · rw [hcpu]; exact hg
    · rw [hcpu]; exact g4
    · rw [hcpu]; exact g1
    · rw [hcpu]; rfl
    · rw [hcpu]; exact g3
    · rw [hcpu]; exact h.awake
    · rw [hcnt, hev]
      have e : s.clock.counter + 1 + 8 = s.clock.counter + 7 + 2 := by omega
      rw [e]
  · rw [State.dispatching, hcpu]
    have e : t.runState = .run := by rw [ht]; exact h.running
    simp [e, Cpu.fetched, g1, g4]
  · rw [hcn]; omega
  · rw [ht]

end Sys2Proof.Machine
end

