-- ==== Sys2Proof/Laws/Words.lean ====
section
/-!
SUPPORT. Halves of a register pair (R10): what the halves of a pair are after one was replaced, and small sums.
-/
namespace Sys2Proof.Machine

theorem getLsbD_pair (hi lo : Byte) (i : Nat) :
    BitVec.getLsbD (hi ++ lo : Word) i = if i < 8 then lo.getLsbD i else hi.getLsbD (i - 8) :=
  BitVec.getLsbD_append

@[simp] theorem hiByte_append (hi lo : Byte) : hiByte (hi ++ lo) = hi := by
  refine BitVec.eq_of_getLsbD_eq fun i h => ?_
  simp only [hiByte, BitVec.getLsbD_extractLsb', h, decide_true, Bool.true_and]
  rw [getLsbD_pair]
  simp

@[simp] theorem loByte_append (hi lo : Byte) : loByte (hi ++ lo) = lo := by
  refine BitVec.eq_of_getLsbD_eq fun i h => ?_
  simp only [loByte, BitVec.getLsbD_extractLsb', h, decide_true, Bool.true_and]
  rw [getLsbD_pair]
  simp [h]

@[simp] theorem hiByte_append_loByte (w : Word) : hiByte w ++ loByte w = w := by
  refine BitVec.eq_of_getLsbD_eq fun i h => ?_
  rw [getLsbD_pair]
  split
  · rename_i h'
    simp [loByte, h']
  · have h1 : i - 8 < 8 := by omega
    have h2 : 8 + (i - 8) = i := by omega
    simp [hiByte, h1, h2]

section Halves
variable (w : Word) (hi lo v : Byte)
@[simp] theorem hiByte_withHi : hiByte (withHi w v) = v := hiByte_append _ _
@[simp] theorem loByte_withHi : loByte (withHi w v) = loByte w := loByte_append _ _
@[simp] theorem hiByte_withLo : hiByte (withLo w v) = hiByte w := hiByte_append _ _
@[simp] theorem loByte_withLo : loByte (withLo w v) = v := loByte_append _ _
@[simp] theorem withHi_withLo : withHi (withLo w lo) hi = hi ++ lo := by simp [withHi]
@[simp] theorem withLo_withHi : withLo (withHi w hi) lo = hi ++ lo := by simp [withLo]
end Halves

/-! ## PC and SP after several steps of one -/

theorem add_one_one (w : Word) : w + 1#16 + 1#16 = w + 2#16 := by rw [BitVec.add_assoc]; rfl
theorem add_two_one (w : Word) : w + 2#16 + 1#16 = w + 3#16 := by rw [BitVec.add_assoc]; rfl
theorem sub_one_one (w : Word) : w - 1#16 - 1#16 = w - 2#16 := by bv_omega

end Sys2Proof.Machine
end

