-- ==== Sys2Proof/Laws/Effects.lean ====
section
/-!
SUPPORT. The micro-ops of an instruction's entry come to its net effect, where the operand bytes stand in memory after
the opcode; and a run of the fetch followed by a run of the rest is one run.
-/
namespace Sys2Proof.Machine

/-- An operand word is its two bytes. -/
theorem operand_word {nn : Word} {a b : Byte} (h1 : a = nn.extractLsb' 0 8) (h2 : b = nn.extractLsb' 8 8) :
    b ++ a = nn := by
  subst h1 h2
  ext k hk
  simp only [BitVec.getElem_append, BitVec.getElem_extractLsb']
  split
  · simp [BitVec.getLsbD_eq_getElem hk]
  · rw [BitVec.getLsbD_eq_getElem (by omega)]
    congr 1
    omega

/-- The immediate action, the increment of PC and the micro-ops of an entry, in order, are the net effect of the
instruction whose operand bytes they read through PC. -/
theorem effects_netEffect (i : Instr) {c : Cpu} {m : RefMem}
    (h1 : ∀ b, (encode i)[1]? = some b → m.answer (c.pc + 1#16) = b)
    (h2 : ∀ b, (encode i)[2]? = some b → m.answer (c.pc + 2#16) = b) :
    MicroOp.effects (entryOf i).ops
        (({ (entryOf i).imm c with pc := ((entryOf i).imm c).pc + 1#16 } : Cpu).rested, m) =
      ((netEffect i c m).1.rested, (netEffect i c m).2) := by
  cases i with
  | ldDdNn dd nn =>
    have hn := operand_word (h1 _ rfl) (h2 _ rfl)
    cases dd <;>
      simp [entryOf, entryLdDdNn, pairLo, pairHi, MicroOp.effects, MicroOp.effect, Cpu.address, Cpu.set8, Cpu.rested,
        Cpu.applyPost, PostAction.apply, netEffect, add_one_one, add_two_one, hn]
  | ldAN n =>
    have hn := h1 _ rfl
    simp [entryOf, entryLdAN, MicroOp.effects, MicroOp.effect, Cpu.address, Cpu.set8, Cpu.rested,
      Cpu.applyPost, PostAction.apply, netEffect, add_one_one, hn]
  | ldANn nn =>
    have hn := operand_word (h1 _ rfl) (h2 _ rfl)
    simp [entryOf, entryLdANn, MicroOp.effects, MicroOp.effect, Cpu.address, Cpu.set8, Cpu.rested,
      Cpu.applyPost, PostAction.apply, netEffect, add_one_one, add_two_one, hn]
  | ldNnA nn =>
    have hn := operand_word (h1 _ rfl) (h2 _ rfl)
    simp [entryOf, entryLdNnA, MicroOp.effects, MicroOp.effect, Cpu.address, Cpu.set8, Cpu.get8, Cpu.rested,
      Cpu.applyPost, PostAction.apply, netEffect, add_one_one, add_two_one, hn]
  | jpNn nn =>
    have hn := operand_word (h1 _ rfl) (h2 _ rfl)
    simp [entryOf, entryJpNn, MicroOp.effects, MicroOp.effect, Cpu.address, Cpu.set8, Cpu.rested,
      Cpu.applyPost, PostAction.apply, netEffect, add_one_one, add_two_one, hn]
  | jpNzNn nn =>
    have hn := operand_word (h1 _ rfl) (h2 _ rfl)
    simp [entryOf, entryJpNzNn, MicroOp.effects, MicroOp.effect, Cpu.address, Cpu.set8, Cpu.get8, Cpu.rested,
      Cpu.applyPost, PostAction.apply, netEffect, add_one_one, add_two_one, hn, Cpu.flagZ]
    split <;> rfl
  | callNn nn =>
    have hn := operand_word (h1 _ rfl) (h2 _ rfl)
    simp [entryOf, entryCallNn, MicroOp.effects, MicroOp.effect, Cpu.address, Cpu.set8, Cpu.get8, Cpu.rested,
      Cpu.applyPost, PostAction.apply, netEffect, add_one_one, add_two_one, sub_one_one, hn]
  | ret =>
    simp [entryOf, entryRet, returnFromStack, MicroOp.effects, MicroOp.effect, Cpu.address, Cpu.set8, Cpu.rested,
      Cpu.applyPost, PostAction.apply, netEffect, add_one_one]
  | rstP p =>
    simp [entryOf, entryRstP, saveAndGo, MicroOp.effects, MicroOp.effect, Cpu.address, Cpu.get8, Cpu.rested,
      Cpu.applyPost, PostAction.apply, netEffect, sub_one_one, Cpu.preDecSp]
  | nop => rfl
  | exAfAf => rfl
  | exx => rfl
  | incA => rfl
  | di => rfl
  | ei => rfl
  | halt => rfl

/-- From the phase that executes the opcode, exec leaves the net effect of its instruction. -/
theorem exec_netEffect {s : State} {m : RefMem} (i : Instr) (h : AtDispatch s m)
    (h1 : ∀ b, (encode i)[1]? = some b → s.peek (s.cpu.pc + 1#16) = b)
    (h2 : ∀ b, (encode i)[2]? = some b → s.peek (s.cpu.pc + 2#16) = b) :
    ∃ t, exec i s = .next t ∧
      Completes s t (netEffect i s.cpu m).2 (netEffect i s.cpu m).1.rested (1 + 6 * (entryOf i).ops.length) := by
  obtain ⟨t, ht, hc⟩ := exec_completes i h
  rw [effects_netEffect i (fun b hb => h.toOnBoard.peek _ ▸ h1 b hb) fun b hb => h.toOnBoard.peek _ ▸ h2 b hb] at hc
  exact ⟨t, ht, hc⟩

/-- A part that only ran the node, and a part that ran to the end, are together a run to the end. -/
theorem Completes.after {s t u : State} {m : RefMem} {c : Cpu} {j k : Nat}
    (hn : t.clock.counter = s.clock.counter + j) (hf : t = { s with toNode := t.toNode }) (hc : Completes t u m c k) :
    Completes s u m c (k + j) := by
  refine ⟨hc.rested, ?_, ?_⟩
  · rw [hc.counter, hn]; push_cast; omega
  · rw [hc.frame, hf]; rfl

end Sys2Proof.Machine
end

