-- ==== Sys2Proof/Laws/Interrupts.lean ====
section
/-!
SUPPORT. A step that enters NMI or INT instead of fetching: its first tick, and a run of ticks seen as one step; and the
lines at the end of an instruction without micro-ops.
-/
namespace Sys2Proof.Machine

theorem Cpu.idle_of_fetchEnds (c : Cpu) (h : c.fetchEnds = true) : c.idle = true := by
  simp only [Cpu.fetchEnds, Bool.or_eq_true, Bool.and_eq_true] at h
  rcases h with h | h
  · exact Cpu.idle_of_atRest c h
  · simp [Cpu.idle, h.1.1, h.2]

/-- A run from rest to rest that fetches nothing is a step. -/
theorem step_of_reaches {s : State} {m m' : RefMem} {c c' : Cpu} {b' : Bus} {j : Nat} (h : Rested s m c)
    (hr : Reaches exec0 s.params.rIncMask Cpu.idle j (s.toNode.clockTick, m)
      (.mid c' .done b' (s.clock.counter + 1 + j), m'))
    (hq : Quiet b') (hd : m'.driving = false) (hw : m'.wf = true) (hg : c'.busGranted = false)
    (ha : c'.iack = false) (hp : c'.pipe = []) (hj : j ≤ Config.stepBound) :
    ∃ t, step s = .next t ∧ Completes s t m' c'.rested j := by
  obtain ⟨c0, d0, hidle, hpair, hdev, hkind, hwith⟩ := h.toOnBoard.pair
  have hself : s.withBoard c0 d0 (s.toNode, m) = s := by
    obtain ⟨dn, df, dd, dl, dk⟩ := d0
    obtain ⟨sn, sd, sr, sq, st, sa, sf, sp⟩ := s
    subst hdev
    subst hkind
    rfl
  obtain ⟨⟨n', m''⟩, hsteps, hend⟩ := hr
  obtain ⟨h1, h2⟩ := Prod.mk.inj hend
  subst h2
  have e1 : n'.refused = none := by rw [← Node.clockTick_refused, h1]; rfl
  have e2 : n'.clock.counter + 1 = s.clock.counter + 1 + j := by rw [← Node.clockTick_counter, h1]; rfl
  have hat : n'.cpu.atRest = true := by
    rw [← Node.clockTick_atRest, h1]
    simp [Cpu.atRest, Cpu.atPhase, hp, ha]
  have h4 := advance_of_steps (s := s) hidle hpair blindToPc_fetchEnds
    (stopS := fun t => t.resting || t.dispatching)
    (fun p => by simp [State.resting, State.dispatching, Cpu.fetchEnds, State.withBoard, hidle.running])
    (hsteps.mono Cpu.idle_of_fetchEnds) (by simp [Cpu.fetchEnds, hat]) s.toNode Config.stepBound rfl h.unmarked hj
  rw [hself, hwith] at h4
  have hnd : ∀ t : State, t.cpu.atRest = true → t.dispatching = false := by
    intro t hr
    simp only [Cpu.atRest, Bool.and_eq_true, Bool.or_eq_true, beq_iff_eq] at hr
    rcases hr.2 with e | ⟨-, e⟩ <;> simp [State.dispatching, e]
  refine ⟨_, ?_, rested_of_mid h.toOnBoard h1 e1 e2 (by have := h.counter; omega) hq hd hw hg ha hp, ?_, rfl⟩
  · simp only [step, State.fetch, hnd s h.rest, Bool.false_eq_true, if_false, h4]
    rw [hnd _ hat]
    rfl
  · change n'.clock.counter = _
    omega

/-- The lines after the halt state is left (R311, R315). -/
def Bus.afterHalt (b : Bus) (halted : Bool) : Bus := if halted then b.set .halt .high else b

theorem Bus.afterHalt_quiet {b : Bus} (hb : Quiet b) (h : Bool) :
    Quiet (b.afterHalt h) ∧ (b.afterHalt h).active .int = b.active .int := by
  obtain ⟨⟨q1, q2, q3, q4⟩, q5, q6, q7, q8⟩ := hb
  cases h
  · exact ⟨⟨⟨q1, q2, q3, q4⟩, q5, q6, q7, q8⟩, rfl⟩
  · exact ⟨⟨⟨by simpa [Bus.afterHalt], by simpa [Bus.afterHalt], by simpa [Bus.afterHalt],
      by simpa [Bus.afterHalt]⟩, by simpa [Bus.afterHalt], by simpa [Bus.afterHalt], by simpa [Bus.afterHalt],
      by simpa [Bus.afterHalt]⟩, by simp [Bus.afterHalt]⟩

/-- The CPU after the tick of NMI entry (R311). -/
def Cpu.nmiEntered (c : Cpu) : Cpu :=
  { c with
    nmiPending := false, halted := false, iff1 := false, sp := c.sp - 1#16, mc := .m2
    pipe := saveAndGo nmiEntryAddress }

/-- The tick of NMI entry. -/
theorem cpuTick_nmi {X : ExecTable} {mask : Byte} {n : Node} {c : Cpu} {k : Int} (hb : Quiet n.bus)
    (hg : c.busGranted = false) (hn : n.cpu.normalise = c) (hbd : c.atBoundary = true) (hp : c.nmiPending = true)
    (hk : n.clock = ⟨k, []⟩) (hu : n.refused = none) :
    cpuTick X mask n = .mid c.nmiEntered .t1h1 (n.bus.afterHalt c.halted) k := by
  obtain ⟨⟨h1, h2, h3, -⟩, -⟩ := hb
  have hs : (n.cpu.sampleNmi n.bus).normalise = { c with nmiSampled := false } := by
    rw [← hn]
    simp only [Cpu.sampleNmi, h3, Cpu.normalise, Bool.false_and, Bool.or_false]
    split_ifs <;> rfl
  simp only [Cpu.atBoundary, Bool.and_eq_true, List.isEmpty_iff, beq_iff_eq, Bool.not_eq_true'] at hbd
  obtain ⟨⟨⟨g1, g2⟩, g3⟩, g4⟩ := hbd
  obtain ⟨nc, nb, nk, nr⟩ := n
  simp only at hk hu h1 h2 h3 hs
  subst hk hu
  unfold cpuTick prioritise
  rw [hs]
  simp only [h1, h2, Bool.false_and, Bool.or_false, Bool.false_eq_true, if_false, hg, hp]
  cases c.halted <;>
    simp [nmiEntry, Node.leaveHalt, Node.takeException, Node.pushAll, Node.push, saveAndGo, Cpu.preDecSp,
      Config.pipeDepth, Cpu.atBoundary, g1, g2, g3, g4, hg, Node.mid, Cpu.nmiEntered, Cpu.atPhase, Bus.afterHalt, Node.setLine]

/-- The CPU after the tick of INT entry (R315). -/
def Cpu.intEntered (c : Cpu) : Cpu := { c with halted := false, iff1 := false, iff2 := false, iack := true }

/-- The tick of INT entry. -/
theorem cpuTick_int {X : ExecTable} {mask : Byte} {n : Node} {c : Cpu} {k : Int} (hb : Quiet n.bus)
    (hg : c.busGranted = false) (hn : n.cpu.normalise = c) (hbd : c.atBoundary = true) (hp : c.nmiPending = false)
    (hi : n.bus.active .int = true) (hf : c.iff1 = true) (hk : n.clock = ⟨k, []⟩) (hu : n.refused = none) :
    cpuTick X mask n = .mid c.intEntered .t1h1 (n.bus.afterHalt c.halted) k := by
  obtain ⟨⟨h1, h2, h3, -⟩, -⟩ := hb
  have hs : (n.cpu.sampleNmi n.bus).normalise = { c with nmiSampled := false } := by
    rw [← hn]
    simp only [Cpu.sampleNmi, h3, Cpu.normalise, Bool.false_and, Bool.or_false]
    split_ifs <;> rfl
  simp only [Cpu.atBoundary, Bool.and_eq_true, List.isEmpty_iff, beq_iff_eq, Bool.not_eq_true'] at hbd
  obtain ⟨⟨⟨g1, g2⟩, g3⟩, g4⟩ := hbd
  obtain ⟨nc, nb, nk, nr⟩ := n
  simp only at hk hu h1 h2 h3 hs hi
  subst hk hu
  unfold cpuTick prioritise
  rw [hs]
  simp only [h1, h2, Bool.false_and, Bool.or_false, Bool.false_eq_true, if_false, hg, hp, hi, hf]
  cases c.halted <;>
    simp [intEntry, Node.leaveHalt, Node.mid, Cpu.intEntered, Cpu.atPhase, Bus.afterHalt, Node.setLine, Cpu.atBoundary,
      g1, g2, g3, g4, hp, hg]

/-- What the first tick of a step from rest finds (R184). -/
theorem Rested.tick {s : State} {m : RefMem} {c : Cpu} (h : Rested s m c) :
    c.busGranted = false ∧ c.atBoundary = true ∧ s.toNode.clockTick.clock = ⟨s.clock.counter + 1, []⟩ ∧
      s.toNode.clockTick.refused = none ∧ Quiet s.toNode.clockTick.bus := by
  obtain ⟨g1, g2, g3, g4⟩ := h.cursor
  refine ⟨?_, by simp [Cpu.atBoundary, g1, g2, g3, g4], ?_, by rw [Node.clockTick_refused, h.unmarked],
    ⟨⟨h.reset, h.busrq, h.nmi, h.wait⟩, h.refresh, h.rd, h.wr, h.data⟩⟩
  · have e := congrArg Cpu.busGranted (Node.clockTick_cpu s.toNode)
    rw [← h.cpu, Cpu.normalise_busGranted, ← h.owns]
    exact e
  · have e1 := Node.clockTick_counter s.toNode
    have e3 : s.toNode.clockTick.clock.events = [] := h.fired
    rw [← e1, ← e3]

/-- rotate where the CPU's tick leaves the lines quiet and the memory has nothing to do. -/
theorem rotate_quiet {X : ExecTable} {mask : Byte} {n : Node} {m : RefMem} {c : Cpu} {st : HalfStep} {b : Bus} {k : Int}
    (h : cpuTick X mask n = .mid c st b k) (hq : Quiet b) (hd : m.driving = false) :
    rotate X mask (n, m) = (.mid c st b (k + 1), m) := by
  simp only [rotate, cpuThenMemory, h, Node.mid_bus, RefMem.tick_idle hq.rd hq.wr hd]
  rfl

section Completion
variable {mask : Byte} {c : Cpu} {b : Bus} {k : Int} {m : RefMem}

/-- The last tick of an acknowledge cycle that nothing answered, in mode 0: the byte 0x00 runs as NOP (R99, R318). -/
theorem rotate_ack_mode0 (hc : Acking c) (hi : c.ibyte = 0x00#8) (him : c.im = .im0) (hq : Quiet b)
    (hd : m.driving = false) :
    rotate exec0 mask (.mid c .t4h2 b k, m) =
      (.mid { c with iack := false, opcode := 0x00#8, mc := .m2 } .done b (k + 1), m) := by
  refine rotate_ack hc (by decide) hq.toCalm hq.rd hq.wr hd ?_
  have e : exec0 0x00#8 = some entryNop := by rfl
  simp [iackPhase, iackT4H2, him, iackMode0, Node.execute, hi, e, Node.applyEntry, entryNop, Node.pushAll, hc.awake,
    Node.toM2, Node.mid, Cpu.atPhase]

/-- In mode 1 (R318). -/
theorem rotate_ack_mode1 (hc : Acking c) (hp : c.pipe = []) (him : c.im = .im1) (hq : Quiet b)
    (hd : m.driving = false) :
    rotate exec0 mask (.mid c .t4h2 b k, m) =
      (.mid { c with iack := false, sp := c.sp - 1#16, pipe := saveAndGo intMode1Address, mc := .m2 } .done b (k + 1),
        m) := by
  refine rotate_ack hc (by decide) hq.toCalm hq.rd hq.wr hd ?_
  simp [iackPhase, iackT4H2, him, iackMode1, Node.takeException, Cpu.preDecSp, intMode1Address, saveAndGo,
    Node.pushAll, Node.push, hp, Config.pipeDepth, Node.toM2, Node.mid, Cpu.atPhase]

/-- In mode 2 (R318). -/
theorem rotate_ack_mode2 (hc : Acking c) (hp : c.pipe = []) (him : c.im = .im2) (hq : Quiet b)
    (hd : m.driving = false) :
    rotate exec0 mask (.mid c .t4h2 b k, m) =
      (.mid { c with iack := false, wz := c.i ++ c.ibyte, sp := c.sp - 1#16, pipe := vectorThroughWz, mc := .m2 } .done
        b (k + 1), m) := by
  refine rotate_ack hc (by decide) hq.toCalm hq.rd hq.wr hd ?_
  simp [iackPhase, iackT4H2, him, iackMode2, Cpu.preDecSp, vectorThroughWz, Node.pushAll, Node.push, hp,
    Config.pipeDepth, Node.toM2, Node.mid, Cpu.atPhase]

end Completion

/-- The lines at the end of a run of an entry without micro-ops: those T4_H2 of M1 leaves (R197). -/
theorem runEntry_bus {s : State} {m : RefMem} {e : Entry} (h : AtDispatch s m) (he : KeepsCursor e.imm)
    (ho : e.ops = []) {t : State} (ht : runEntry e s = .next t) :
    t.bus = s.bus.dispatched (e.imm s.cpu).halted := by
  obtain ⟨c, d, hidle, hpair, hdev, hkind, hwith⟩ := h.toOnBoard.pair
  have hself : s.withBoard c d (s.toNode, m) = s := by
    obtain ⟨dn, df, dd, dl, dk⟩ := d
    obtain ⟨sn, sd, sr, sq, st, sa, sf, sp⟩ := s
    subst hdev
    subst hkind
    rfl
  have htick : s.toNode.clockTick =
      ⟨s.cpu, s.bus, ⟨s.clock.counter + 1, [⟨s.clock.counter + 2, .rfshRelease⟩]⟩, none⟩ := by
    have h1 : ¬ s.clock.counter + 2 ≤ s.clock.counter + 1 := by omega
    simp [Node.clockTick, Clock.due, Clock.advance, h.events, h.unmarked]
  have hbus : s.clockTick.bus = s.bus := by simp only [State.clockTick, htick]
  have q1 := h.reset; have q2 := h.busrq; have q3 := h.nmi; have q4 := h.wait; have q5 := h.rd; have q6 := h.wr
  rw [hbus] at q1 q2 q3 q4 q5 q6
  have hn : s.cpu.normalise = s.cpu := Cpu.normalise_of_ne_done _ (by simp [h.phase])
  have hbd : s.cpu.atBoundary = false := by simp [Cpu.atBoundary, h.phase]
  have hc : cpuTick (fun _ => some e) s.params.rIncMask s.toNode.clockTick =
      m1T4H2 (fun _ => some e) { s.toNode.clockTick with cpu := s.cpu.settle } := by
    rw [cpuTick_calm (by rw [htick]; exact ⟨q1, q2, q3, q4⟩) (by rw [htick]; exact h.owns) (by rw [htick]; simp [hn, hbd])
      (by rw [htick]; simp [hn, hbd])]
    simp only [htick, hn, normalDecode, Cpu.settle, h.awake, h.cycle, h.noAck, m1Phase, h.phase, Bool.false_eq_true,
      if_false, if_true]
  rw [m1T4H2_wired (by simpa [Cpu.settle] using h.pipe) he (by simp [ho])] at hc
  simp only [he.latches, ho, htick] at hc
  have hB : ∀ x : Bool, (s.bus.dispatched x).active .rd = false ∧ (s.bus.dispatched x).active .wr = false := by
    intro x
    cases x <;> exact ⟨by simpa [Bus.dispatched], by simpa [Bus.dispatched]⟩
  have hh : (e.imm s.cpu).settle.halted = (e.imm s.cpu).halted := rfl
  rw [hh] at hc
  have hrun : runEntry e s = .next (s.withBoard c d (cpuThenMemory (fun _ => some e) s.params.rIncMask
      (s.toNode.clockTick, m))) := by
    conv_lhs => rw [← hself]
    have hbs := boardStep_withBoard (X := fun _ => some e) hidle hpair (p := (s.toNode, m)) h.unmarked
    rw [runEntry, show Config.stepBound = 63 + 1 from rfl, advance, hbs]
    clear hbs
    have hk : ∀ p, (s.withBoard c d p).refused = p.1.refused := fun _ => rfl
    have hr : ∀ p, (s.withBoard c d p).resting = (s.runState != .run || p.1.cpu.atRest) := fun _ => rfl
    simp only [hk, hr, htick, cpuThenMemory, hc, Cpu.atRest]
    simp [Cpu.settle, he.noAck, h.noAck]
  rw [hrun] at ht
  obtain rfl := (Host.Outcome.next.injEq _ _).mp ht
  simp only [State.withBoard, cpuThenMemory, htick, hc]
  rw [RefMem.tick_idle (hB _).1 (hB _).2 h.released]

end Sys2Proof.Machine
end

