-- ==== Sys2Proof/Laws/Invariants.lean ====
section
/-!
SUPPORT. What every board step keeps, every step keeps: the induction over a step, packaged once.
-/
namespace Sys2Proof.Machine

/-- A run of board steps keeps what a board step of the same table keeps. -/
theorem advance_keeps {X : ExecTable} {P : State → Prop} {stop : State → Bool}
    (h : ∀ s s', boardStep X s = .next s' → P s → P s') :
    ∀ {k : Nat} {s t : State}, advance X stop k s = .next t → P s → P t
  | 0, s, t, e, hs => by
    simp only [advance, Host.Outcome.next.injEq] at e
    exact e ▸ hs
  | k + 1, s, t, e, hs => by
    simp only [advance] at e
    cases hb : boardStep X s with
    | fault r => simp [hb] at e
    | refused r => simp [hb] at e
    | next s' =>
      simp only [hb] at e
      cases hr : s'.refused with
      | some r => simp [hr] at e
      | none =>
        simp only [hr] at e
        split at e
        · simp only [Host.Outcome.next.injEq] at e
          exact e ▸ h s s' hb hs
        · exact advance_keeps h e (h s s' hb hs)

/-- A run answers with a board whose refused mark is not set, unless it takes no board step. -/
theorem advance_unmarked {X : ExecTable} {stop : State → Bool} :
    ∀ {k : Nat} {s t : State}, advance X stop k s = .next t → s.refused = none → t.refused = none
  | 0, s, t, e, hs => by
    simp only [advance, Host.Outcome.next.injEq] at e
    exact e ▸ hs
  | k + 1, s, t, e, hs => by
    simp only [advance] at e
    cases hb : boardStep X s with
    | fault r => simp [hb] at e
    | refused r => simp [hb] at e
    | next s' =>
      simp only [hb] at e
      cases hr : s'.refused with
      | some r => simp [hr] at e
      | none =>
        simp only [hr] at e
        split at e
        · simp only [Host.Outcome.next.injEq] at e
          exact e ▸ hr
        · exact advance_unmarked e hr

/-- What a board step keeps, under EXEC0 and under the constant table of every entry of EXEC0, a step keeps. -/
theorem step_keeps {P : State → Prop} (h0 : ∀ s s', boardStep exec0 s = .next s' → P s → P s')
    (hi : ∀ i s s', boardStep (fun _ => some (entryOf i)) s = .next s' → P s → P s') {s t : State}
    (h : step s = .next t) (hs : P s) : P t := by
  unfold step at h
  cases hf : s.fetch with
  | fault r => simp [hf] at h
  | refused r => simp [hf] at h
  | next u =>
    have hu : P u := by
      unfold State.fetch at hf
      split at hf
      · simp only [Host.Outcome.next.injEq] at hf
        exact hf ▸ hs
      · exact advance_keeps h0 hf hs
    simp only [hf] at h
    split at h
    · cases hc : u.currentInstr with
      | none =>
        simp only [hc] at h
        exact advance_keeps h0 h hu
      | some i =>
        simp only [hc] at h
        have e : exec i u = runEntry (entryOf i) u := by cases i <;> rfl
        rw [e] at h
        exact advance_keeps (hi i) h hu
    · simp only [Host.Outcome.next.injEq] at h
      exact h ▸ hu

/-- What the handling of a request, the arrivals and the three other parts of a board step keep, a board step keeps
(R160, R161). -/
theorem boardStep_keeps {X : ExecTable} {P : State → Prop} (ha : ∀ s, P s → P s.takeArrivals)
    (hc : ∀ s, P s → P s.clockTick) (hd : ∀ s, P s → P (s.dispatchDevices X)) (ht : ∀ s, P s → P s.serviceTimers)
    (hr : ∀ s, P s → P s.drainRequest) {s t : State} (h : boardStep X s = .next t) (hs : P s) : P t := by
  unfold boardStep at h
  cases hm : s.refused with
  | some r => simp [hm] at h
  | none =>
    simp only [hm] at h
    cases hrun : s.runState with
    | quit =>
      simp only [hrun, Host.Outcome.next.injEq] at h
      exact h ▸ hs
    | stop =>
      simp only [hrun, Host.Outcome.next.injEq] at h
      exact h ▸ hr _ (ha _ hs)
    | run =>
      simp only [hrun, Host.Outcome.next.injEq] at h
      exact h ▸ hr _ (ht _ (hd _ (hc _ (ha _ hs))))

end Sys2Proof.Machine
end

