-- ==== Sys2Proof/Laws/PerInstr.lean ====
section
/-!
SUPPORT. The family Length: a well-formed instruction's first byte selects a row of the opcode map, and its other bytes
are as many as the row's format says (R90, R94).
-/
namespace Sys2Proof.Laws.Length

/-- The bytes of the instruction are an opcode of the map and the operand bytes of its format. -/
def Statement (i : Instr) : Prop :=
  WellFormed i = true →
    ∃ op rest r, encode i = op :: rest ∧ rowOf op = some r ∧ rest.length = r.format.operandBytes

theorem nop : Statement .nop := fun _ => ⟨_, _, _, rfl, rfl, rfl⟩
theorem ldDdNn (dd : PairName) (nn : Word) : Statement (.ldDdNn dd nn) := by
  intro _
  cases dd <;> exact ⟨_, _, _, rfl, rfl, rfl⟩
theorem ldAN (n : Byte) : Statement (.ldAN n) := fun _ => ⟨_, _, _, rfl, rfl, rfl⟩
theorem ldANn (nn : Word) : Statement (.ldANn nn) := fun _ => ⟨_, _, _, rfl, rfl, rfl⟩
theorem ldNnA (nn : Word) : Statement (.ldNnA nn) := fun _ => ⟨_, _, _, rfl, rfl, rfl⟩
theorem exAfAf : Statement .exAfAf := fun _ => ⟨_, _, _, rfl, rfl, rfl⟩
theorem exx : Statement .exx := fun _ => ⟨_, _, _, rfl, rfl, rfl⟩
theorem incA : Statement .incA := fun _ => ⟨_, _, _, rfl, rfl, rfl⟩
theorem jpNn (nn : Word) : Statement (.jpNn nn) := fun _ => ⟨_, _, _, rfl, rfl, rfl⟩
theorem jpNzNn (nn : Word) : Statement (.jpNzNn nn) := fun _ => ⟨_, _, _, rfl, rfl, rfl⟩
theorem callNn (nn : Word) : Statement (.callNn nn) := fun _ => ⟨_, _, _, rfl, rfl, rfl⟩
theorem ret : Statement .ret := fun _ => ⟨_, _, _, rfl, rfl, rfl⟩
theorem rstP (p : Word) : Statement (.rstP p) := by
  intro h
  have e : ∀ b : Byte, (b &&& 0xC7#8) = 0#8 → (rowOf (0xC7#8 ||| b)).map Row.format = some .op := by decide +kernel
  have hp : p &&& 0xFFC7#16 = 0#16 := by simpa [WellFormed, restartAddress] using h
  have hb : (p &&& 0xFFC7#16).extractLsb' 0 8 = 0#8 := by rw [hp]; rfl
  rw [BitVec.extractLsb'_and] at hb
  obtain ⟨r, h1, h2⟩ := (Option.map_eq_some_iff).mp (e _ hb)
  exact ⟨_, _, r, rfl, h1, by rw [h2]; rfl⟩
theorem di : Statement .di := fun _ => ⟨_, _, _, rfl, rfl, rfl⟩
theorem ei : Statement .ei := fun _ => ⟨_, _, _, rfl, rfl, rfl⟩
theorem halt : Statement .halt := fun _ => ⟨_, _, _, rfl, rfl, rfl⟩

end Sys2Proof.Laws.Length
end

