-- ==== Sys2Proof/Tests/Slice0.lean ====
section
/-!
SUPPORT. Tests: ill-formed terms, hand-written words for every constructor, one step of every instruction with results
from 95_test_vectors.md or worked from the rules, and for every obligation with hypotheses a witness that meets them.
-/
namespace Sys2Proof.Tests

open Sys2Proof.Machine

/-! ## Small boards -/

/-- A CPU at an instruction boundary, as after reset but for PC and SP. -/
def cpuAt (pc : Word) : Cpu := { Cpu.zero with pc := pc, sp := 0x9000#16, resetStep := 6 }

/-- A writable memory of 64 KiB with these bytes. -/
def memOf (cells : List (Word × Byte)) : RefMem :=
  cells.foldl (fun m p => m.store p.1 p.2)
    { base := 0x0000#16, size := 0x10000, writable := true, bytes := [], driving := false }

/-- The reference board with this CPU and memory. -/
def board (c : Cpu) (m : RefMem) : State :=
  { State.reset with
    cpu := c
    devices :=
      [ { name := 0, frequency := none, divider := none, last := none, kind := .cpu },
        { name := 1, frequency := none, divider := none, last := none, kind := .refMem m } ] }

/-- The same in the middle of an M1: the next phase is T4_H2, the refresh is on. -/
def boardInM1 (c : Cpu) (m : RefMem) : State :=
  { board { c with step := .t4h2 } m with
    bus := State.reset.bus.set .rfsh .low
    clock := ⟨12, [⟨14, .rfshRelease⟩]⟩ }

/-- What an outcome answers, looked at through f. -/
def answer {α : Type} (o : Host.Outcome State Fault Refusal) (f : State → α) : Option α :=
  match o with
  | .next t => some (f t)
  | .fault _ => none
  | .refused _ => none

/-- What a step answers, looked at through f. -/
def result {α : Type} (s : State) (f : State → α) : Option α := answer (step s) f

/-- An outcome that is looked at with an answer is a next state. -/
theorem answer_some {α : Type} {o : Host.Outcome State Fault Refusal} {f : State → α} {v : α}
    (h : answer o f = some v) : ∃ t, o = .next t ∧ f t = v := by
  cases o with
  | next t => exact ⟨t, rfl, by simpa [answer] using h⟩
  | fault r => simp [answer] at h
  | refused r => simp [answer] at h

/-- A step that is looked at with an answer has a next state. -/
theorem result_some {α : Type} {s : State} {f : State → α} {v : α} (h : result s f = some v) :
    ∃ t, step s = .next t ∧ f t = v := answer_some h

/-- One step from 0x0100 with these bytes there. -/
def run (c : Cpu) (bytes : List Byte) (more : List (Word × Byte)) {α : Type} (f : State → α) : Option α :=
  result ((board { c with pc := 0x0100#16 } (memOf more)).placeBytes 0x0100#16 bytes) f

/-! ## WellFormed -/

theorem test_illFormed_rst_odd : WellFormed (.rstP 0x0001#16) = false := by decide
theorem test_illFormed_rst_high : WellFormed (.rstP 0x0040#16) = false := by decide
theorem test_wellFormed_rst_top : WellFormed (.rstP 0x0038#16) = true := by decide

/-! ## Decoding: words written out from 30_encoding.md -/

theorem test_decode_nop : decodeInstr [0b00000000#8] = some .nop := by decide
theorem test_decode_ld_bc : decodeInstr [0b00000001#8, 0x34#8, 0x12#8] = some (.ldDdNn .bc 0x1234#16) := by decide
theorem test_decode_ld_de : decodeInstr [0b00010001#8, 0x34#8, 0x12#8] = some (.ldDdNn .de 0x1234#16) := by decide
theorem test_decode_ld_hl : decodeInstr [0b00100001#8, 0x34#8, 0x12#8] = some (.ldDdNn .hl 0x1234#16) := by decide
theorem test_decode_ld_sp : decodeInstr [0b00110001#8, 0x00#8, 0x80#8] = some (.ldDdNn .sp 0x8000#16) := by decide
theorem test_decode_ld_a_n : decodeInstr [0b00111110#8, 0x05#8] = some (.ldAN 0x05#8) := by decide
theorem test_decode_ld_a_nn : decodeInstr [0b00111010#8, 0x00#8, 0x90#8] = some (.ldANn 0x9000#16) := by decide
theorem test_decode_ld_nn_a : decodeInstr [0b00110010#8, 0x00#8, 0x90#8] = some (.ldNnA 0x9000#16) := by decide
theorem test_decode_ex : decodeInstr [0b00001000#8] = some .exAfAf := by decide
theorem test_decode_exx : decodeInstr [0b11011001#8] = some .exx := by decide
theorem test_decode_inc_a : decodeInstr [0b00111100#8] = some .incA := by decide
theorem test_decode_jp : decodeInstr [0b11000011#8, 0x00#8, 0x80#8] = some (.jpNn 0x8000#16) := by decide
theorem test_decode_jp_nz : decodeInstr [0b11000010#8, 0x02#8, 0x00#8] = some (.jpNzNn 0x0002#16) := by decide
theorem test_decode_call : decodeInstr [0b11001101#8, 0x10#8, 0x00#8] = some (.callNn 0x0010#16) := by decide
theorem test_decode_ret : decodeInstr [0b11001001#8] = some .ret := by decide
theorem test_decode_rst_00 : decodeInstr [0b11000111#8] = some (.rstP 0x0000#16) := by decide
theorem test_decode_rst_28 : decodeInstr [0b11101111#8] = some (.rstP 0x0028#16) := by decide
theorem test_decode_di : decodeInstr [0b11110011#8] = some .di := by decide
theorem test_decode_ei : decodeInstr [0b11111011#8] = some .ei := by decide
theorem test_decode_halt : decodeInstr [0b01110110#8] = some .halt := by decide
theorem test_decode_prefix : decodeInstr [0b11001011#8, 0x00#8] = none := by decide
theorem test_decode_truncated : decode [0b11000011#8, 0x00#8] = .error (.truncated 0xC3#8) := by rfl
theorem test_table_word : decodeTableWord 24 0x801221 = some (.ldDdNn .hl 0x8012#16) := by decide
theorem test_table_short : decodeTableWord 8 0x3E = some (.ldAN 0x00#8) := by decide

/-! ## One step of each instruction (V-L, V-J, V-S and the table of R262) -/

theorem test_nop : run (cpuAt 0x0100#16) [0x00#8] [] (fun t => (t.fetchPc, t.cpu.r)) =
    some (0x0101#16, 0x01#8) := by decide +kernel
theorem test_ld_bc : run (cpuAt 0x0100#16) [0x01#8, 0x34#8, 0x12#8] [] (fun t => (t.cpu.bc, t.fetchPc)) =
    some (0x1234#16, 0x0103#16) := by decide +kernel
theorem test_ld_sp : run { cpuAt 0x0100#16 with sp := 0xFFFF#16 } [0x31#8, 0xFE#8, 0xFF#8] []
    (fun t => (t.cpu.sp, t.fetchPc)) = some (0xFFFE#16, 0x0103#16) := by decide +kernel
theorem test_ld_a_n : run { cpuAt 0x0100#16 with af := 0x0055#16 } [0x3E#8, 0x80#8] []
    (fun t => (t.cpu.af, t.fetchPc)) = some (0x8055#16, 0x0102#16) := by decide +kernel
theorem test_ld_a_nn : run (cpuAt 0x0100#16) [0x3A#8, 0x00#8, 0x90#8] [(0x9000#16, 0x77#8)]
    (fun t => (t.cpu.af, t.cpu.wz, t.fetchPc)) = some (0x7700#16, 0x9000#16, 0x0103#16) := by decide +kernel
/-- V-L13: the operand wraps around the top of memory. -/
theorem test_ld_a_nn_wraps : result (board (cpuAt 0xFFFE#16)
      (memOf [(0xFFFE#16, 0x3A#8), (0xFFFF#16, 0x34#8), (0x0000#16, 0x12#8), (0x1234#16, 0x99#8)]))
    (fun t => (t.cpu.af, t.fetchPc)) = some (0x9900#16, 0x0001#16) := by decide +kernel
theorem test_ld_nn_a_top : run { cpuAt 0x0100#16 with af := 0xAB00#16 } [0x32#8, 0xFF#8, 0xFF#8] []
    (fun t => (t.peek 0xFFFF#16, t.cpu.wz, t.fetchPc)) = some (0xAB#8, 0xFFFF#16, 0x0103#16) := by decide +kernel
/-- V-L9: a store into its own operand. -/
theorem test_ld_nn_a_self : run { cpuAt 0x0100#16 with af := 0xEE00#16 } [0x32#8, 0x01#8, 0x01#8] []
    (fun t => (t.peek 0x0101#16, t.peek 0x0102#16)) = some (0xEE#8, 0x01#8) := by decide +kernel
theorem test_ex_af : run { cpuAt 0x0100#16 with af := 0x1234#16, af' := 0xABCD#16 } [0x08#8] []
    (fun t => (t.cpu.af, t.cpu.af')) = some (0xABCD#16, 0x1234#16) := by decide +kernel
theorem test_exx : run { cpuAt 0x0100#16 with bc := 0x1111#16, de := 0x2222#16, hl := 0x3333#16, hl' := 0xCCCC#16 }
    [0xD9#8] [] (fun t => (t.cpu.bc, t.cpu.bc', t.cpu.de', t.cpu.hl, t.cpu.hl')) =
    some (0x0000#16, 0x1111#16, 0x2222#16, 0xCCCC#16, 0x3333#16) := by decide +kernel
theorem test_inc_a_overflow : run { cpuAt 0x0100#16 with af := 0x7F01#16 } [0x3C#8] [] (fun t => t.cpu.af) =
    some 0x8095#16 := by decide +kernel
theorem test_inc_a_wraps : run { cpuAt 0x0100#16 with af := 0xFFFF#16 } [0x3C#8] [] (fun t => t.cpu.af) =
    some 0x0051#16 := by decide +kernel
theorem test_jp : run (cpuAt 0x0100#16) [0xC3#8, 0x00#8, 0x20#8] [] (fun t => (t.fetchPc, t.cpu.wz)) =
    some (0x2000#16, 0x2000#16) := by decide +kernel
theorem test_jp_nz_taken : run { cpuAt 0x0100#16 with af := 0x00BF#16 } [0xC2#8, 0x00#8, 0x20#8] []
    (fun t => (t.fetchPc, t.cpu.wz)) = some (0x2000#16, 0x2000#16) := by decide +kernel
theorem test_jp_nz_not_taken : run { cpuAt 0x0100#16 with af := 0x0040#16 } [0xC2#8, 0x00#8, 0x20#8] []
    (fun t => (t.fetchPc, t.cpu.wz)) = some (0x0103#16, 0x2000#16) := by decide +kernel
/-- V-J6: SP wraps. -/
theorem test_call_wraps : run { cpuAt 0x0100#16 with sp := 0x0001#16 } [0xCD#8, 0x00#8, 0x20#8] []
    (fun t => (t.fetchPc, t.cpu.sp, t.peek 0x0000#16, t.peek 0xFFFF#16)) =
    some (0x2000#16, 0xFFFF#16, 0x01#8, 0x03#8) := by decide +kernel
/-- V-J10: the stack overlaps the instruction. -/
theorem test_call_overlaps : run { cpuAt 0x0100#16 with sp := 0x0102#16 } [0xCD#8, 0x00#8, 0x20#8] []
    (fun t => (t.fetchPc, t.peek 0x0100#16, t.peek 0x0101#16)) = some (0x2000#16, 0x03#8, 0x01#8) := by decide +kernel
/-- V-J8: SP wraps. -/
theorem test_ret_wraps : run { cpuAt 0x0100#16 with sp := 0xFFFF#16 } [0xC9#8]
    [(0xFFFF#16, 0x34#8), (0x0000#16, 0x12#8)] (fun t => (t.fetchPc, t.cpu.sp)) =
    some (0x1234#16, 0x0001#16) := by decide +kernel
theorem test_rst_38 : run (cpuAt 0x0100#16) [0xFF#8] []
    (fun t => (t.fetchPc, t.cpu.sp, t.peek 0x8FFF#16, t.peek 0x8FFE#16)) =
    some (0x0038#16, 0x8FFE#16, 0x01#8, 0x01#8) := by decide +kernel
theorem test_rst_08 : run (cpuAt 0x0100#16) [0xCF#8] [] (fun t => t.fetchPc) = some 0x0008#16 := by decide +kernel
theorem test_di : run { cpuAt 0x0100#16 with iff1 := true, iff2 := true } [0xF3#8] []
    (fun t => (t.cpu.iff1, t.cpu.iff2)) = some (false, false) := by decide +kernel
theorem test_ei : run (cpuAt 0x0100#16) [0xFB#8] [] (fun t => (t.cpu.iff1, t.cpu.iff2)) = some (true, true) := by
  decide +kernel
theorem test_halt : run (cpuAt 0x0100#16) [0x76#8] [] (fun t => (t.cpu.halted, t.fetchPc, t.bus.active .halt)) =
    some (true, 0x0101#16, true) := by decide +kernel
/-- V-U1. -/
theorem test_unwired : (match step ((board (cpuAt 0x0000#16) (memOf [])).poke 0x0000#16 0xED#8) with
    | .refused r => some r
    | _ => none) = some (.unwiredOpcode 0xED#8 0x0000#16) := by decide +kernel
/-- NMI out of HALT (V-NMI1): the resting PC on the stack, PC at 0x0066, HALT High. -/
theorem test_nmi : result (board { cpuAt 0x0009#16 with halted := true, sp := 0x8000#16, nmiPending := true } (memOf []))
    (fun t => (t.cpu.pc, t.cpu.sp, t.peek 0x7FFE#16, t.cpu.halted, (t.bus.get .halt).cur)) =
    some (0x0066#16, 0x7FFE#16, 0x09#8, false, Level.high) := by decide +kernel
/-- INT in mode 2 with nobody driving the lines: the vector at I ++ 0x00 (V-I4's layout, byte 0x00). -/
theorem test_int_mode2 : result { board { cpuAt 0x0004#16 with iff1 := true, im := .im2, i := 0x80#8 }
      (memOf [(0x8000#16, 0x38#8), (0x8001#16, 0x20#8)]) with bus := State.reset.bus.set .int .low }
    (fun t => (t.cpu.pc, t.cpu.sp, t.peek 0x8FFE#16, t.cpu.iff1)) =
    some (0x2038#16, 0x8FFE#16, 0x04#8, false) := by decide +kernel
theorem test_fetch_word : step (State.reset.withFetchWord 8 0x08) =
    step (State.reset.placeBytes 0x0000#16 [0x08#8, 0x00#8, 0x00#8]) := by rfl

/-! ## The bus, the clock, memory (V-B, V-C) -/

theorem test_bus_rises_out_of_z : ((Bus.all .hiZ).set .wait .high).posedge .wait = false := by decide
theorem test_bus_edge_persists : (((Bus.all .hiZ).set .wait .low).set .wait .high).posedge .wait = true := by decide
/-- V-B10. -/
theorem test_data_read : (((((Bus.all .hiZ).set (.d 7) .high).set (.d 5) .low).set (.d 4) .high).set (.d 0) .high).dataRead =
    0x91#8 := by decide +kernel
theorem test_addr_round : ((Bus.all .hiZ).addrWrite 0x1000#16).addrRead = 0x1000#16 := by decide +kernel
/-- V-C4. -/
theorem test_clock : (Clock.advance ⟨7, [⟨8, .rfshRelease⟩, ⟨8, .pcIncrement⟩, ⟨12, .rfshRelease⟩]⟩) =
    ⟨8, [⟨12, .rfshRelease⟩]⟩ := by decide
theorem test_memory_zero_removes : Memory.write [(1, 0x22#8), (7, 0x33#8)] 1 0x00#8 = [(7, 0x33#8)] := by decide
theorem test_refresh_keeps_bit7 : refreshIncrement 0x7F#8 0xFF#8 = 0x80#8 := by decide
/-- R43: a record handed over in use is as after reset() on the new board. -/
theorem test_construction_resets_records :
    (State.construction Params.reference
      [⟨1, none, none, some 5, .refMem { memOf [(7, 0x33#8)] with driving := true }⟩]).devices =
      [⟨1, none, none, none, .refMem (memOf [(7, 0x33#8)])⟩] := by decide +kernel
/-- R194: the refresh address is I ++ R with R before its increment (V: the table of R198). -/
theorem test_refresh_address :
    (cpuTick exec0 0x7F#8 { State.reset.toNode with
      cpu := { cpuAt 0x1000#16 with step := .t3h1, i := 0x12#8, r := 0x34#8 } }).bus.addrRead = 0x1234#16 := by
  decide +kernel
theorem test_add_overlapping :
    ((Task.addDevices [⟨2, none, none, none, .refMem (memOf [])⟩]).perform State.reset).refused =
      some .overlappingMemories := by decide +kernel

/-! ## Witnesses: boards that meet the hypotheses of the obligations -/

/-- A CPU at an instruction boundary that owns the bus. -/
structure Ready (c : Cpu) : Prop where
  mc : c.mc = .m1
  step : c.step = .t1h1
  pipe : c.pipe = []
  noAck : c.iack = false
  owns : c.busGranted = false

theorem ready_cpuAt (pc : Word) : Ready (cpuAt pc) := ⟨rfl, rfl, rfl, rfl, rfl⟩

theorem Ready.atRest {c : Cpu} (h : Ready c) : c.atRest = true := by
  simp [Cpu.atRest, h.mc, h.step, h.pipe, h.noAck]

theorem board_clockTick (c : Cpu) (m : RefMem) : (board c m).clockTick = { board c m with clock := ⟨6, []⟩ } := rfl

theorem board_onBoard {c : Cpu} {m : RefMem} (h : Ready c) (hm : m.wf = true) (hd : m.driving = false) :
    OnBoard (board c m) m :=
  ⟨rfl, rfl, rfl, rfl, rfl, rfl, hm, (by decide : (-1 : Int) ≤ 5), rfl, rfl, rfl, rfl, rfl, rfl,
    (by decide +kernel : State.reset.bus.dataRead = 0x00#8), hd, h.owns, h.noAck⟩

theorem board_rested {c : Cpu} {m : RefMem} (h : Ready c) (hm : m.wf = true) (hd : m.driving = false) :
    Rested (board c m) m c :=
  ⟨board_onBoard h hm hd, h.atRest, rfl, rfl, by
    rw [board_clockTick]
    exact Cpu.normalise_of_ne_done _ (by rw [show (board c m).cpu = c from rfl, h.step]; decide)⟩

theorem board_boundary {c : Cpu} {m : RefMem} (h : Ready c) (hm : m.wf = true) (hd : m.driving = false)
    (hh : c.halted = false) (hn : c.nmiPending = false) : AtBoundary (board c m) m c :=
  ⟨board_rested h hm hd, hh, hn, rfl⟩

theorem boardInM1_dispatch {c : Cpu} {m : RefMem} (h : Ready c) (hm : m.wf = true) (hd : m.driving = false)
    (hh : c.halted = false) : AtDispatch (boardInM1 c m) m :=
  ⟨⟨rfl, rfl, rfl, rfl, rfl, rfl, hm, (by decide : (-1 : Int) ≤ 12), rfl, rfl, rfl, rfl, rfl, rfl,
      (by decide +kernel : (State.reset.bus.set .rfsh .low).dataRead = 0x00#8), hd, h.owns, h.noAck⟩,
    h.mc, rfl, h.pipe, hh, rfl⟩

/-- Three bytes at the top of memory, so that the operand bytes of a word instruction straddle the wrap. -/
def topMem (b0 b1 b2 : Byte) : RefMem := memOf [(0xFFFE#16, b0), (0xFFFF#16, b1), (0x0000#16, b2)]

theorem topMem_wf (b0 b1 b2 : Byte) : (topMem b0 b1 b2).wf = true :=
  RefMem.wf_store_decodes _ (RefMem.wf_store_decodes _ (RefMem.wf_store_decodes _ (by decide)
    (by decide : (memOf []).decodes 0xFFFE#16 = true)) (by decide : (memOf []).decodes 0xFFFF#16 = true))
    (by decide : (memOf []).decodes 0x0000#16 = true)

theorem topMem_dispatch (b0 b1 b2 : Byte) : AtDispatch (boardInM1 (cpuAt 0xFFFE#16) (topMem b0 b1 b2)) (topMem b0 b1 b2) :=
  boardInM1_dispatch (ready_cpuAt _) (topMem_wf ..) rfl rfl

theorem topMem_boundary (b0 b1 b2 : Byte) :
    AtBoundary (board (cpuAt 0xFFFE#16) (topMem b0 b1 b2)) (topMem b0 b1 b2) (cpuAt 0xFFFE#16) :=
  board_boundary (ready_cpuAt _) (topMem_wf ..) rfl rfl rfl

/-- A board at 0xFFFE with INT active and masked. -/
def boardInt (m : RefMem) : State := { board (cpuAt 0xFFFE#16) m with bus := State.reset.bus.set .int .low }

theorem boardInt_boundary (m : RefMem) (hm : m.wf = true) (hd : m.driving = false) :
    AtBoundary (boardInt m) m (cpuAt 0xFFFE#16) :=
  ⟨⟨⟨rfl, rfl, rfl, rfl, rfl, rfl, hm, (by decide : (-1 : Int) ≤ 5), rfl, rfl, rfl, rfl, rfl, rfl,
    (by decide +kernel : (State.reset.bus.set .int .low).dataRead = 0x00#8), hd, rfl, rfl⟩, rfl, rfl, rfl, rfl⟩,
    rfl, rfl, rfl⟩

theorem witness_NopOnlyAdvancesPc :
    (∃ s m, AtDispatch s m) ∧ ∃ s m c, AtBoundary s m c ∧ s.peek c.pc = 0x00#8 :=
  ⟨⟨_, _, topMem_dispatch 0x00#8 0x00#8 0x00#8⟩, _, _, _, topMem_boundary 0x00#8 0x00#8 0x00#8, by decide +kernel⟩
theorem witness_LdDdNnLoadsThePair :
    (∃ s m nn, AtDispatch s m ∧ s.peek (s.cpu.pc + 1#16) = loByte nn ∧ s.peek (s.cpu.pc + 2#16) = hiByte nn) ∧
    ∃ s m c nn, AtBoundary s m c ∧ s.peek c.pc = 0x31#8 ∧ s.peek (c.pc + 1#16) = loByte nn ∧
      s.peek (c.pc + 2#16) = hiByte nn :=
  ⟨⟨_, _, 0x1234#16, topMem_dispatch 0x31#8 0x34#8 0x12#8, by decide +kernel, by decide +kernel⟩,
    _, _, _, 0x1234#16, topMem_boundary 0x31#8 0x34#8 0x12#8, by decide +kernel, by decide +kernel, by decide +kernel⟩
theorem witness_LdANLoadsTheImmediate :
    (∃ s m n, AtDispatch s m ∧ s.peek (s.cpu.pc + 1#16) = n) ∧
    ∃ s m c n, AtBoundary s m c ∧ s.peek c.pc = 0x3E#8 ∧ s.peek (c.pc + 1#16) = n :=
  ⟨⟨_, _, 0x05#8, topMem_dispatch 0x3E#8 0x05#8 0x00#8, by decide +kernel⟩,
    _, _, _, 0x05#8, topMem_boundary 0x3E#8 0x05#8 0x00#8, by decide +kernel, by decide +kernel⟩
theorem witness_LdANnLoadsTheByteAtNn :
    (∃ s m nn, AtDispatch s m ∧ s.peek (s.cpu.pc + 1#16) = loByte nn ∧ s.peek (s.cpu.pc + 2#16) = hiByte nn) ∧
    ∃ s m c nn, AtBoundary s m c ∧ s.peek c.pc = 0x3A#8 ∧ s.peek (c.pc + 1#16) = loByte nn ∧
      s.peek (c.pc + 2#16) = hiByte nn :=
  ⟨⟨_, _, 0xFFFF#16, topMem_dispatch 0x3A#8 0xFF#8 0xFF#8, by decide +kernel, by decide +kernel⟩,
    _, _, _, 0xFFFF#16, topMem_boundary 0x3A#8 0xFF#8 0xFF#8, by decide +kernel, by decide +kernel, by decide +kernel⟩
theorem witness_LdNnAStoresAAtNn :
    (∃ s m nn, AtDispatch s m ∧ s.peek (s.cpu.pc + 1#16) = loByte nn ∧ s.peek (s.cpu.pc + 2#16) = hiByte nn) ∧
    ∃ s m c nn, AtBoundary s m c ∧ s.peek c.pc = 0x32#8 ∧ s.peek (c.pc + 1#16) = loByte nn ∧
      s.peek (c.pc + 2#16) = hiByte nn :=
  ⟨⟨_, _, 0x0000#16, topMem_dispatch 0x32#8 0x00#8 0x00#8, by decide +kernel, by decide +kernel⟩,
    _, _, _, 0xFFFE#16, topMem_boundary 0x32#8 0xFE#8 0xFF#8, by decide +kernel, by decide +kernel, by decide +kernel⟩
theorem witness_ExAfAfSwapsAf : (∃ s m, AtDispatch s m) ∧ ∃ s m c, AtBoundary s m c ∧ s.peek c.pc = 0x08#8 :=
  ⟨⟨_, _, topMem_dispatch 0x08#8 0x00#8 0x00#8⟩, _, _, _, topMem_boundary 0x08#8 0x00#8 0x00#8, by decide +kernel⟩
theorem witness_ExxSwapsTheMainPairs : (∃ s m, AtDispatch s m) ∧ ∃ s m c, AtBoundary s m c ∧ s.peek c.pc = 0xD9#8 :=
  ⟨⟨_, _, topMem_dispatch 0xD9#8 0x00#8 0x00#8⟩, _, _, _, topMem_boundary 0xD9#8 0x00#8 0x00#8, by decide +kernel⟩
theorem witness_IncAWritesAAndTheFlags :
    (∃ s m, AtDispatch s m) ∧ ∃ s m c, AtBoundary s m c ∧ s.peek c.pc = 0x3C#8 :=
  ⟨⟨_, _, topMem_dispatch 0x3C#8 0x00#8 0x00#8⟩, _, _, _, topMem_boundary 0x3C#8 0x00#8 0x00#8, by decide +kernel⟩
theorem witness_JpNnGoesToNn :
    (∃ s m nn, AtDispatch s m ∧ s.peek (s.cpu.pc + 1#16) = loByte nn ∧ s.peek (s.cpu.pc + 2#16) = hiByte nn) ∧
    ∃ s m c nn, AtBoundary s m c ∧ s.peek c.pc = 0xC3#8 ∧ s.peek (c.pc + 1#16) = loByte nn ∧
      s.peek (c.pc + 2#16) = hiByte nn :=
  ⟨⟨_, _, 0xFFFE#16, topMem_dispatch 0xC3#8 0xFE#8 0xFF#8, by decide +kernel, by decide +kernel⟩,
    _, _, _, 0xFFFE#16, topMem_boundary 0xC3#8 0xFE#8 0xFF#8, by decide +kernel, by decide +kernel, by decide +kernel⟩
/-- Both ways: F[6] = 0 and F[6] = 1. -/
theorem witness_JpNzNnGoesToNnUnlessZ :
    (∃ s m nn, AtDispatch s m ∧ s.peek (s.cpu.pc + 1#16) = loByte nn ∧ s.peek (s.cpu.pc + 2#16) = hiByte nn ∧
      (loByte s.cpu.af).getLsbD 6 = true) ∧
    ∃ s m c nn, AtBoundary s m c ∧ s.peek c.pc = 0xC2#8 ∧ s.peek (c.pc + 1#16) = loByte nn ∧
      s.peek (c.pc + 2#16) = hiByte nn ∧ (loByte c.af).getLsbD 6 = false :=
  ⟨⟨boardInM1 { cpuAt 0xFFFE#16 with af := 0x0040#16 } (topMem 0xC2#8 0x00#8 0x20#8), _, 0x2000#16,
      boardInM1_dispatch ⟨rfl, rfl, rfl, rfl, rfl⟩ (topMem_wf ..) rfl rfl, by decide +kernel, by decide +kernel, rfl⟩,
    _, _, _, 0x2000#16, topMem_boundary 0xC2#8 0x00#8 0x20#8, by decide +kernel, by decide +kernel, by decide +kernel,
    rfl⟩
/-- With SP = 0x0001, so that the stack wraps. -/
theorem witness_CallNnSavesPcAndGoesToNn :
    (∃ s m nn, AtDispatch s m ∧ s.peek (s.cpu.pc + 1#16) = loByte nn ∧ s.peek (s.cpu.pc + 2#16) = hiByte nn ∧
      s.cpu.sp = 0x0001#16) ∧
    ∃ s m c nn, AtBoundary s m c ∧ s.peek c.pc = 0xCD#8 ∧ s.peek (c.pc + 1#16) = loByte nn ∧
      s.peek (c.pc + 2#16) = hiByte nn :=
  ⟨⟨boardInM1 { cpuAt 0xFFFE#16 with sp := 0x0001#16 } (topMem 0xCD#8 0x00#8 0x20#8), _, 0x2000#16,
      boardInM1_dispatch ⟨rfl, rfl, rfl, rfl, rfl⟩ (topMem_wf ..) rfl rfl, by decide +kernel, by decide +kernel, rfl⟩,
    _, _, _, 0x2000#16, topMem_boundary 0xCD#8 0x00#8 0x20#8, by decide +kernel, by decide +kernel, by decide +kernel⟩
theorem witness_RetTakesPcFromTheStack :
    (∃ s m, AtDispatch s m) ∧ ∃ s m c, AtBoundary s m c ∧ s.peek c.pc = 0xC9#8 :=
  ⟨⟨_, _, topMem_dispatch 0xC9#8 0x00#8 0x00#8⟩, _, _, _, topMem_boundary 0xC9#8 0x00#8 0x00#8, by decide +kernel⟩
/-- The lowest and the highest restart. -/
theorem witness_RstPSavesPcAndGoesToP :
    (∃ s m, AtDispatch s m) ∧
    (∃ s m c, AtBoundary s m c ∧ s.peek c.pc = 0b11#2 ++ 0b000#3 ++ 0b111#3) ∧
    ∃ s m c, AtBoundary s m c ∧ s.peek c.pc = 0b11#2 ++ 0b111#3 ++ 0b111#3 :=
  ⟨⟨_, _, topMem_dispatch 0xC7#8 0x00#8 0x00#8⟩, ⟨_, _, _, topMem_boundary 0xC7#8 0x00#8 0x00#8, by decide +kernel⟩,
    _, _, _, topMem_boundary 0xFF#8 0x00#8 0x00#8, by decide +kernel⟩
theorem witness_RstP_mode0 :
    ∃ (n : Node) (ttt : BitVec 3), n.cpu.pipe = [] ∧ n.cpu.im = .im0 ∧ n.cpu.ibyte = 0b11#2 ++ ttt ++ 0b111#3 :=
  ⟨{ State.reset.toNode with cpu := { cpuAt 0x0004#16 with ibyte := 0xFF#8 } }, 0b111#3, rfl, rfl, rfl⟩
theorem witness_DiClearsTheFlipFlops : (∃ s m, AtDispatch s m) ∧ ∃ s m c, AtBoundary s m c ∧ s.peek c.pc = 0xF3#8 :=
  ⟨⟨_, _, topMem_dispatch 0xF3#8 0x00#8 0x00#8⟩, _, _, _, topMem_boundary 0xF3#8 0x00#8 0x00#8, by decide +kernel⟩
/-- INT active at the boundary that follows: with IFF1 = 1 before the DI, and across a whole step, where IFF1 is 0. -/
theorem witness_Di_int :
    (∃ s m t, AtDispatch s m ∧ s.cpu.nmiPending = false ∧ s.cpu.iff1 = true ∧ exec .di s = .next t ∧
      t.clockTick.bus.active .int = true) ∧
    ∃ s m c t, AtBoundary s m c ∧ s.peek c.pc = 0xF3#8 ∧ step s = .next t ∧ t.clockTick.bus.active .int = true := by
  constructor
  · let s : State :=
      { boardInM1 { cpuAt 0x0100#16 with iff1 := true } (memOf []) with
        bus := (State.reset.bus.set .rfsh .low).set .int .low }
    obtain ⟨t, ht, hi⟩ := answer_some (o := exec .di s) (f := fun t => t.clockTick.bus.active .int) (v := true)
      (by decide +kernel)
    exact ⟨s, memOf [], t, ⟨⟨rfl, rfl, rfl, rfl, rfl, rfl, rfl, (by decide : (-1 : Int) ≤ 12), rfl, rfl, rfl, rfl, rfl,
      rfl, (by decide +kernel : ((State.reset.bus.set .rfsh .low).set .int .low).dataRead = 0x00#8), rfl, rfl, rfl⟩,
      rfl, rfl, rfl, rfl, rfl⟩, rfl, rfl, ht, hi⟩
  · obtain ⟨t, ht, hi⟩ := result_some (s := boardInt (topMem 0xF3#8 0x00#8 0x00#8))
      (f := fun t => t.clockTick.bus.active .int) (v := true) (by decide +kernel)
    exact ⟨_, _, _, t, boardInt_boundary _ (topMem_wf ..) rfl, by decide +kernel, ht, hi⟩
theorem witness_EiSetsTheFlipFlops : (∃ s m, AtDispatch s m) ∧ ∃ s m c, AtBoundary s m c ∧ s.peek c.pc = 0xFB#8 :=
  ⟨⟨_, _, topMem_dispatch 0xFB#8 0x00#8 0x00#8⟩, _, _, _, topMem_boundary 0xFB#8 0x00#8 0x00#8, by decide +kernel⟩
/-- INT active while EI runs, and so at the boundary that follows. -/
theorem witness_Ei_int : ∃ s m c t, AtBoundary s m c ∧ s.peek c.pc = 0xFB#8 ∧ step s = .next t ∧
    t.clockTick.bus.active .int = true := by
  obtain ⟨t, ht, hi⟩ := result_some (s := boardInt (topMem 0xFB#8 0x00#8 0x00#8))
    (f := fun t => t.clockTick.bus.active .int) (v := true) (by decide +kernel)
  exact ⟨_, _, _, t, boardInt_boundary _ (topMem_wf ..) rfl, by decide +kernel, ht, hi⟩
theorem witness_HaltStopsTheCpu :
    (∃ s m, AtDispatch s m) ∧ (∃ s m c, AtBoundary s m c ∧ s.peek c.pc = 0x76#8) ∧ ∃ n : Node, n.cpu.halted = true :=
  ⟨⟨_, _, topMem_dispatch 0x76#8 0x00#8 0x00#8⟩, ⟨_, _, _, topMem_boundary 0x76#8 0x00#8 0x00#8, by decide +kernel⟩,
    (board { cpuAt 0x0000#16 with halted := true } (memOf [])).toNode, rfl⟩

theorem witness_SetShiftsOneLineAndEdgesPersist :
    ∃ (l : Line) (later : List (Line × Level)), later ≠ [] ∧ ∀ o ∈ later, o.1 ≠ l :=
  ⟨.halt, [(.m1, .low), (.a 3, .high)], by decide, by decide⟩
theorem witness_HighImpedanceHasNoEdge :
    (∃ (b : Bus) (l : Line), (b.get l).prev = .hiZ ∧ (b.get l).cur = .low) ∧
    ∃ (b : Bus) (l : Line), (b.get l).prev = .high ∧ (b.get l).cur = .hiZ :=
  ⟨⟨(Bus.all .hiZ).set .wait .low, .wait, rfl, rfl⟩, (Bus.all .high).set .wait .hiZ, .wait, rfl, rfl⟩
theorem witness_WordAccessorsReadWriteRelease : (∀ i, Line.m1 ≠ .a i) ∧ ∀ i, Line.m1 ≠ .d i := by
  constructor <;> intro i <;> exact nofun
theorem witness_ScheduleCountsFromTheCounter :
    (∃ c : Clock, 0 ≤ c.counter ∧ c.counter = 0) ∧ ∃ c : Clock, c.counter = -1 :=
  ⟨⟨⟨0, []⟩, by decide, rfl⟩, Clock.reset, rfl⟩
/-- At the first tick, and with an overdue event. -/
theorem witness_EventFromAnActionFiresLater :
    (∃ (n : Node) (e : Int) (delay : Nat), -1 ≤ n.clock.counter ∧ e ≤ n.clock.counter + 1 ∧
      n.clock.events = [⟨e, .external (.schedule delay (.setLine .int .low))⟩] ∧ delay = 0 ∧ n.clock.counter = -1) ∧
    ∃ (n : Node) (e : Int) (delay : Nat), -1 ≤ n.clock.counter ∧ e ≤ n.clock.counter + 1 ∧
      n.clock.events = [⟨e, .external (.schedule delay (.setLine .int .low))⟩] ∧ delay = 1 :=
  ⟨⟨{ State.reset.toNode with clock := ⟨-1, [⟨0, .external (.schedule 0 (.setLine .int .low))⟩]⟩ }, 0, 0, by decide,
      by decide, rfl, rfl, rfl⟩,
    { State.reset.toNode with clock := ⟨20, [⟨12, .external (.schedule 1 (.setLine .int .low))⟩]⟩ }, 12, 1, by decide,
      by decide, rfl, rfl⟩
theorem witness_CanonicalMemoriesAreExtensional :
    ∃ m m' : Memory, m ≠ [] ∧ Memory.wf m = true ∧ Memory.wf m' = true ∧ ∀ a, Memory.read m a = Memory.read m' a :=
  ⟨[(0, 0x01#8), (65535, 0x02#8)], [(0, 0x01#8), (65535, 0x02#8)], by decide, by decide, by decide, fun _ => rfl⟩
/-- A write at the top address; RFSH active with the memory driving and not driving. -/
theorem witness_MemoryTickKeepsToTheDataLines :
    (∀ i, Line.rfsh ≠ .d i) ∧
    (∃ (m : RefMem) (b : Bus), Memory.wf m.bytes = true ∧ m.selectedForWrite b = true ∧ b.addrRead = 0xFFFF#16) ∧
    ∀ driving : Bool, ∃ (m : RefMem) (b : Bus), b.active .rfsh = true ∧ m.driving = driving :=
  ⟨fun _ => nofun,
    ⟨memOf [], (((Bus.all .high).addrWrite 0xFFFF#16).set .mreq .low).set .wr .low, rfl, by decide +kernel,
      by decide +kernel⟩,
    fun driving => ⟨{ memOf [] with driving := driving }, (Bus.all .hiZ).set .rfsh .low, rfl, rfl⟩⟩
theorem witness_RegistrationSortsByType :
    ∃ ds more ds' : List Device, registerDevices ds more = .ok ds' ∧ more ≠ [] ∧
      (ds.map fun d => d.type.rank).Pairwise (· ≤ ·) ∧ (ds.map Device.name).Nodup :=
  ⟨referenceDevices, [⟨7, none, none, none, .external .vcu []⟩, ⟨0, none, none, none, .cpu⟩], _, rfl, by decide,
    by decide, by decide⟩
theorem witness_StopDrainsAndQuitIsTerminal :
    (∃ s : State, s.refused = none ∧ s.runState = .quit) ∧
    ∀ r ∈ [RunState.stop, .run], ∀ q ∈ [[], [Request.run, .reset], [.stop], [.quit, .run]],
      (∃ s : State, s.refused = none ∧ s.runState = r ∧ s.queue = q ∧ s.arrivals = []) ∧
      ∃ s : State, s.refused = none ∧ s.runState = r ∧ s.queue = [] ∧ s.arrivals = [q, [.stop]] :=
  ⟨⟨{ State.reset with runState := .quit }, rfl, rfl⟩, fun r _ q _ =>
    ⟨⟨{ State.reset with runState := r, queue := q }, rfl, rfl, rfl, rfl⟩,
      { State.reset with runState := r, arrivals := [q, [.stop]] }, rfl, rfl, rfl, rfl⟩⟩
theorem witness_RequestsAreDrainedInOrder :
    ∃ s t : State, s.queue = [.stop, .run] ∧ s.runState ≠ .quit ∧ boardStep exec0 s = .next t :=
  ⟨{ State.reset with queue := [.stop, .run] }, _, rfl, by decide, rfl⟩
theorem witness_ResetRequestResetsAndPullsReset :
    (∃ s : State, s.devices.any Device.isCpu = true ∧ 0 < s.params.resetHold) ∧
      ∃ s : State, s.params.resetHold = 0 :=
  ⟨⟨State.reset, rfl, by decide⟩, { State.reset with params := { Params.reference with resetHold := 0 } }, rfl⟩
theorem witness_NmiRequestPullsNmi : (∃ s : State, 0 < s.params.nmiHold) ∧ ∃ s : State, s.params.nmiHold = 0 :=
  ⟨⟨State.reset, by decide⟩, { State.reset with params := { Params.reference with nmiHold := 0 } }, rfl⟩
theorem witness_TimerReleasesAfterItsSteps : ∃ n j : Nat, 0 < n ∧ j < n ∧ n = 1 := ⟨1, 0, by decide, by decide, rfl⟩
/-- At the least hold value the rule allows, from a board in the middle of an M1. -/
theorem witness_ResetRequestLeavesTheResetValues :
    ∃ (s : State) (m : RefMem), s.refused = none ∧ s.queue = [] ∧ s.arrivals = [] ∧ s.timers = [] ∧
      s.devices.map (fun d => (d.kind, d.divider)) = [(.cpu, none), (.refMem m, none)] ∧ s.params.resetHold = 6 ∧
      s.cpu.step = .t4h2 :=
  ⟨boardInM1 (cpuAt 0x0100#16) (memOf [(0x0100#16, 0x76#8)]), _, rfl, rfl, rfl, rfl, rfl, rfl, rfl⟩

/-- A node with these lines Low. -/
def nodeWith (c : Cpu) (lines : List Line) : Node :=
  { State.reset.toNode with cpu := c, bus := lines.foldl (fun b l => b.set l .low) State.reset.bus }

theorem witness_ResetStepsWriteTheirGroups :
    ∀ k ≤ 6, ∃ n : Node, n.bus.active .reset = true ∧ n.cpu.resetStep = k :=
  fun k _ => ⟨nodeWith { cpuAt 0x0000#16 with resetStep := k } [.reset], rfl, rfl⟩
theorem witness_ResetPulseDoesTheStepsItReaches :
    ∃ n : Node, n.bus.active .reset = true ∧ n.cpu.resetStep = 0 ∧ n.cpu.sp = 0x8000#16 :=
  ⟨nodeWith { cpuAt 0x0007#16 with resetStep := 0, sp := 0x8000#16 } [.reset], rfl, rfl, rfl⟩
/-- None of the four requests is both present and eligible at the node's next CPU tick. -/
abbrev NoRequest (n : Node) : Prop :=
  let c := (n.cpu.sampleNmi n.bus).normalise
  n.bus.active .reset = false ∧ c.busGranted = false ∧ (n.bus.active .busrq = true → c.step ≠ .t1h1) ∧
    (c.nmiPending = true → c.atBoundary = false) ∧
    (n.bus.active .int = true → c.iff1 = true → c.atBoundary = false)

/-- RESET against every other request; BUSRQ against NMI and INT; NMI against INT; INT alone; the bus given away; and
requests that are not eligible: BUSRQ in mid-cycle, NMI and INT at T1_H1 of M2 and of the acknowledge cycle, INT masked. -/
theorem witness_OneRequestIsServicedByPriority :
    (∃ n : Node, n.bus.active .reset = true ∧ n.bus.active .busrq = true ∧ n.bus.active .nmi = true ∧
      n.bus.active .int = true ∧ (n.cpu.sampleNmi n.bus).normalise.iack = false ∧
      (n.cpu.sampleNmi n.bus).normalise.busGranted = false) ∧
    (∃ n : Node, n.bus.active .reset = false ∧ n.bus.active .busrq = true ∧
      (n.cpu.sampleNmi n.bus).normalise.busGranted = false ∧ (n.cpu.sampleNmi n.bus).normalise.step = .t1h1 ∧
      n.bus.active .nmi = true ∧ n.bus.active .int = true) ∧
    (∃ n : Node, n.bus.active .reset = false ∧ n.bus.active .busrq = false ∧
      (n.cpu.sampleNmi n.bus).normalise.busGranted = false ∧ (n.cpu.sampleNmi n.bus).normalise.nmiPending = true ∧
      (n.cpu.sampleNmi n.bus).normalise.atBoundary = true ∧ n.bus.active .int = true ∧ n.cpu.iff1 = true) ∧
    (∃ n : Node, n.bus.active .reset = false ∧ n.bus.active .busrq = false ∧
      (n.cpu.sampleNmi n.bus).normalise.busGranted = false ∧ (n.cpu.sampleNmi n.bus).normalise.nmiPending = false ∧
      n.bus.active .int = true ∧ (n.cpu.sampleNmi n.bus).normalise.iff1 = true ∧
      (n.cpu.sampleNmi n.bus).normalise.atBoundary = true) ∧
    (∃ n : Node, n.bus.active .reset = false ∧ (n.cpu.sampleNmi n.bus).normalise.busGranted = true ∧
      n.bus.active .nmi = true ∧ n.bus.active .int = true) ∧
    (∃ n : Node, NoRequest n ∧ (n.cpu.sampleNmi n.bus).normalise.step = .t2h1 ∧ n.bus.active .busrq = true) ∧
    (∃ n : Node, NoRequest n ∧ (n.cpu.sampleNmi n.bus).normalise.step = .t1h1 ∧ n.cpu.mc = .m2 ∧
      n.bus.active .nmi = true ∧ n.bus.active .int = true) ∧
    (∃ n : Node, NoRequest n ∧ (n.cpu.sampleNmi n.bus).normalise.step = .t1h1 ∧ n.cpu.iack = true ∧
      n.bus.active .nmi = true ∧ n.bus.active .int = true) ∧
    ∃ n : Node, NoRequest n ∧ (n.cpu.sampleNmi n.bus).normalise.atBoundary = true ∧ n.bus.active .int = true :=
  ⟨⟨nodeWith (cpuAt 0x0000#16) [.reset, .busrq, .nmi, .int], rfl, rfl, rfl, rfl, rfl, rfl⟩,
    ⟨nodeWith (cpuAt 0x0000#16) [.busrq, .nmi, .int], rfl, rfl, rfl, rfl, rfl, rfl⟩,
    ⟨nodeWith { cpuAt 0x0000#16 with iff1 := true } [.nmi, .int], rfl, rfl, rfl, rfl, rfl, rfl, rfl⟩,
    ⟨nodeWith { cpuAt 0x0000#16 with iff1 := true } [.int], rfl, rfl, rfl, rfl, rfl, rfl, rfl⟩,
    ⟨nodeWith { cpuAt 0x0000#16 with busGranted := true } [.nmi, .int], rfl, rfl, rfl, rfl⟩,
    ⟨nodeWith { cpuAt 0x0000#16 with step := .t2h1 } [.busrq], by decide +kernel, rfl, rfl⟩,
    ⟨nodeWith { cpuAt 0x0000#16 with iff1 := true, mc := .m2, step := .done, pipe := [.mr .pc .a []] } [.nmi, .int],
      by decide +kernel, rfl, rfl, rfl, rfl⟩,
    ⟨nodeWith { cpuAt 0x0000#16 with iff1 := true, iack := true } [.nmi, .int], by decide +kernel, rfl, rfl, rfl, rfl⟩,
    nodeWith (cpuAt 0x0000#16) [.int], by decide +kernel, rfl, rfl⟩
theorem witness_NmiIsLatchedOncePerChange :
    (∃ n : Node, n.bus.active .nmi = false ∧ n.cpu.nmiPending = false) ∧
    (∃ n : Node, n.bus.active .nmi = true ∧ n.cpu.nmiSampled = true ∧ n.cpu.nmiPending = false) ∧
    (∃ n : Node, n.bus.active .reset = false ∧ n.bus.active .nmi = true ∧ n.cpu.nmiSampled = false ∧
      n.cpu.normalise.atBoundary = false) ∧
    ∃ n : Node, n.bus.active .reset = false ∧ n.cpu.nmiPending = true ∧ n.cpu.normalise.atBoundary = false :=
  ⟨⟨nodeWith (cpuAt 0x0000#16) [], rfl, rfl⟩,
    ⟨nodeWith { cpuAt 0x0000#16 with nmiSampled := true } [.nmi], rfl, rfl, rfl⟩,
    ⟨nodeWith { cpuAt 0x0000#16 with step := .t2h2 } [.nmi], rfl, rfl, rfl, rfl⟩,
    nodeWith { cpuAt 0x0000#16 with step := .t2h2, nmiPending := true } [], rfl, rfl, rfl⟩
theorem witness_NmiEntrySavesPcAndGoesTo0066 :
    (∃ n : Node,
      let c : Cpu := { (n.cpu.sampleNmi n.bus).normalise with resetStep := 0 }
      n.bus.active .reset = false ∧ n.bus.active .busrq = false ∧ c.busGranted = false ∧ c.nmiPending = true ∧
        c.atBoundary = true ∧ c.halted = true) ∧
    ∃ s m c, Rested s m c ∧ c.nmiPending = true ∧ c.halted = true :=
  ⟨⟨nodeWith { cpuAt 0x0000#16 with halted := true } [.nmi], rfl, rfl, rfl, rfl, rfl, rfl⟩,
    board { cpuAt 0x0009#16 with halted := true, nmiPending := true } (memOf []), _, _,
    board_rested ⟨rfl, rfl, rfl, rfl, rfl⟩ rfl rfl, rfl, rfl⟩
theorem witness_IntEntry_tick :
    ∃ n : Node,
      let c : Cpu := { (n.cpu.sampleNmi n.bus).normalise with resetStep := 0 }
      n.bus.active .reset = false ∧ n.bus.active .busrq = false ∧ c.busGranted = false ∧ c.nmiPending = false ∧
        n.bus.active .int = true ∧ c.iff1 = true ∧ c.atBoundary = true :=
  ⟨nodeWith { cpuAt 0x0000#16 with iff1 := true } [.int], rfl, rfl, rfl, rfl, rfl, rfl, rfl⟩
theorem witness_IntEntryRunsTheAcknowledgeCycle :
    ∀ im : IntMode, ∃ s m c, Rested s m c ∧ c.nmiPending = false ∧ c.iff1 = true ∧
      s.clockTick.bus.active .int = true ∧ c.im = im := by
  intro im
  refine ⟨{ board { cpuAt 0x0004#16 with iff1 := true, im := im } (memOf []) with
      bus := State.reset.bus.set .int .low }, memOf [], { cpuAt 0x0004#16 with iff1 := true, im := im }, ?_, rfl, rfl,
    rfl, rfl⟩
  exact ⟨⟨rfl, rfl, rfl, rfl, rfl, rfl, rfl, (by decide : (-1 : Int) ≤ 5), rfl, rfl, rfl, rfl, rfl, rfl,
      (by decide +kernel : (State.reset.bus.set .int .low).dataRead = 0x00#8), rfl, rfl, rfl⟩,
    rfl, rfl, rfl, rfl⟩
theorem witness_AcknowledgeCompletesByMode :
    (∃ (n : Node) (i : Instr), n.cpu.pipe = [] ∧ n.cpu.im = .im0 ∧
      decodeInstr [n.cpu.ibyte, 0x00#8, 0x00#8] = some i ∧ i = .rstP 0x0038#16) ∧
    (∃ n : Node, n.cpu.pipe = [] ∧ n.cpu.im = .im0 ∧ rowOf n.cpu.ibyte = none) ∧
    (∃ n : Node, n.cpu.pipe = [] ∧ n.cpu.im = .im1) ∧ ∃ n : Node, n.cpu.pipe = [] ∧ n.cpu.im = .im2 :=
  ⟨⟨nodeWith { cpuAt 0x0004#16 with ibyte := 0xFF#8 } [], _, rfl, rfl, rfl, rfl⟩,
    ⟨nodeWith { cpuAt 0x0004#16 with ibyte := 0xED#8 } [], rfl, rfl, rfl⟩,
    ⟨nodeWith { cpuAt 0x0004#16 with im := .im1 } [], rfl, rfl⟩,
    nodeWith { cpuAt 0x0004#16 with im := .im2 } [], rfl, rfl⟩
theorem witness_BusIsGrantedHeldAndRegained :
    (∃ n : Node, n.bus.active .reset = false ∧ n.cpu.normalise.busGranted = false ∧ n.bus.active .busrq = true ∧
      n.cpu.normalise.step = .t1h1) ∧
    (∃ n : Node, n.bus.active .reset = false ∧ n.cpu.normalise.busGranted = true ∧ n.bus.active .busrq = true) ∧
    ∃ n : Node, n.bus.active .reset = false ∧ n.cpu.normalise.busGranted = true ∧ n.bus.active .busrq = false :=
  ⟨⟨nodeWith { cpuAt 0x0000#16 with mc := .m2, step := .done, pipe := [.mr .pc .a []] } [.busrq], rfl, rfl, rfl, rfl⟩,
    ⟨nodeWith { cpuAt 0x0000#16 with busGranted := true } [.busrq], rfl, rfl, rfl⟩,
    nodeWith { cpuAt 0x0000#16 with busGranted := true } [], rfl, rfl, rfl⟩
/-- Every phase of the acknowledge cycle, and the last. -/
theorem witness_Acknowledge_phases : ∀ st : HalfStep, ∃ n : Node,
    n.cpu.halted = false ∧ n.cpu.mc = .m1 ∧ n.cpu.iack = true ∧ n.cpu.step = st :=
  fun st => ⟨nodeWith { cpuAt 0x0004#16 with iack := true, step := st } [], rfl, rfl, rfl, rfl⟩
/-- Every phase of M1; at T4_H2 an unwired opcode and CALL, whose entry is the longest. -/
theorem witness_M1_phases :
    (∀ st : HalfStep, ∃ n : Node, n.cpu.halted = false ∧ n.cpu.mc = .m1 ∧ n.cpu.iack = false ∧ n.cpu.step = st) ∧
    (∃ n : Node, n.cpu.step = .t4h2 ∧ exec0 n.cpu.opcode = none) ∧
    ∃ (n : Node) (e : Entry), n.cpu.step = .t4h2 ∧ exec0 n.cpu.opcode = some e ∧ (e.imm n.cpu).pipe = [] ∧
      e.ops.length = 4 :=
  ⟨fun st => ⟨nodeWith { cpuAt 0x0004#16 with step := st } [], rfl, rfl, rfl, rfl⟩,
    ⟨nodeWith { cpuAt 0x0004#16 with step := .t4h2, opcode := 0xED#8 } [], rfl, rfl⟩,
    nodeWith { cpuAt 0x0004#16 with step := .t4h2, opcode := 0xCD#8 } [], _, rfl, rfl, rfl, rfl⟩
/-- Every phase of MR and of MW. -/
theorem witness_MrMw_phases : ∀ (st : HalfStep) (u : MicroOp), ∃ n : Node,
    n.cpu.halted = false ∧ n.cpu.mc ≠ .m1 ∧ n.cpu.pipe = u :: [] ∧ n.cpu.step = st :=
  fun st u => ⟨nodeWith { cpuAt 0x0004#16 with mc := .m2, step := st, pipe := [u] } [], rfl, nofun, rfl, rfl⟩
/-- In M1, in the acknowledge cycle and in a later cycle, with WAIT active. -/
theorem witness_WaitRepeatsItsPhase :
    (∃ n : Node, n.bus.active .reset = false ∧ n.cpu.busGranted = false ∧ n.cpu.halted = false ∧
      n.bus.active .wait = true ∧ n.cpu.mc = .m1 ∧ n.cpu.iack = false ∧ n.cpu.step = .t2h1) ∧
    (∃ n : Node, n.bus.active .reset = false ∧ n.cpu.busGranted = false ∧ n.cpu.halted = false ∧
      n.bus.active .wait = true ∧ n.cpu.mc = .m1 ∧ n.cpu.iack = true ∧ n.cpu.step = .t3h1) ∧
    ∃ n : Node, n.bus.active .reset = false ∧ n.cpu.busGranted = false ∧ n.cpu.halted = false ∧
      n.bus.active .wait = true ∧ n.cpu.mc ≠ .m1 ∧ n.cpu.pipe ≠ [] ∧ n.cpu.step = .t2h1 :=
  ⟨⟨nodeWith { cpuAt 0x0000#16 with step := .t2h1 } [.wait], rfl, rfl, rfl, rfl, rfl, rfl, rfl⟩,
    ⟨nodeWith { cpuAt 0x0000#16 with step := .t3h1, iack := true } [.wait], rfl, rfl, rfl, rfl, rfl, rfl, rfl⟩,
    nodeWith { cpuAt 0x0000#16 with mc := .m2, step := .t2h1, pipe := [.mr .pc .a []] } [.wait], rfl, rfl, rfl, rfl,
    by decide, by decide, rfl⟩

theorem witness_DecodeOfEncodeIsTheInstruction : ∃ i, WellFormed i = true ∧ i = .rstP 0x0038#16 := ⟨_, rfl, rfl⟩
theorem witness_EncodeOfDecodeIsTheBytes :
    ∃ bytes rest i, decode bytes = .ok (i, rest) ∧ rest ≠ [] := ⟨[0x21#8, 0x34#8, 0x12#8, 0x76#8], _, _, rfl, by decide⟩
theorem witness_UnwiredOpcodeRefusesTheRun : ∃ s m c, AtBoundary s m c ∧ rowOf (s.peek c.pc) = none :=
  ⟨_, _, _, topMem_boundary 0xCB#8 0x00#8 0x00#8, rfl⟩
theorem witness_StepRunsTheDecodedInstruction :
    (∃ s m c i, AtBoundary s m c ∧
      decodeInstr [s.peek c.pc, s.peek (c.pc + 1#16), s.peek (c.pc + 2#16)] = some i ∧ i = .jpNn 0x1234#16) ∧
    ∃ (s : State) (i : Instr), s.dispatching = true ∧ s.currentInstr = some i :=
  ⟨⟨_, _, _, _, topMem_boundary 0xC3#8 0x34#8 0x12#8, by decide +kernel, rfl⟩,
    boardInM1 { cpuAt 0x0100#16 with opcode := 0x76#8 } (memOf []), .halt, rfl, by decide +kernel⟩
theorem witness_StepRefinesTheNetEffect :
    ∃ s m c i, AtBoundary s m c ∧
      decodeInstr [s.peek c.pc, s.peek (c.pc + 1#16), s.peek (c.pc + 2#16)] = some i ∧ i = .callNn 0x1234#16 :=
  ⟨_, _, _, _, topMem_boundary 0xCD#8 0x34#8 0x12#8, by decide +kernel, rfl⟩

/-- A step of a small board answers. -/
theorem board_steps : ∃ t, step (board (cpuAt 0x0100#16) (memOf [])) = .next t :=
  (result_some (s := board (cpuAt 0x0100#16) (memOf [])) (f := fun _ => ()) (v := ()) (by decide +kernel)).imp fun _ h => h.1

theorem board_sound : BoardSound (board (cpuAt 0x0100#16) (memOf [])) :=
  ⟨by decide, by decide, by decide, by
    simp only [board, List.pairwise_cons, List.mem_singleton, forall_eq, List.not_mem_nil, false_imp_iff,
      implies_true, List.Pairwise.nil, and_true]
    intro m m' h
    cases h⟩
theorem cpuAt_sound (pc : Word) : CursorSound (cpuAt pc) :=
  ⟨fun _ => ⟨rfl, nofun⟩, fun h => absurd rfl h, fun h => absurd rfl h, nofun, nofun, Nat.le_refl 6⟩

theorem witness_StepIsARunOfBoardSteps : ∃ s t, BoardSound s ∧ step s = .next t :=
  board_steps.elim fun t h => ⟨_, t, board_sound, h⟩
theorem witness_RefusedMarkIsNeverCleared : ∃ (s : State) (r : Refusal), s.refused = some r :=
  ⟨{ State.reset with refused := some .foreignTask }, _, rfl⟩
theorem witness_StepKeepsMemoriesSound : ∃ s t, MemoriesSound s ∧ step s = .next t :=
  board_steps.elim fun t h => ⟨_, t, by
    intro d hd m hk
    simp only [board, List.mem_cons, List.not_mem_nil, or_false] at hd
    rcases hd with rfl | rfl
    · cases hk
    · cases hk; rfl, h⟩
theorem witness_StepKeepsTheCursorSound : ∃ s t, CursorSound s.cpu ∧ step s = .next t :=
  board_steps.elim fun t h => ⟨_, t, cpuAt_sound _, h⟩
theorem witness_PipelineNeverOverflows : ∃ s : State, CursorSound s.cpu ∧ s.refused = none :=
  ⟨board (cpuAt 0x0100#16) (memOf []), cpuAt_sound _, rfl⟩
theorem witness_StepKeepsTheBoardSound : ∃ s t, BoardSound s ∧ step s = .next t :=
  board_steps.elim fun t h => ⟨_, t, board_sound, h⟩
theorem witness_InterruptModeStaysZero : ∃ s t : State, s.cpu.im = .im0 ∧ step s = .next t :=
  board_steps.elim fun t h => ⟨_, t, rfl, h⟩
theorem board_noRebuild : NoRebuild (board (cpuAt 0x0100#16) (memOf [])) := by
  intro r hr
  cases hr
theorem witness_StepLeavesIxIyAndI : ∃ s t, NoRebuild s ∧ step s = .next t :=
  board_steps.elim fun t h => ⟨_, t, board_noRebuild, h⟩
theorem witness_QuiescentBoardStaysAsItIs :
    ∃ s : State, Quiescent s ∧ s.refused = none ∧ CursorSound s.cpu ∧ s.cpu.step ≠ .done ∧ s.cpu.nmiPending = false ∧
      s.cpu.nmiSampled = false ∧ s.cpu.busGranted = false ∧ s.cpu.resetStep = 0 ∧ s.bus.active .rd = false ∧
      s.bus.active .wr = false ∧ ∀ d ∈ s.devices, d.kind = .cpu ∨ ∃ m, d.kind = .refMem m ∧ m.driving = false := by
  refine ⟨board { cpuAt 0x0009#16 with halted := true, resetStep := 0 } (memOf []),
    ⟨rfl, rfl, rfl, rfl, rfl, rfl, rfl, rfl, rfl, rfl, rfl⟩, rfl,
    ⟨fun _ => ⟨rfl, nofun⟩, fun h => absurd rfl h, fun h => absurd rfl h, nofun, fun _ => rfl, by decide⟩, by decide,
    rfl, rfl, rfl, rfl, rfl, rfl, ?_⟩
  intro d hd
  simp only [board, List.mem_cons, List.not_mem_nil, or_false] at hd
  rcases hd with rfl | rfl
  · exact .inl rfl
  · exact .inr ⟨_, rfl, rfl⟩

end Sys2Proof.Tests
end

/-!
PROOF. A board that carries the refused mark has no next step (R34, R181).
-/
namespace Sys2Proof.Machine

section Refused
variable {s : State} {r : Refusal}

theorem boardStep_of_refused (X : ExecTable) (h : s.refused = some r) : boardStep X s = .refused r := by
  simp only [boardStep, h]

/-- A run that may take a board step asks for one, so it answers as that step does. -/
theorem advance_of_refused (X : ExecTable) (stop : State → Bool) (k : Nat) (h : s.refused = some r) :
    advance X stop (k + 1) s = .refused r := by
  simp only [advance, boardStep_of_refused X h]

theorem exec_of_refused (i : Instr) (h : s.refused = some r) : exec i s = .refused r :=
  (exec_eq_runEntry i s).trans (advance_of_refused _ _ 63 h)

/-- A step starts with the fetch, or at the phase that executes what was fetched; either way it takes a board step. -/
theorem step_of_refused (h : s.refused = some r) : step s = .refused r := by
  by_cases hd : s.dispatching = true
  · have hf : s.fetch = .next s := if_pos hd
    cases hi : s.currentInstr with
    | none => simp only [step, hf, hd, hi, if_true]; exact advance_of_refused _ _ 63 h
    | some i => simp only [step, hf, hd, hi, if_true]; exact exec_of_refused i h
  · have hf : s.fetch = .refused r := (if_neg hd).trans (advance_of_refused _ _ 63 h)
    simp only [step, hf]

end Refused

/-- Settles O52: a board step looks at the mark first, and a step takes a board step before anything else. -/
theorem refusedMarkIsNeverCleared : Obligations.RefusedMarkIsNeverCleared :=
  fun X _ _ h => ⟨boardStep_of_refused X h, step_of_refused h⟩

end Sys2Proof.Machine

/-!
PROOF. The invariants hold of State.reset.
-/
namespace Sys2Proof.Machine

/-- The one memory of the reference board holds nothing and spans the 64 KiB (R75). -/
theorem memoriesSound_reset : MemoriesSound State.reset := by
  intro d hd m hm
  obtain rfl | rfl : d = _ ∨ d = _ := by simpa [State.reset, referenceDevices] using hd
  · cases hm
  · cases hm; decide

/-- The cursor is at T1_H1 of an M1 and nothing is pushed (R46). -/
theorem cursorSound_reset : CursorSound State.reset.cpu where
  fetch _ := ⟨rfl, nofun⟩
  later h := absurd rfl h
  depth h := absurd rfl h
  granted := nofun
  halted := nofun
  reset := Nat.le_refl 6

/-- The CPU comes before the memory, and there is one of each (R152). -/
theorem boardSound_reset : BoardSound State.reset where
  sorted := by decide
  names := by decide
  oneCpu := by decide
  apart := by
    refine List.pairwise_pair.mpr fun m m' h => ?_
    cases h

/-- Settles O57, one invariant at a time. -/
theorem resetMeetsTheInvariants : Obligations.ResetMeetsTheInvariants :=
  ⟨memoriesSound_reset, cursorSound_reset, boardSound_reset⟩

end Sys2Proof.Machine

/-!
PROOF. What each step of the RESET sequence writes, one equation per case of reset_step (R303 to R306).
-/
namespace Sys2Proof.Machine

section ResetStep
variable {n : Node}

/-- A tick that sees RESET active does nothing but sample NMI, normalise and take one RESET step (R181, R302). -/
theorem cpuTick_of_reset (X : ExecTable) (mask : Byte) (h : n.bus.active .reset = true) :
    cpuTick X mask n = resetStep { n with cpu := (n.cpu.sampleNmi n.bus).normalise } :=
  if_pos h

theorem resetStep_of_zero (h : n.cpu.resetStep = 0) :
    resetStep n =
      { n with
        cpu := { n.cpu.resetFirst with resetStep := 1, nmiPending := false }
        bus := n.bus.resetOutputs } := by
  simp [resetStep, h, Config.resetSteps]

theorem resetStep_of_two (h : n.cpu.resetStep = 2) :
    resetStep n =
      { n with cpu := { n.cpu with pc := 0x0000#16, far := 0x0000#16, resetStep := 3, nmiPending := false } } := by
  simp [resetStep, h, Config.resetSteps]

theorem resetStep_of_four (h : n.cpu.resetStep = 4) :
    resetStep n =
      { n with cpu := { n.cpu with sp := 0xFFFF#16, af := 0xFFFF#16, resetStep := 5, nmiPending := false } } := by
  simp [resetStep, h, Config.resetSteps]

/-- The other steps only count, up to 6, and clear the NMI latch (R306). -/
theorem resetStep_of_other (h0 : n.cpu.resetStep ≠ 0) (h2 : n.cpu.resetStep ≠ 2) (h4 : n.cpu.resetStep ≠ 4) :
    resetStep n =
      { n with
        cpu :=
          { n.cpu with
            resetStep := if n.cpu.resetStep < 6 then n.cpu.resetStep + 1 else n.cpu.resetStep
            nmiPending := false } } := by
  simp only [resetStep, h0, h2, h4, if_false]
  rfl

end ResetStep

end Sys2Proof.Machine

/-!
PROOF. The registers that EXEC0 has no use for: IX, IY, I, FAR and IM (R22, R26, R30, R98). Phases, clock events and
entries keep all five; the RESET sequence zeroes FAR and IM; only a Reset request and a new CPU write the others.
-/
namespace Sys2Proof.Machine

/-- The registers that no phase and no entry of EXEC0 writes. -/
def Cpu.unused (c : Cpu) : Word × Word × Byte × Word × IntMode := (c.ix, c.iy, c.i, c.far, c.im)

/-- No entry of the table writes them (R98). -/
def ExecTable.KeepsUnused (X : ExecTable) : Prop := ∀ op e, X op = some e → ∀ c, (e.imm c).unused = c.unused

theorem keepsUnused_entryOf (i : Instr) : ExecTable.KeepsUnused (fun _ => some (entryOf i)) := by
  intro op e he c
  obtain rfl : entryOf i = e := by simpa using he
  simp only [Cpu.unused, entryOf_imm_ix, entryOf_imm_iy, entryOf_imm_i, entryOf_imm_far, entryOf_imm_im]

/-- EXEC0 is made of the entries of the instructions. -/
theorem keepsUnused_exec0 : ExecTable.KeepsUnused exec0 := by
  intro op e he
  obtain ⟨i, rfl⟩ := exec0_entry he
  exact keepsUnused_entryOf i op _ rfl

/-! ## The phases -/

section Phases
variable {X : ExecTable} (hX : X.KeepsUnused) (mask : Byte) (n : Node)

@[simp] theorem Cpu.unused_micro (c : Cpu) (r : Reg8) (v : Byte) (ps : List PostAction) :
    ((c.set8 r v).applyPost ps).unused = c.unused := by simp [Cpu.unused]
@[simp] theorem Cpu.unused_applyPost (c : Cpu) (ps : List PostAction) : (c.applyPost ps).unused = c.unused := by
  simp [Cpu.unused]
@[simp] theorem Cpu.unused_normalise (c : Cpu) : c.normalise.unused = c.unused := by simp [Cpu.unused]
@[simp] theorem Cpu.unused_sampleNmi (c : Cpu) (b : Bus) : (c.sampleNmi b).unused = c.unused := rfl
@[simp] theorem Node.unused_clockTick : n.clockTick.cpu.unused = n.cpu.unused := by
  rw [Node.clockTick_cpu]; rfl

/-- Moving the cursor writes none of them. -/
@[simp] theorem Cpu.unused_goto (c : Cpu) (k : MCycle) (st : HalfStep) :
    ({ c with mc := k, step := st } : Cpu).unused = c.unused := rfl
@[simp] theorem Node.unused_toM2 : n.toM2.cpu.unused = n.cpu.unused := rfl

@[simp] theorem Node.unused_push (u : MicroOp) : (n.push u).cpu.unused = n.cpu.unused := by
  unfold Node.push; split <;> rfl

@[simp] theorem Node.unused_pushAll (us : List MicroOp) : (n.pushAll us).cpu.unused = n.cpu.unused := by
  induction us generalizing n with
  | nil => rfl
  | cons u us ih => exact (ih (n.push u)).trans (Node.unused_push n u)

@[simp] theorem Node.unused_waitPhase : n.waitPhase.cpu.unused = n.cpu.unused := by
  unfold Node.waitPhase; split <;> rfl

@[simp] theorem Node.unused_leaveHalt : n.leaveHalt.cpu.unused = n.cpu.unused := by
  unfold Node.leaveHalt; split <;> rfl

@[simp] theorem Node.unused_takeException (w : Word) : (n.takeException w).cpu.unused = n.cpu.unused :=
  Node.unused_pushAll _ _

theorem unused_mrPhase (a : AddrSel) (r : Reg8) (ps : List PostAction) :
    (mrPhase a r ps n).cpu.unused = n.cpu.unused := by
  cases h : n.cpu.step <;> simp only [mrPhase, h]
  case t2h1 => exact Node.unused_waitPhase n
  case t3h2 => exact Cpu.unused_micro ..
  all_goals rfl

theorem unused_mwPhase (a : AddrSel) (r : Reg8) (ps : List PostAction) :
    (mwPhase a r ps n).cpu.unused = n.cpu.unused := by
  cases h : n.cpu.step <;> simp only [mwPhase, h]
  case t2h1 => exact Node.unused_waitPhase n
  case t3h2 => exact Cpu.unused_applyPost ..
  all_goals rfl

theorem unused_microPhase : (microPhase n).cpu.unused = n.cpu.unused := by
  unfold microPhase
  split
  · rfl
  · exact unused_mrPhase ..
  · exact unused_mwPhase ..

theorem unused_nmiEntry : (nmiEntry n).cpu.unused = n.cpu.unused := by
  simp only [nmiEntry, Cpu.unused_goto, Node.unused_takeException]
  exact Node.unused_leaveHalt _

theorem unused_intEntry : (intEntry n).cpu.unused = n.cpu.unused := Node.unused_leaveHalt n

theorem unused_busRequestStep : (busRequestStep n).cpu.unused = n.cpu.unused := by
  unfold busRequestStep; split_ifs <;> rfl

include hX

theorem Node.unused_execute : (n.execute X).cpu.unused = n.cpu.unused := by
  unfold Node.execute
  cases he : X n.cpu.opcode with
  | none => rfl
  | some e =>
    have hp : (Node.pushAll { n with cpu := e.imm n.cpu } e.ops).cpu.unused = n.cpu.unused :=
      (Node.unused_pushAll _ _).trans (hX _ _ he _)
    have ha : (n.applyEntry e).cpu.unused = n.cpu.unused := by
      unfold Node.applyEntry; dsimp only; split <;> exact hp
    exact ha

theorem unused_m1Phase : (m1Phase X mask n).cpu.unused = n.cpu.unused := by
  cases h : n.cpu.step <;> simp only [m1Phase, h]
  case t2h1 => exact Node.unused_waitPhase n
  case t4h2 => exact Node.unused_execute hX _
  all_goals rfl

/-- The acknowledge cycle ends by IM: a supplied opcode, the mode-1 address or the vector (R318). -/
theorem unused_iackT4H2 : (iackT4H2 X n).cpu.unused = n.cpu.unused := by
  unfold iackT4H2
  dsimp only
  split
  · exact Node.unused_execute hX _
  · exact (Node.unused_toM2 _).trans (Node.unused_takeException _ _)
  · exact (Node.unused_toM2 _).trans (Node.unused_pushAll _ _)

theorem unused_iackPhase : (iackPhase X n).cpu.unused = n.cpu.unused := by
  cases h : n.cpu.step <;> simp only [iackPhase, h]
  case t3h1 => exact Node.unused_waitPhase n
  case t4h2 => exact unused_iackT4H2 hX n
  all_goals rfl

theorem unused_normalDecode : (normalDecode X mask n).cpu.unused = n.cpu.unused := by
  unfold normalDecode
  split_ifs
  · rfl
  · exact unused_iackPhase hX n
  · exact unused_m1Phase hX mask n
  · exact unused_microPhase n

end Phases

/-! ## Ticks -/

/-- IX, IY and I are as they were; FAR and IM too, unless the RESET sequence zeroed them (R303, R304). -/
structure Cpu.Spares (c c' : Cpu) : Prop where
  ix : c'.ix = c.ix
  iy : c'.iy = c.iy
  i : c'.i = c.i
  far : c'.far = c.far ∨ c'.far = 0x0000#16
  im : c'.im = c.im ∨ c'.im = .im0

section Spares
variable {c c' c'' : Cpu}

theorem Cpu.Spares.of_unused (h : c'.unused = c.unused) : c.Spares c' := by
  simp only [Cpu.unused, Prod.mk.injEq] at h
  obtain ⟨hix, hiy, hi, hfar, him⟩ := h
  exact ⟨hix, hiy, hi, .inl hfar, .inl him⟩

theorem Cpu.Spares.refl (c : Cpu) : c.Spares c := .of_unused rfl

theorem Cpu.Spares.trans (h : c.Spares c') (h' : c'.Spares c'') : c.Spares c'' where
  ix := h'.ix.trans h.ix
  iy := h'.iy.trans h.iy
  i := h'.i.trans h.i
  far := h'.far.elim (fun e => e ▸ h.far) .inr
  im := h'.im.elim (fun e => e ▸ h.im) .inr

end Spares

/-- Step 0 of the RESET sequence zeroes IM, step 2 zeroes FAR (R303, R304). -/
theorem resetStep_spares (n : Node) : n.cpu.Spares (resetStep n).cpu := by
  by_cases h0 : n.cpu.resetStep = 0
  · rw [resetStep_of_zero h0]; exact ⟨rfl, rfl, rfl, .inl rfl, .inr rfl⟩
  by_cases h2 : n.cpu.resetStep = 2
  · rw [resetStep_of_two h2]; exact ⟨rfl, rfl, rfl, .inr rfl, .inl rfl⟩
  by_cases h4 : n.cpu.resetStep = 4
  · rw [resetStep_of_four h4]; exact .of_unused rfl
  · rw [resetStep_of_other h0 h2 h4]; exact .of_unused rfl

section Tick
variable {X : ExecTable} (hX : X.KeepsUnused) (mask : Byte)
include hX

theorem prioritise_spares (n : Node) : n.cpu.Spares (prioritise X mask n).cpu := by
  unfold prioritise
  dsimp only
  split_ifs
  · exact resetStep_spares n
  · exact .of_unused (unused_busRequestStep _)
  · exact .of_unused (unused_nmiEntry _)
  · exact .of_unused (unused_intEntry _)
  · exact .of_unused (unused_normalDecode hX mask _)

theorem cpuTick_spares (n : Node) : n.cpu.Spares (cpuTick X mask n).cpu :=
  (Cpu.Spares.of_unused (by simp)).trans (prioritise_spares hX mask _)

end Tick

/-- An external device reaches the lines, the clock and the mark (R47, R150). -/
@[simp] theorem LineOp.apply_cpu (o : LineOp) (n : Node) : (o.apply n).cpu = n.cpu := by
  cases o with
  | setId id v => simp only [LineOp.apply]; split <;> rfl
  | addrWrite v => rfl
  | addrRelease => rfl
  | dataWrite v => rfl
  | dataRelease => rfl
  | schedule delay a => rfl

theorem foldl_apply_cpu (os : List LineOp) (n : Node) : (os.foldl (fun n o => o.apply n) n).cpu = n.cpu := by
  induction os generalizing n with
  | nil => rfl
  | cons o os ih => exact (ih (o.apply n)).trans (o.apply_cpu n)

section Dispatch
variable {X : ExecTable} (hX : X.KeepsUnused) (mask : Byte)
include hX

theorem Device.tick_spares (d : Device) (n : Node) : n.cpu.Spares (d.tick X mask n).2.cpu := by
  unfold Device.tick
  split
  · exact cpuTick_spares hX mask n
  · exact .refl _
  · exact .refl _
  · rw [foldl_apply_cpu]; exact .refl _

theorem Device.dispatch_spares (d : Device) (n : Node) : n.cpu.Spares (d.dispatch X mask n).2.cpu := by
  unfold Device.dispatch
  split
  · exact Device.tick_spares hX mask d n
  · split_ifs
    · exact .refl _
    · exact Device.tick_spares hX mask _ n

theorem dispatchAll_spares (ds : List Device) (n : Node) : n.cpu.Spares (dispatchAll X mask ds n).2.cpu := by
  induction ds generalizing n with
  | nil => exact .refl _
  | cons d ds ih => exact (Device.dispatch_spares hX mask d n).trans (ih _)

theorem State.dispatchDevices_spares (s : State) : s.cpu.Spares (s.dispatchDevices X).cpu :=
  dispatchAll_spares hX _ _ _

end Dispatch

theorem State.clockTick_spares (s : State) : s.cpu.Spares s.clockTick.cpu :=
  .of_unused (Node.unused_clockTick s.toNode)

/-! ## Requests -/

/-- The requests that may put the CPU's construction values in place (R44, R152). -/
def Request.Rebuilds (r : Request) : Prop := r = .reset ∨ ∃ ds, r = .executeTask (.addDevices ds)

/-- Handling a request leaves the CPU alone, or rebuilds it (R165 to R168). -/
theorem Request.handle_cpu (r : Request) (s : State) :
    (r.handle s).cpu = s.cpu ∨ r.Rebuilds ∧ (r.handle s).cpu = Cpu.zero := by
  cases r with
  | run => exact .inl rfl
  | stop => exact .inl rfl
  | quit => exact .inl rfl
  | nonMaskableInterrupt => exact .inl (State.pulse_cpu s .nmi _)
  | reset =>
    simp only [Request.handle, State.pulse_cpu, State.resetDevices]
    split_ifs
    · exact .inr ⟨.inl rfl, rfl⟩
    · exact .inl rfl
  | executeTask t =>
    cases t with
    | setFrequency hz => exact .inl rfl
    | copyState device => exact .inl rfl
    | foreign => exact .inl rfl
    | addDevices ds =>
      simp only [Request.handle, Task.perform]
      split
      · dsimp only
        split_ifs
        · exact .inr ⟨.inr ⟨ds, rfl⟩, rfl⟩
        · exact .inl rfl
      · exact .inl rfl

/-- A task leaves the requests as they are. -/
theorem Task.perform_requests (t : Task) (s : State) :
    (t.perform s).queue = s.queue ∧ (t.perform s).arrivals = s.arrivals := by
  cases t with
  | addDevices ds => simp only [Task.perform]; split <;> exact ⟨rfl, rfl⟩
  | setFrequency hz => exact ⟨rfl, rfl⟩
  | copyState device => exact ⟨rfl, rfl⟩
  | foreign => exact ⟨rfl, rfl⟩

/-- Handling a request leaves the others as they are. -/
theorem Request.handle_requests (r : Request) (s : State) :
    (r.handle s).queue = s.queue ∧ (r.handle s).arrivals = s.arrivals := by
  cases r with
  | executeTask t => exact t.perform_requests s
  | _ => simp [Request.handle]

/-- The requests that wait and those that arrive later, in the order in which they are handled. -/
def State.waiting (s : State) : List Request := s.queue ++ s.arrivals.flatten

@[simp] theorem State.waiting_takeArrivals (s : State) : s.takeArrivals.waiting = s.waiting := by
  unfold State.takeArrivals State.waiting
  split
  · rfl
  · next h => simp [h]

/-- Draining handles the request at the front, or there is none (R160, R164). -/
theorem State.drainRequest_cases (s : State) :
    s.drainRequest = s ∨ ∃ r ∈ s.waiting, ∃ s', s.drainRequest = r.handle s' ∧ s'.cpu = s.cpu ∧
      s'.waiting ⊆ s.waiting := by
  cases hq : s.queue with
  | nil => exact .inl (by simp only [State.drainRequest, hq])
  | cons r rest =>
    refine .inr ⟨r, by simp [State.waiting, hq], { s with queue := rest }, ?_, rfl, ?_⟩
    · simp only [State.drainRequest, hq]
    · simp only [State.waiting, hq]
      exact List.subset_cons_self r _

@[simp] theorem Request.waiting_handle (r : Request) (s : State) : (r.handle s).waiting = s.waiting := by
  obtain ⟨hq, ha⟩ := r.handle_requests s
  simp only [State.waiting, hq, ha]

theorem noRebuild_iff {s : State} : NoRebuild s ↔ ∀ r ∈ s.waiting, ¬ r.Rebuilds := by
  simp only [NoRebuild, State.waiting, Request.Rebuilds, not_or, not_exists, ne_eq]

/-! ## The interrupt mode -/

/-- Draining a request keeps IM 0: a rebuilt CPU has it (R44). -/
theorem State.im_drainRequest {s : State} (h : s.cpu.im = .im0) : s.drainRequest.cpu.im = .im0 := by
  obtain e | ⟨r, -, s', e, hc, -⟩ := s.drainRequest_cases
  · rwa [e]
  · rw [e]
    obtain hk | ⟨-, hz⟩ := r.handle_cpu s'
    · rwa [hk, hc]
    · rw [hz]; rfl

theorem Cpu.Spares.im_zero {c c' : Cpu} (h : c.Spares c') (hc : c.im = .im0) : c'.im = .im0 :=
  h.im.elim (fun e => e.trans hc) id

theorem boardStep_keeps_im {X : ExecTable} (hX : X.KeepsUnused) (s t : State) (h : boardStep X s = .next t) :
    s.cpu.im = .im0 → t.cpu.im = .im0 :=
  boardStep_keeps (P := fun s => s.cpu.im = .im0) (fun _ hs => by rwa [State.takeArrivals_cpu])
    (fun s => s.clockTick_spares.im_zero) (fun s => (s.dispatchDevices_spares hX).im_zero) (fun _ => id)
    (fun _ => State.im_drainRequest) h

/-- Settles O58: no entry of EXEC0 writes IM, and the RESET sequence and a rebuilt CPU have it 0. -/
theorem interruptModeStaysZero : Obligations.InterruptModeStaysZero :=
  fun _ _ hs h => step_keeps (boardStep_keeps_im keepsUnused_exec0)
    (fun i => boardStep_keeps_im (keepsUnused_entryOf i)) h hs

/-! ## IX, IY, I and FAR -/

/-- The invariant: nothing waits that rebuilds the CPU, and c's unused registers are spared. -/
structure SparedBoard (c : Cpu) (s : State) : Prop where
  calm : NoRebuild s
  cpu : c.Spares s.cpu

theorem SparedBoard.of_spares {c : Cpu} {s t : State} (h : SparedBoard c s) (hw : t.waiting = s.waiting)
    (hc : s.cpu.Spares t.cpu) : SparedBoard c t :=
  ⟨noRebuild_iff.mpr (hw ▸ noRebuild_iff.mp h.calm), h.cpu.trans hc⟩

theorem SparedBoard.drainRequest {c : Cpu} {s : State} (h : SparedBoard c s) : SparedBoard c s.drainRequest := by
  obtain e | ⟨r, hr, s', e, hc, hw⟩ := s.drainRequest_cases
  · rwa [e]
  · have hn := noRebuild_iff.mp h.calm
    have hk : (r.handle s').cpu = s.cpu := ((r.handle_cpu s').resolve_right fun h' => hn r hr h'.1).trans hc
    rw [e]
    refine ⟨noRebuild_iff.mpr fun q hq => hn q (hw ?_), hk ▸ h.cpu⟩
    rwa [Request.waiting_handle] at hq

theorem boardStep_keeps_spared {X : ExecTable} (hX : X.KeepsUnused) (c : Cpu) (s t : State)
    (h : boardStep X s = .next t) : SparedBoard c s → SparedBoard c t :=
  boardStep_keeps (P := SparedBoard c) (fun s hs => hs.of_spares s.waiting_takeArrivals (by simpa using .refl _))
    (fun s hs => hs.of_spares rfl s.clockTick_spares) (fun s hs => hs.of_spares rfl (s.dispatchDevices_spares hX))
    (fun _ hs => hs.of_spares rfl (.refl _)) (fun _ hs => hs.drainRequest) h

/-- Settles O59: with nothing waiting that rebuilds the CPU, only the RESET sequence writes one of the four, FAR. -/
theorem stepLeavesIxIyAndI : Obligations.StepLeavesIxIyAndI := by
  intro s t hs h
  obtain ⟨-, hc⟩ := step_keeps (boardStep_keeps_spared keepsUnused_exec0 s.cpu)
    (fun i => boardStep_keeps_spared (keepsUnused_entryOf i) s.cpu) h ⟨hs, .refl _⟩
  exact ⟨hc.ix, hc.iy, hc.i, hc.far⟩

end Sys2Proof.Machine

/-!
PROOF. A Reset request on a board of one CPU and one reference memory, whatever its registers, lines and clock were: the
state the request leaves, the state after each board step of the pulse, and the state after the step that releases RESET
(R44 to R46, R165, R169, R303 to R307).
-/
namespace Sys2Proof.Machine

/-! ## A board step with timers running -/

/-- A board step of a running board of a CPU and a reference memory with no request: clock.tick(), the CPU's tick, the
memory's tick, and the Timer Manager's service (R160). -/
theorem boardStep_withBoard_timers {X : ExecTable} {s : State} {c d : Device} {p : Node × RefMem} (hp : Pair c d)
    (hrun : s.runState = .run) (hq : s.queue = []) (ha : s.arrivals = []) (hr : p.1.refused = none) :
    boardStep X (s.withBoard c d p) =
      .next (s.withBoard c d (cpuThenMemory X s.params.rIncMask (p.1.clockTick, p.2))).serviceTimers := by
  obtain ⟨k1, k2, k3⟩ := hp
  simp [boardStep, State.withBoard, hr, hrun, hq, ha, State.takeArrivals, State.runStep, State.clockTick,
    State.dispatchDevices, dispatchAll, Device.dispatch, Device.tick, k1, k2, k3, State.serviceTimers,
    State.drainRequest, cpuThenMemory]

/-! ## The CPU and the lines under RESET -/

/-- The CPU after a Reset request and k ticks under RESET; `nmi` is what the last of them sampled (R44, R45, R310). -/
def Cpu.underReset (nmi : Bool) (k : Nat) : Cpu :=
  { Cpu.zero with
    sp := if 5 ≤ k then 0xFFFF#16 else 0x0000#16
    af := if 5 ≤ k then 0xFFFF#16 else 0x0000#16
    nmiSampled := nmi
    resetStep := min k 6 }

/-- Sampling NMI and normalising: the cursor is at T1_H1, so only the NMI latches change. -/
theorem Cpu.sampled_underReset (nmi : Bool) (k : Nat) (b : Bus) :
    ((Cpu.underReset nmi k).sampleNmi b).normalise =
      { Cpu.underReset (b.active .nmi) k with nmiPending := b.active .nmi && !nmi } := by
  rw [Cpu.normalise_of_ne_done _ (by rw [Cpu.sampleNmi_step]; nofun)]
  simp [Cpu.sampleNmi, Cpu.underReset, Cpu.zero]

/-- A tick under RESET is one step further; the first one also drives the outputs (R303 to R306). -/
theorem cpuTick_underReset {X : ExecTable} {mask : Byte} {nmi : Bool} {k : Nat} {b : Bus} {q : Clock}
    {r : Option Refusal} (hb : b.active .reset = true) :
    cpuTick X mask ⟨Cpu.underReset nmi k, b, q, r⟩ =
      ⟨Cpu.underReset (b.active .nmi) (k + 1), if k = 0 then b.resetOutputs else b, q, r⟩ := by
  rw [cpuTick_of_reset X mask hb, Cpu.sampled_underReset]
  obtain rfl | rfl | rfl | ⟨h0, h2, h4⟩ : k = 0 ∨ k = 2 ∨ k = 4 ∨ k ≠ 0 ∧ k ≠ 2 ∧ k ≠ 4 := by omega
  · exact resetStep_of_zero rfl
  · exact resetStep_of_two rfl
  · exact resetStep_of_four rfl
  · have e : (Cpu.underReset (b.active .nmi) k).resetStep = min k 6 := rfl
    rw [resetStep_of_other (by rw [e]; omega) (by rw [e]; omega) (by rw [e]; omega)]
    have h5 : 5 ≤ k + 1 ↔ 5 ≤ k := by omega
    have h6 : (if min k 6 < 6 then min k 6 + 1 else min k 6) = min (k + 1) 6 := by split <;> omega
    simp only [Cpu.underReset, h0, h5, if_false]
    -- only reset_step differs, by h6
    congr 2

/-- RESET pulled Low, and the outputs of the first RESET step (R165, R303). -/
def Bus.underReset (b : Bus) : Bus := (b.set .reset .low).resetOutputs

/-- The control lines the CPU drives (R303). -/
abbrev cpuOutputs : List Line := [.m1, .mreq, .iorq, .rd, .wr, .rfsh, .halt, .busack]

/-- RESET step 0 drives the CPU's outputs High and leaves the other control lines alone (R303). -/
theorem Bus.get_resetOutputs (b : Bus) {l : Line} (h : l.control = true) :
    b.resetOutputs.get l = if l ∈ cpuOutputs then ⟨(b.get l).cur, .high⟩ else b.get l := by
  rw [Bus.resetOutputs, Bus.get_dataRelease _ _ h, Bus.get_addrRelease _ _ h]
  cases l <;> simp [Bus.get_set]

@[simp] theorem Bus.active_resetOutputs_reset (b : Bus) : b.resetOutputs.active .reset = b.active .reset := by
  simp [Bus.resetOutputs]
@[simp] theorem Bus.active_resetOutputs_nmi (b : Bus) : b.resetOutputs.active .nmi = b.active .nmi := by
  simp [Bus.resetOutputs]
@[simp] theorem Bus.active_resetOutputs_rd (b : Bus) : b.resetOutputs.active .rd = false := by
  simp [Bus.resetOutputs]
@[simp] theorem Bus.active_resetOutputs_wr (b : Bus) : b.resetOutputs.active .wr = false := by
  simp [Bus.resetOutputs]

/-- RESET is Low and NMI as it was. -/
@[simp] theorem Bus.active_underReset_reset (b : Bus) : b.underReset.active .reset = true := by
  simp [Bus.underReset]
@[simp] theorem Bus.active_underReset_nmi (b : Bus) : b.underReset.active .nmi = b.active .nmi := by
  simp [Bus.underReset]

/-- The node when a Reset request has been handled (R165). -/
def Node.afterResetRequest (b : Bus) : Node := ⟨Cpu.zero, b.set .reset .low, ⟨-1, []⟩, none⟩

/-- The node k + 1 board steps later, while RESET stays Low; b are the lines before the request. -/
def Node.underReset (b : Bus) (k : Nat) : Node := ⟨Cpu.underReset (b.active .nmi) (k + 1), b.underReset, ⟨k, []⟩, none⟩

@[simp] theorem Node.clockTick_afterResetRequest (b : Bus) :
    (Node.afterResetRequest b).clockTick = ⟨Cpu.underReset false 0, b.set .reset .low, ⟨0, []⟩, none⟩ := rfl
@[simp] theorem Node.clockTick_underReset (b : Bus) (k : Nat) :
    (Node.underReset b k).clockTick =
      ⟨Cpu.underReset (b.active .nmi) (k + 1), b.underReset, ⟨(k + 1 : Nat), []⟩, none⟩ := rfl

/-- A board step in which the memory does nothing is the CPU's tick. -/
theorem cpuThenMemory_of_tick {X : ExecTable} {mask : Byte} {n n' : Node} {m : RefMem} (hc : cpuTick X mask n = n')
    (hm : m.tick n'.bus = (m, n'.bus)) : cpuThenMemory X mask (n, m) = (n', m) := by
  simp only [cpuThenMemory, hc, hm]

section Ticks
variable (X : ExecTable) (mask : Byte) (b : Bus) (k : Nat) {m : RefMem}

/-- The outputs are High, so a memory that drives nothing does nothing (R76, R77). -/
theorem RefMem.tick_underReset (hd : m.driving = false) : m.tick b.underReset = (m, b.underReset) :=
  RefMem.tick_idle (by simp [Bus.underReset]) (by simp [Bus.underReset]) hd

theorem cpuThenMemory_afterResetRequest (hd : m.driving = false) :
    cpuThenMemory X mask ((Node.afterResetRequest b).clockTick, m) = (Node.underReset b 0, m) := by
  have hc : cpuTick X mask (Node.afterResetRequest b).clockTick = Node.underReset b 0 := by
    rw [Node.clockTick_afterResetRequest, cpuTick_underReset (by simp)]
    simp [Node.underReset, Bus.underReset]
  exact cpuThenMemory_of_tick hc (RefMem.tick_underReset b hd)

theorem cpuThenMemory_underReset (hd : m.driving = false) :
    cpuThenMemory X mask ((Node.underReset b k).clockTick, m) = (Node.underReset b (k + 1), m) := by
  have hc : cpuTick X mask (Node.underReset b k).clockTick = Node.underReset b (k + 1) := by
    rw [Node.clockTick_underReset, cpuTick_underReset (by simp)]
    simp [Node.underReset]
  exact cpuThenMemory_of_tick hc (RefMem.tick_underReset b hd)

end Ticks

/-! ## The board steps of the pulse -/

/-- A running board of the records c and d with memory m and node n, and j board steps to go until RESET is released. -/
def State.inPulse (s : State) (c d : Device) (m : RefMem) (n : Node) (j : Nat) : State :=
  { s.withBoard c d (n, m) with runState := .run, timers := [(.reset, j)] }

/-- The same board after the step that releases RESET (R169). -/
def State.released (s : State) (c d : Device) (m : RefMem) (n : Node) : State :=
  { s.withBoard c d (n.setLine .reset .high, m) with runState := .run, timers := [] }

/-- What a Reset request leaves of a board with no timer running (R44, R165). -/
theorem handle_reset {s : State} {c d : Device} {m : RefMem} (hc : c.kind = .cpu) (hm : d.kind = .refMem m)
    (hds : s.devices = [c, d]) (hr : s.refused = none) (ht : s.timers = []) (hN : s.params.resetHold ≠ 0) :
    Request.reset.handle s =
      s.inPulse (c.reset s.params.memResetClears) (d.reset s.params.memResetClears)
        (m.reset s.params.memResetClears) (Node.afterResetRequest s.bus) s.params.resetHold := by
  simp [Request.handle, State.pulse, hN, State.resetDevices, hds, Device.isCpu, hc, ht, State.inPulse,
    State.withBoard, Node.afterResetRequest, Clock.reset, hr, Device.reset, hm, TimerLine.line]

section Pulse
variable {X : ExecTable} {s : State} {c d : Device} {m : RefMem} {n n' : Node} (hp : Pair c d) (hq : s.queue = [])
  (ha : s.arrivals = [])
include hp hq ha

theorem boardStep_inPulse (j : Nat) (hr : n.refused = none)
    (ht : cpuThenMemory X s.params.rIncMask (n.clockTick, m) = (n', m)) :
    boardStep X (s.inPulse c d m n (j + 2)) = .next (s.inPulse c d m n' (j + 1)) := by
  have h := boardStep_withBoard_timers (X := X) (s := s.inPulse c d m n (j + 2)) (p := (n, m)) hp rfl hq ha hr
  have e : (s.inPulse c d m n (j + 2)).params = s.params := rfl
  rw [e, ht] at h
  exact h

theorem boardStep_lastOfPulse (hr : n.refused = none)
    (ht : cpuThenMemory X s.params.rIncMask (n.clockTick, m) = (n', m)) :
    boardStep X (s.inPulse c d m n 1) = .next (s.released c d m n') := by
  have h := boardStep_withBoard_timers (X := X) (s := s.inPulse c d m n 1) (p := (n, m)) hp rfl hq ha hr
  have e : (s.inPulse c d m n 1).params = s.params := rfl
  rw [e, ht] at h
  exact h

/-- From the first step of the pulse on: every step but the last keeps RESET Low, the last one releases it. -/
theorem runBoard_underReset (hd : m.driving = false) (b : Bus) (j k : Nat) :
    runBoard X (j + 1) (s.inPulse c d m (Node.underReset b k) (j + 1)) =
      .next (s.released c d m (Node.underReset b (k + j + 1))) := by
  induction j generalizing k with
  | zero =>
    simp only [runBoard, boardStep_lastOfPulse hp hq ha rfl (cpuThenMemory_underReset X _ b k hd)]
  | succ j ih =>
    rw [runBoard, boardStep_inPulse hp hq ha j rfl (cpuThenMemory_underReset X _ b k hd)]
    simp only [ih, show k + 1 + j + 1 = k + (j + 1) + 1 by omega]

/-- The whole pulse, from the request on, with at least two steps. -/
theorem runBoard_afterResetRequest (hd : m.driving = false) (b : Bus) (j : Nat) :
    runBoard X (j + 2) (s.inPulse c d m (Node.afterResetRequest b) (j + 2)) =
      .next (s.released c d m (Node.underReset b (j + 1))) := by
  rw [runBoard, boardStep_inPulse hp hq ha j rfl (cpuThenMemory_afterResetRequest X _ b hd)]
  simp only [runBoard_underReset hp hq ha hd, Nat.zero_add]

end Pulse

/-- A board of a CPU and a reference memory without dividers. -/
theorem devices_eq_pair {ds : List Device} {m : RefMem}
    (h : ds.map (fun d => (d.kind, d.divider)) = [(.cpu, none), (.refMem m, none)]) :
    ∃ c d, ds = [c, d] ∧ Pair c d ∧ d.kind = .refMem m := by
  obtain ⟨c, ds, rfl, hc, h⟩ := List.map_eq_cons_iff.mp h
  obtain ⟨d, ds, rfl, hd, h⟩ := List.map_eq_cons_iff.mp h
  obtain rfl := List.map_eq_nil_iff.mp h
  obtain ⟨hck, hcd⟩ := Prod.mk.inj hc
  obtain ⟨hdk, hdd⟩ := Prod.mk.inj hd
  exact ⟨c, d, rfl, ⟨hck, hcd, hdd⟩, hdk⟩

/-- reset() of the records keeps them a CPU and a memory without dividers (R44). -/
theorem Pair.reset {c d : Device} (h : Pair c d) (clears : Bool) : Pair (c.reset clears) (d.reset clears) :=
  ⟨by simp [Device.reset, h.cpuKind], h.cpuGate, h.memGate⟩

/-- A Reset request and its pulse of N steps, exactly: N at least 2. -/
theorem runBoard_resetRequest {s : State} {c d : Device} {m : RefMem} (X : ExecTable) (hp : Pair c d)
    (hm : d.kind = .refMem m) (hds : s.devices = [c, d]) (hr : s.refused = none) (hq : s.queue = [])
    (ha : s.arrivals = []) (ht : s.timers = []) (hN : 2 ≤ s.params.resetHold) :
    runBoard X s.params.resetHold (Request.reset.handle s) =
      .next (s.released (c.reset s.params.memResetClears) (d.reset s.params.memResetClears)
        (m.reset s.params.memResetClears) (Node.underReset s.bus (s.params.resetHold - 1))) := by
  obtain ⟨j, hj⟩ : ∃ j, s.params.resetHold = j + 2 := ⟨s.params.resetHold - 2, by omega⟩
  rw [handle_reset hp.cpuKind hm hds hr ht (by omega), hj]
  exact runBoard_afterResetRequest (hp.reset _) hq ha rfl s.bus j

/-! ## The values -/

/-- From five ticks on AF and SP have their reset values, from six on the sequence is complete (R45, R46). -/
theorem Cpu.underReset_of_six {k : Nat} (nmi : Bool) (h : 6 ≤ k) :
    Cpu.underReset nmi k =
      { Cpu.zero with sp := 0xFFFF#16, af := 0xFFFF#16, resetStep := 6, nmiSampled := nmi } := by
  have h5 : 5 ≤ k := by omega
  simp only [Cpu.underReset, h5, if_true, Nat.min_eq_right h]

/-- RESET is released from Low. -/
theorem Bus.released_reset (b : Bus) : (b.underReset.set .reset .high).get .reset = ⟨.low, .high⟩ := rfl

/-- A control line but RESET after the release: the CPU's outputs are High, the rest as before the request. -/
theorem Bus.released_control (b : Bus) {l : Line} (h : l.control = true) (hr : l ≠ .reset) :
    (b.underReset.set .reset .high).get l = if l ∈ cpuOutputs then ⟨(b.get l).cur, .high⟩ else b.get l := by
  rw [Bus.get_set, if_neg hr, Bus.underReset, Bus.get_resetOutputs _ h, Bus.get_set, if_neg hr]

theorem Bus.released_outputs (b : Bus) : ∀ l ∈ cpuOutputs, ((b.underReset.set .reset .high).get l).cur = .high := by
  have ho : ∀ l ∈ cpuOutputs, l.control = true ∧ l ≠ .reset := by decide
  intro l hl
  rw [Bus.released_control b (ho l hl).1 (ho l hl).2, if_pos hl]

theorem Bus.released_inputs (b : Bus) :
    ∀ l ∈ [Line.wait, .int, .nmi, .busrq], (b.underReset.set .reset .high).get l = b.get l := by
  have hi : ∀ l ∈ [Line.wait, .int, .nmi, .busrq], l.control = true ∧ l ≠ .reset ∧ l ∉ cpuOutputs := by decide
  intro l hl
  obtain ⟨hc, hr, hn⟩ := hi l hl
  rw [Bus.released_control b hc hr, if_neg hn]

/-- The address and data buses are released. -/
theorem Bus.released_addr (b : Bus) (i : Fin 16) : ((b.underReset.set .reset .high).get (.a i)).cur = .hiZ :=
  congrArg Signal.cur (WordLines.get_release _ i)
theorem Bus.released_data (b : Bus) (i : Fin 8) : ((b.underReset.set .reset .high).get (.d i)).cur = .hiZ :=
  congrArg Signal.cur (WordLines.get_release _ i)

/-- Settles O32: the pulse runs to its release, and with at least six steps every value of R45 is in place. -/
theorem resetRequestLeavesTheResetValues : Obligations.ResetRequestLeavesTheResetValues := by
  intro X s m hr hq ha ht hds hN
  obtain ⟨c, d, hcd, hp, hm⟩ := devices_eq_pair hds
  refine ⟨_, runBoard_resetRequest X hp hm hcd hr hq ha ht (by omega), ?_, ?_, rfl, rfl, rfl, ?_,
    Bus.released_reset s.bus, Bus.released_outputs s.bus, Bus.released_addr s.bus, Bus.released_data s.bus,
    Bus.released_inputs s.bus⟩
  · exact Cpu.underReset_of_six _ (by omega)
  · have hk : ((s.params.resetHold - 1 : Nat) : Int) = (s.params.resetHold : Int) - 1 := by omega
    exact congrArg (Clock.mk · []) hk
  · simp [State.released, State.withBoard, Device.reset, hp.cpuKind]

/-! ## State.reset -/

/-- Every line of a freshly built board is at BUS_INIT in both slots (R43). -/
theorem Bus.get_all (v : Level) (l : Line) : (Bus.all v).get l = ⟨v, v⟩ := by
  cases l with
  | a i => simp [Bus.get, Bus.all, WordLines.both, WordLines.get]
  | d i => simp [Bus.get, Bus.all, WordLines.both, WordLines.get]
  | _ => rfl

/-- The reference board as it is built, with a Reset request waiting, comes to State.reset by the board step that
handles the request and the six steps of its pulse. -/
theorem runBoard_construction_reset :
    runBoard exec0 7 { State.construction Params.reference referenceDevices with queue := [.reset] } =
      .next State.reset := by
  have h := runBoard_resetRequest (s := State.construction Params.reference referenceDevices) exec0 ⟨rfl, rfl, rfl⟩ rfl
    rfl rfl rfl rfl rfl (by decide)
  -- the first of the seven steps, in Stop, only handles the request; the state h ends in computes to State.reset
  exact h

/-- Settles O33: construction takes every record through reset(), and the reference board comes to State.reset by the
exact value of a Reset request's pulse. -/
theorem resetStateIsReached : Obligations.ResetStateIsReached :=
  ⟨fun p _ => ⟨rfl, rfl, Bus.get_all p.busInit, rfl, rfl, rfl, rfl, rfl⟩,
    runBoard_construction_reset⟩

end Sys2Proof.Machine

/-!
PROOF. Canonical memory contents that read alike are the same list.
-/
namespace Sys2Proof.Machine

/-- The form at a listed cell: in order, no byte 0x00, and the later cells at later addresses. -/
theorem Memory.wfFrom_cons {lo k : Nat} {v : Byte} {t : Memory} :
    Memory.wfFrom lo ((k, v) :: t) = true ↔ lo ≤ k ∧ v ≠ 0x00#8 ∧ Memory.wfFrom (k + 1) t = true := by
  simp [Memory.wfFrom, and_assoc]

@[simp] theorem Memory.read_head (k : Nat) (v : Byte) (t : Memory) : Memory.read ((k, v) :: t) k = v := if_pos rfl

section Alike
variable {k k' : Nat} {v v' : Byte} {t t' m' : Memory}

/-- A canonical memory lists nothing beyond the first address of one that reads alike: it lists that address itself. -/
theorem Memory.not_wfFrom_of_read_head {lo lo' : Nat} (hm : Memory.wfFrom lo ((k, v) :: t) = true)
    (h : ∀ a, Memory.read ((k, v) :: t) a = Memory.read m' a) (hk : k < lo') : Memory.wfFrom lo' m' ≠ true := by
  intro hm'
  have hv : v = 0x00#8 := by rw [← Memory.read_below hm' hk, ← h k, Memory.read_head]
  exact (Memory.wfFrom_cons.mp hm).2.1 hv

/-- Two canonical memories that read alike list the same first address. -/
theorem Memory.head_le {lo lo' : Nat} (hm : Memory.wfFrom lo ((k, v) :: t) = true)
    (hm' : Memory.wfFrom lo' ((k', v') :: t') = true)
    (h : ∀ a, Memory.read ((k, v) :: t) a = Memory.read ((k', v') :: t') a) : k' ≤ k := by
  by_contra hlt
  obtain ⟨-, hv', ht'⟩ := Memory.wfFrom_cons.mp hm'
  exact Memory.not_wfFrom_of_read_head hm h (by omega) (Memory.wfFrom_cons.mpr ⟨le_refl k', hv', ht'⟩)

/-- Behind a common first address the rests read alike: at that address, and below it, both read 0x00. -/
theorem Memory.read_tail (ht : Memory.wfFrom (k + 1) t = true) (ht' : Memory.wfFrom (k + 1) t' = true)
    (h : ∀ a, Memory.read ((k, v) :: t) a = Memory.read ((k, v') :: t') a) (a : Nat) :
    Memory.read t a = Memory.read t' a := by
  by_cases ha : k = a
  · rw [Memory.read_below ht (by omega), Memory.read_below ht' (by omega)]
  · simpa [Memory.read, ha] using h a

end Alike

theorem Memory.eq_of_read_eq :
    ∀ {lo lo' : Nat} {m m' : Memory}, Memory.wfFrom lo m = true → Memory.wfFrom lo' m' = true →
      (∀ a, Memory.read m a = Memory.read m' a) → m = m'
  | _, _, [], [], _, _, _ => rfl
  | _, _, [], (k, _) :: _, _, hm', h =>
    absurd rfl (Memory.not_wfFrom_of_read_head (m' := []) hm' (fun a => (h a).symm) (Nat.lt_succ_self k))
  | _, _, (k, _) :: _, [], hm, _, h =>
    absurd rfl (Memory.not_wfFrom_of_read_head (m' := []) hm h (Nat.lt_succ_self k))
  | _, _, (k, v) :: t, (k', v') :: t', hm, hm', h => by
    obtain rfl : k = k' := le_antisymm (Memory.head_le hm' hm fun a => (h a).symm) (Memory.head_le hm hm' h)
    obtain rfl : v = v' := by simpa using h k
    obtain ⟨-, -, ht⟩ := Memory.wfFrom_cons.mp hm
    obtain ⟨-, -, ht'⟩ := Memory.wfFrom_cons.mp hm'
    rw [Memory.eq_of_read_eq ht ht' (Memory.read_tail ht ht' h)]

/-- Settles O23, by induction on both lists: the first cells agree, and the rests read alike. -/
theorem canonicalMemoriesAreExtensional : Obligations.CanonicalMemoriesAreExtensional :=
  fun _ _ hm hm' h => Memory.eq_of_read_eq hm hm' h

end Sys2Proof.Machine

/-!
PROOF. The tick of a reference memory (R76, R77): the data lines, the driving mark, the bytes, each said once.
-/
namespace Sys2Proof.Machine

section Tick
variable (m : RefMem) (b : Bus)

/-- The data lines after the tick (R76). -/
theorem RefMem.tick_snd :
    (m.tick b).2 =
      if m.selectedForRead b then b.dataWrite (m.byteAt b.addrRead) else if m.driving then b.dataRelease else b := by
  simp only [RefMem.tick, RefMem.driveOrRelease]
  split_ifs <;> rfl

/-- The memory before its write part: it drives exactly when it is selected for a read (R76). -/
theorem RefMem.driveOrRelease_fst : (m.driveOrRelease b).1 = { m with driving := m.selectedForRead b } := by
  unfold RefMem.driveOrRelease
  split_ifs with hr hd
  · rw [hr]
  · rw [Bool.eq_false_of_not_eq_true hr]
  · rw [Bool.eq_false_of_not_eq_true hr, ← Bool.eq_false_of_not_eq_true hd]

/-- Selection for a write looks at no data line and not at the driving mark, so driving or releasing does not touch
it: the two parts of the tick are independent (R77). -/
theorem RefMem.selectedForWrite_driveOrRelease :
    (m.driveOrRelease b).1.selectedForWrite (m.driveOrRelease b).2 = m.selectedForWrite b := by
  unfold RefMem.driveOrRelease
  split_ifs <;> rfl

/-- The memory after the tick: it takes the byte on the lines as its read part leaves them (R77). -/
theorem RefMem.tick_fst :
    (m.tick b).1 =
      if m.selectedForWrite b then
        { m with driving := m.selectedForRead b }.store b.addrRead (m.tick b).2.dataRead
      else { m with driving := m.selectedForRead b } := by
  have ha : (m.driveOrRelease b).2.addrRead = b.addrRead := by
    unfold RefMem.driveOrRelease
    split_ifs <;> rfl
  simp only [RefMem.tick, RefMem.takeWrite]
  rw [RefMem.selectedForWrite_driveOrRelease, ha, RefMem.driveOrRelease_fst]

/-- The tick writes the driving mark and the bytes, no parameter (R75). -/
theorem RefMem.tick_params :
    (m.tick b).1 = { m with driving := m.selectedForRead b, bytes := (m.tick b).1.bytes } := by
  rw [RefMem.tick_fst]
  split_ifs <;> rfl

@[simp] theorem RefMem.tick_base : (m.tick b).1.base = m.base := by rw [RefMem.tick_params]
@[simp] theorem RefMem.tick_size : (m.tick b).1.size = m.size := by rw [RefMem.tick_params]

variable {m b}

theorem RefMem.tick_fst_of_not_write (h : m.selectedForWrite b = false) :
    (m.tick b).1 = { m with driving := m.selectedForRead b } := by
  rw [RefMem.tick_fst, h, if_neg Bool.false_ne_true]

/-- A write puts the byte on the lines at the address on the lines alone (R77). -/
theorem RefMem.byteAt_tick_of_write (h : m.selectedForWrite b = true) (hm : Memory.wf m.bytes = true) (a : Word) :
    (m.tick b).1.byteAt a = if a = b.addrRead then (m.tick b).2.dataRead else m.byteAt a := by
  rw [RefMem.tick_fst, h, if_pos rfl]
  exact RefMem.byteAt_store (m := { m with driving := m.selectedForRead b }) hm _ _ _

/-- With RFSH active the memory is selected for nothing (R80). -/
theorem RefMem.not_selectedForRead_of_rfsh (h : b.active .rfsh = true) : m.selectedForRead b = false := by
  simp [RefMem.selectedForRead, h]
theorem RefMem.not_selectedForWrite_of_rfsh (h : b.active .rfsh = true) : m.selectedForWrite b = false := by
  simp [RefMem.selectedForWrite, h]

/-- The tick writes no line but D0 to D7 (R81). -/
theorem RefMem.get_tick_snd {l : Line} (hl : ∀ i, l ≠ .d i) : (m.tick b).2.get l = b.get l := by
  rw [RefMem.tick_snd]
  cases l with
  | d i => exact absurd rfl (hl i)
  | _ => split_ifs <;> rfl

end Tick

/-- Settles O24: the conditions written out in the statement are selection for a read and for a write. -/
theorem memoryTickKeepsToTheDataLines : Obligations.MemoryTickKeepsToTheDataLines := by
  intro m b
  refine ⟨m.tick_snd b, m.tick_params b, fun hw => ?_, fun hw hm => ⟨?_, fun a' ha' => ?_⟩,
    fun l hl => RefMem.get_tick_snd hl, fun hf => ⟨?_, ?_⟩⟩
  · show (m.tick b).1.bytes = m.bytes
    rw [RefMem.tick_fst_of_not_write hw]
  · rw [RefMem.byteAt_tick_of_write hw hm, if_pos rfl]
  · rw [RefMem.byteAt_tick_of_write hw hm, if_neg ha']
  · rw [RefMem.tick_fst_of_not_write (RefMem.not_selectedForWrite_of_rfsh hf), RefMem.not_selectedForRead_of_rfsh hf]
  · rw [RefMem.tick_snd, RefMem.not_selectedForRead_of_rfsh hf, if_neg Bool.false_ne_true]

end Sys2Proof.Machine

/-!
PROOF. What a step can do to the device list, said once: every record goes on in place, or admitted records are inserted.
-/
namespace Sys2Proof.Machine

/-! ## One record -/

/-- The memory after ticks and resets: the parameters are the same (R75, R42), the contents are sound if they were. -/
structure RefMem.Continues (m m' : RefMem) : Prop where
  base : m'.base = m.base
  size : m'.size = m.size
  wf : m.wf = true → m'.wf = true

theorem RefMem.Continues.refl (m : RefMem) : m.Continues m := ⟨rfl, rfl, id⟩

theorem RefMem.continues_tick (m : RefMem) (b : Bus) : m.Continues (m.tick b).1 :=
  ⟨m.tick_base b, m.tick_size b, RefMem.wf_tick_range b⟩

theorem RefMem.continues_reset (m : RefMem) (clears : Bool) : m.Continues (m.reset clears) :=
  ⟨rfl, rfl, RefMem.wf_reset_range clears⟩

/-- Whether two memories overlap depends on their parameters only (R78). -/
theorem RefMem.Continues.overlaps_eq {m₁ m₁' m₂ m₂' : RefMem} (h₁ : m₁.Continues m₁') (h₂ : m₂.Continues m₂') :
    m₁'.overlaps m₂' = m₁.overlaps m₂ := by
  simp only [RefMem.overlaps, h₁.base, h₁.size, h₂.base, h₂.size]

theorem RefMem.overlaps_comm (m m' : RefMem) : m.overlaps m' = m'.overlaps m := Bool.and_comm _ _

theorem Device.refMem?_eq_some {d : Device} {m : RefMem} : d.refMem? = some m ↔ d.kind = .refMem m := by
  cases hk : d.kind <;> simp [Device.refMem?, hk]

theorem Device.isCpu_eq_type (d : Device) : d.isCpu = decide (d.type = .cpu) := by
  cases hk : d.kind with
  | cpu => simp [Device.isCpu, Device.type, hk]
  | refMem m => simp [Device.isCpu, Device.type, hk]
  | external ty script => cases ty <;> simp [Device.isCpu, Device.type, hk]

/-- The record after ticks and resets: its name and its type are the same (R39), its memory goes on. -/
structure Device.Continues (d d' : Device) : Prop where
  name : d'.name = d.name
  type : d'.type = d.type
  memory : ∀ m', d'.refMem? = some m' → ∃ m, d.refMem? = some m ∧ m.Continues m'

section Record
variable {d d' d'' : Device}

theorem Device.Continues.refl (d : Device) : d.Continues d := ⟨rfl, rfl, fun m hm => ⟨m, hm, .refl m⟩⟩

theorem Device.Continues.isCpu (h : d.Continues d') : d'.isCpu = d.isCpu := by
  rw [Device.isCpu_eq_type, Device.isCpu_eq_type, h.type]

/-- A record with the same name whose kind is the same. -/
theorem Device.Continues.of_kind (hn : d'.name = d.name) (hk : d'.kind = d.kind) : d.Continues d' where
  name := hn
  type := by simp only [Device.type, hk]
  memory m hm := ⟨m, by rwa [Device.refMem?_eq_some, ← hk, ← Device.refMem?_eq_some], .refl m⟩

/-- A record with the same name whose memory goes on. -/
theorem Device.Continues.of_refMem {m m' : RefMem} (hn : d'.name = d.name) (hk : d.kind = .refMem m)
    (hk' : d'.kind = .refMem m') (h : m.Continues m') : d.Continues d' where
  name := hn
  type := by simp only [Device.type, hk, hk']
  memory x hx := by
    obtain rfl : m' = x := by simpa [Device.refMem?, hk'] using hx
    exact ⟨m, Device.refMem?_eq_some.mpr hk, h⟩

/-- A record with the same name whose device is an external one of the same type. -/
theorem Device.Continues.of_external {ty : ExternalType} {sc sc' : List (List LineOp)} (hn : d'.name = d.name)
    (hk : d.kind = .external ty sc) (hk' : d'.kind = .external ty sc') : d.Continues d' where
  name := hn
  type := by cases ty <;> simp only [Device.type, hk, hk']
  memory x hx := by simp [Device.refMem?, hk'] at hx

/-- A device's tick writes the contents of its memory or its script, nothing else of the record (R150). -/
theorem Device.continues_tick (X : ExecTable) (mask : Byte) (d : Device) (n : Node) :
    d.Continues (d.tick X mask n).1 := by
  unfold Device.tick
  split
  · exact .refl d
  · next m hk => exact .of_refMem rfl hk rfl (m.continues_tick n.bus)
  · exact .refl d
  · next hk => exact .of_external rfl hk rfl

theorem Device.continues_dispatch (X : ExecTable) (mask : Byte) (d : Device) (n : Node) :
    d.Continues (d.dispatch X mask n).1 := by
  unfold Device.dispatch
  split
  · exact d.continues_tick X mask n
  · split_ifs
    · exact .refl d
    · -- the tick of a record that differs from d in `last` only
      next k _ _ =>
      have h := Device.continues_tick X mask { d with last := some (dividedClock n.clock.counter k) } n
      exact ⟨h.name, h.type, h.memory⟩

/-- reset() clears `last` and may clear the contents (R44, R82). -/
theorem Device.continues_reset (clears : Bool) (d : Device) : d.Continues (d.reset clears) := by
  cases hk : d.kind with
  | cpu => exact .of_kind rfl (by simp only [Device.reset, hk])
  | refMem m => exact .of_refMem rfl hk (by simp only [Device.reset, hk]) (m.continues_reset clears)
  | external ty sc => exact .of_external (sc' := sc) rfl hk (by simp only [Device.reset, hk])

theorem Device.continues_fresh (d : Device) : d.Continues d.fresh := d.continues_reset false

end Record

/-! ## The list -/

theorem forall₂_continues_dispatchAll (X : ExecTable) (mask : Byte) (ds : List Device) (n : Node) :
    ds.Forall₂ Device.Continues (dispatchAll X mask ds n).1 := by
  induction ds generalizing n with
  | nil => exact .nil
  | cons d ds ih => exact .cons (d.continues_dispatch X mask n) (ih _)

theorem forall₂_continues_reset (clears : Bool) (ds : List Device) :
    ds.Forall₂ Device.Continues (ds.map (Device.reset clears)) :=
  List.forall₂_map_right_iff.mpr (List.forall₂_same.mpr fun d _ => d.continues_reset clears)

/-- What registration demands of a new record: a new name, no second CPU, a memory in range and apart from the others
(R75, R78, R152, R156). -/
structure Device.Admitted (ds : List Device) (d : Device) : Prop where
  name : d.name ∉ ds.map Device.name
  cpu : d.isCpu = true → ∀ x ∈ ds, x.isCpu = false
  sound : ∀ m, d.refMem? = some m → m.wf = true
  apart : ∀ m, d.refMem? = some m → ∀ x ∈ ds, ∀ m', x.refMem? = some m' → m.overlaps m' = false

/-- A memory that overlaps none of the board. -/
theorem overlapsBoard_eq_false {ds : List Device} {m : RefMem} :
    overlapsBoard ds m = false ↔ ∀ x ∈ ds, ∀ m', x.refMem? = some m' → m.overlaps m' = false := by
  simp only [overlapsBoard, List.any_eq_false, Bool.not_eq_true]
  refine forall₂_congr fun x _ => ?_
  cases x.refMem? <;> simp

/-- Registering a device leaves the list as it is (a duplicate name), or inserts an admitted record (R152). -/
theorem registerDevice_cases {ds ds' : List Device} {d : Device} (h : registerDevice ds d = .ok ds') :
    ds' = ds ∨ d.Admitted ds ∧ ds' = insertByType d.fresh ds := by
  unfold registerDevice at h
  split at h
  · exact .inl (Except.ok.inj h).symm
  next hname =>
  have hn : d.name ∉ ds.map Device.name := by simpa using hname
  cases hk : d.kind with
  | cpu =>
    have hm : d.refMem? = none := by simp only [Device.refMem?, hk]
    simp only [hk] at h
    split at h
    · cases h
    · next hc =>
      exact .inr ⟨⟨hn, fun _ => by simpa using hc, by simp [hm], by simp [hm]⟩, (Except.ok.inj h).symm⟩
  | external ty sc =>
    have hm : d.refMem? = none := by simp only [Device.refMem?, hk]
    have hc : d.isCpu = false := by simp only [Device.isCpu, hk]
    simp only [hk] at h
    exact .inr ⟨⟨hn, by simp [hc], by simp [hm], by simp [hm]⟩, (Except.ok.inj h).symm⟩
  | refMem m =>
    have hm : d.refMem? = some m := Device.refMem?_eq_some.mpr hk
    have hc : d.isCpu = false := by simp only [Device.isCpu, hk]
    simp only [hk] at h
    split_ifs at h with hw ho
    have hwf : m.wf = true := by
      simp only [Bool.or_eq_true, not_or, Bool.not_eq_true', Bool.not_eq_false] at hw
      exact hw.1
    have hap := overlapsBoard_eq_false.mp (Bool.eq_false_of_not_eq_true ho)
    exact .inr ⟨⟨hn, by simp [hc], by simpa [hm] using hwf, by simpa [hm] using hap⟩, (Except.ok.inj h).symm⟩

/-- One change of the device list: every record goes on in place, or an admitted record is inserted fresh. -/
inductive DevicesStep (ds : List Device) : List Device → Prop
  | carry {ds' : List Device} (h : ds.Forall₂ Device.Continues ds') : DevicesStep ds ds'
  | insert {d : Device} (h : d.Admitted ds) : DevicesStep ds (insertByType d.fresh ds)

/-- Any number of such changes. -/
abbrev DevicesRun : List Device → List Device → Prop := Relation.ReflTransGen DevicesStep

theorem devicesRun_registerDevice {ds ds' : List Device} {d : Device} (h : registerDevice ds d = .ok ds') :
    DevicesRun ds ds' := by
  obtain rfl | ⟨ha, rfl⟩ := registerDevice_cases h
  · exact .refl
  · exact .single (.insert ha)

theorem devicesRun_registerDevices {ds ds' : List Device} (more : List Device)
    (h : registerDevices ds more = .ok ds') : DevicesRun ds ds' := by
  induction more generalizing ds with
  | nil =>
    obtain rfl : ds = ds' := Except.ok.inj h
    exact .refl
  | cons d more ih =>
    unfold registerDevices at h
    split at h
    · next ds₁ h₁ => exact (devicesRun_registerDevice h₁).trans (ih h)
    · cases h

theorem Task.devicesRun_perform (t : Task) (s : State) : DevicesRun s.devices (t.perform s).devices := by
  cases t with
  | addDevices ds =>
    simp only [Task.perform]
    split
    · next h => exact devicesRun_registerDevices ds h
    · exact .refl
  | setFrequency hz => exact .refl
  | copyState device => exact .refl
  | foreign => exact .refl

/-- A Reset request resets every record, ExecuteTask may register new ones (R165, R168). -/
theorem Request.devicesRun_handle (r : Request) (s : State) : DevicesRun s.devices (r.handle s).devices := by
  cases r with
  | run => exact .refl
  | stop => exact .refl
  | quit => exact .refl
  | executeTask t => exact t.devicesRun_perform s
  | reset =>
    simp only [Request.handle, State.pulse_devices]
    exact .single (.carry (forall₂_continues_reset _ _))
  | nonMaskableInterrupt =>
    simp only [Request.handle, State.pulse_devices]
    exact .refl

theorem State.devicesRun_drainRequest (s : State) : DevicesRun s.devices s.drainRequest.devices := by
  unfold State.drainRequest
  split
  · exact .refl
  · next r rest _ => exact r.devicesRun_handle { s with queue := rest }

/-- Of the parts of a board step the dispatch and the request reach the list, and of them only in these ways. -/
theorem boardStep_devicesRun (X : ExecTable) (ds : List Device) (s t : State) (h : boardStep X s = .next t) :
    DevicesRun ds s.devices → DevicesRun ds t.devices :=
  boardStep_keeps (P := fun s => DevicesRun ds s.devices) (fun s hs => by rwa [State.takeArrivals_devices])
    (fun _ => id) (fun _ hs => hs.tail (.carry (forall₂_continues_dispatchAll _ _ _ _))) (fun _ => id)
    (fun s hs => hs.trans s.devicesRun_drainRequest) h

/-- All a step does to the device list. -/
theorem step_devicesRun {s t : State} (h : step s = .next t) : DevicesRun s.devices t.devices :=
  step_keeps (P := fun u => DevicesRun s.devices u.devices) (boardStep_devicesRun exec0 s.devices)
    (fun i => boardStep_devicesRun (fun _ => some (entryOf i)) s.devices) h .refl

/-- What both changes of the device list keep, a step keeps. -/
theorem step_keeps_devices {P : List Device → Prop}
    (hc : ∀ {ds ds' : List Device}, ds.Forall₂ Device.Continues ds' → P ds → P ds')
    (hi : ∀ {ds : List Device} {d : Device}, d.Admitted ds → P ds → P (insertByType d.fresh ds)) {s t : State}
    (h : step s = .next t) (hs : P s.devices) : P t.devices := by
  have keeps : ∀ {ds ds'}, DevicesStep ds ds' → P ds → P ds' := fun
    | .carry h => hc h
    | .insert h => hi h
  have hr := step_devicesRun h
  generalize t.devices = ds' at hr ⊢
  induction hr with
  | refl => exact hs
  | tail _ hstep ih => exact keeps hstep ih

/-! ## Insertion -/

theorem insertByType_perm (d : Device) (ds : List Device) : (insertByType d ds).Perm (d :: ds) := by
  induction ds with
  | nil => exact .refl _
  | cons x t ih =>
    unfold insertByType
    split_ifs
    · exact (ih.cons x).trans (.swap d x t)
    · exact .refl _

/-- The list is sorted by type (R151, R152). -/
def SortedByType (ds : List Device) : Prop := ds.Pairwise fun x y => x.type.rank ≤ y.type.rank

theorem sortedByType_insertByType {d : Device} {ds : List Device} (h : SortedByType ds) :
    SortedByType (insertByType d ds) := by
  induction ds with
  | nil => exact List.pairwise_singleton _ d
  | cons x t ih =>
    obtain ⟨hx, ht⟩ := List.pairwise_cons.mp h
    unfold insertByType
    split_ifs with hxd
    · refine List.pairwise_cons.mpr ⟨fun y hy => ?_, ih ht⟩
      obtain rfl | hy := List.mem_cons.mp ((insertByType_perm d t).mem_iff.mp hy)
      · exact hxd
      · exact hx y hy
    · refine List.pairwise_cons.mpr ⟨fun y hy => ?_, h⟩
      obtain rfl | hy := List.mem_cons.mp hy
      · omega
      · have := hx y hy
        omega

end Sys2Proof.Machine

/-!
PROOF. Every step keeps every memory's parameters in range and its contents canonical (R75, R77, R82).
-/
namespace Sys2Proof.Machine

/-- The memories of a device list are sound. -/
def SoundMemories (ds : List Device) : Prop := ∀ d ∈ ds, ∀ m, d.refMem? = some m → m.wf = true

theorem memoriesSound_iff {s : State} : MemoriesSound s ↔ SoundMemories s.devices := by
  simp only [MemoriesSound, SoundMemories, Device.refMem?_eq_some]

theorem soundMemories_carry {ds ds' : List Device} (h : ds.Forall₂ Device.Continues ds') (hs : SoundMemories ds) :
    SoundMemories ds' := by
  induction h with
  | nil => exact hs
  | cons hd _ ih =>
    obtain ⟨hd₀, ht₀⟩ := List.forall_mem_cons.mp hs
    refine List.forall_mem_cons.mpr ⟨fun m' hm' => ?_, ih ht₀⟩
    obtain ⟨m, hm, hc⟩ := hd.memory m' hm'
    exact hc.wf (hd₀ m hm)

theorem soundMemories_insert {ds : List Device} {d : Device} (ha : d.Admitted ds) (hs : SoundMemories ds) :
    SoundMemories (insertByType d.fresh ds) := by
  intro x hx m' hm'
  obtain rfl | hx := List.mem_cons.mp ((insertByType_perm d.fresh ds).mem_iff.mp hx)
  · obtain ⟨m, hm, hc⟩ := d.continues_fresh.memory m' hm'
    exact hc.wf (ha.sound m hm)
  · exact hs x hx m' hm'

/-- Settles O53: ticks and resets keep a memory sound, and registration admits no other (R75, R77, R82). -/
theorem stepKeepsMemoriesSound : Obligations.StepKeepsMemoriesSound :=
  fun _ _ hs h =>
    memoriesSound_iff.mpr (step_keeps_devices soundMemories_carry soundMemories_insert h (memoriesSound_iff.mp hs))

end Sys2Proof.Machine

/-!
PROOF. Every step keeps the device list sorted, its names distinct, its CPU the only one and its memories apart (R78, R152,
R156).
-/
namespace Sys2Proof.Machine

section Carry
variable {ds ds' : List Device} (h : ds.Forall₂ Device.Continues ds')
include h

/-- What is read off a record and off the record it goes on as alike, the two lists have alike. -/
theorem map_eq_of_continues {α : Type} {f : Device → α} (hf : ∀ {d d' : Device}, d.Continues d' → f d' = f d) :
    ds'.map f = ds.map f := by
  induction h with
  | nil => rfl
  | cons hd _ ih => simp only [List.map_cons, hf hd, ih]

theorem pairwise_of_continues {R : Device → Device → Prop}
    (hR : ∀ {d d' e e' : Device}, d.Continues d' → e.Continues e' → R d e → R d' e') (hp : ds.Pairwise R) :
    ds'.Pairwise R := by
  have hl := h.length_eq
  rw [List.pairwise_iff_getElem] at hp ⊢
  intro i j hi hj hij
  have hi' : i < ds.length := by omega
  have hj' : j < ds.length := by omega
  exact hR (h.get hi' hi) (h.get hj' hj) (hp i j hi' hj' hij)

end Carry

/-- At most one CPU (R156). -/
def AtMostOneCpu (ds : List Device) : Prop := ds.countP Device.isCpu ≤ 1

/-- No memory of the one record overlaps a memory of the other (R78). -/
def Device.Apart (d d' : Device) : Prop := ∀ m m', d.refMem? = some m → d'.refMem? = some m' → m.overlaps m' = false

theorem Device.Apart.symm {d d' : Device} (h : d.Apart d') : d'.Apart d :=
  fun m m' hm hm' => (m.overlaps_comm m').trans (h m' m hm' hm)

theorem Device.Apart.continues {d d' e e' : Device} (hd : d.Continues d') (he : e.Continues e') (h : d.Apart e) :
    d'.Apart e' := by
  intro m' k' hm' hk'
  obtain ⟨m, hm, hmc⟩ := hd.memory m' hm'
  obtain ⟨k, hk, hkc⟩ := he.memory k' hk'
  rw [hmc.overlaps_eq hkc]
  exact h m k hm hk

theorem boardSound_iff {s : State} :
    BoardSound s ↔ SortedByType s.devices ∧ (s.devices.map Device.name).Nodup ∧ AtMostOneCpu s.devices ∧
      s.devices.Pairwise Device.Apart := by
  unfold SortedByType AtMostOneCpu
  rw [List.countP_eq_length_filter]
  exact ⟨fun h => ⟨List.pairwise_map.mp h.sorted, h.names, h.oneCpu, h.apart⟩,
    fun ⟨hs, hn, hc, ha⟩ => ⟨List.pairwise_map.mpr hs, hn, hc, ha⟩⟩

section Keeps
variable {s t : State} (h : step s = .next t)
include h

/-- Types do not change, and a new record goes to its place (R151, R152). -/
theorem step_keeps_sortedByType (hs : SortedByType s.devices) : SortedByType t.devices :=
  step_keeps_devices (P := SortedByType)
    (fun hc hs => pairwise_of_continues hc (fun hd he hr => by rwa [hd.type, he.type]) hs)
    (fun _ hs => sortedByType_insertByType hs) h hs

/-- Names do not change, and a new record has a new one (R152). -/
theorem step_keeps_names (hs : (s.devices.map Device.name).Nodup) : (t.devices.map Device.name).Nodup := by
  refine step_keeps_devices (P := fun ds => (ds.map Device.name).Nodup) (fun hc hs => ?_) (fun {ds d} ha hs => ?_) h hs
  · rwa [map_eq_of_continues hc Device.Continues.name]
  · rw [((insertByType_perm d.fresh ds).map Device.name).nodup_iff]
    exact List.nodup_cons.mpr ⟨ha.name, hs⟩

/-- No record becomes a CPU, and a CPU is admitted only where there is none (R156). -/
theorem step_keeps_atMostOneCpu (hs : AtMostOneCpu s.devices) : AtMostOneCpu t.devices := by
  refine step_keeps_devices (P := AtMostOneCpu) (fun {ds ds'} hc hs => ?_) (fun {ds d} ha hs => ?_) h hs
  · have he : ds'.countP Device.isCpu = ds.countP Device.isCpu := by
      simpa [List.countP_map] using congrArg (List.countP id) (map_eq_of_continues hc Device.Continues.isCpu)
    exact he.trans_le hs
  · unfold AtMostOneCpu at hs ⊢
    rw [(insertByType_perm d.fresh ds).countP_eq, List.countP_cons, d.continues_fresh.isCpu]
    split_ifs with hd
    · have h0 : ds.countP Device.isCpu = 0 := List.countP_eq_zero.mpr (by simpa using ha.cpu hd)
      omega
    · exact hs

/-- Ranges do not change, and a new memory overlaps none (R78). -/
theorem step_keeps_apart (hs : s.devices.Pairwise Device.Apart) : t.devices.Pairwise Device.Apart := by
  refine step_keeps_devices (P := List.Pairwise Device.Apart)
    (fun hc hs => pairwise_of_continues hc Device.Apart.continues hs) (fun {ds d} ha hs => ?_) h hs
  rw [(insertByType_perm d.fresh ds).pairwise_iff Device.Apart.symm]
  have hnew : ∀ x ∈ ds, d.Apart x := fun x hx m m' hm hm' => ha.apart m hm x hx m' hm'
  exact List.pairwise_cons.mpr ⟨fun x hx => (hnew x hx).continues d.continues_fresh (.refl x), hs⟩

end Keeps

/-- Settles O56, the four parts one by one. -/
theorem stepKeepsTheBoardSound : Obligations.StepKeepsTheBoardSound := by
  intro s t hs h
  obtain ⟨hsort, hname, hcpu, hap⟩ := boardSound_iff.mp hs
  exact boardSound_iff.mpr ⟨step_keeps_sortedByType h hsort, step_keeps_names h hname,
    step_keeps_atMostOneCpu h hcpu, step_keeps_apart h hap⟩

end Sys2Proof.Machine

/-!
PROOF. The decoder and the encoder are inverse to each other (R90 to R94): what `decode` answers, said once in terms of
the row the opcode selects and the operand bytes of its format, and each row against the instructions it builds.
-/
namespace Sys2Proof

/-! ## Operand bytes -/

/-- A word is read back from its operand bytes (R92). -/
@[simp] theorem wordOfBytes_halves (nn : Word) : wordOfBytes (nn.extractLsb' 0 8) (nn.extractLsb' 8 8) = nn :=
  Machine.operand_word rfl rfl

/-- The operand bytes of a word are those it was made of (R92). -/
@[simp] theorem operandBytes_wordOfBytes (lo hi : Byte) : operandBytes (wordOfBytes lo hi) = [lo, hi] :=
  congrArg₂ (fun l h => [l, h]) (Machine.loByte_append hi lo) (Machine.hiByte_append hi lo)

/-- The operand byte of format OP_N is the low half (R90). -/
@[simp] theorem setWidth_wordOfBytes (n hi : Byte) : (wordOfBytes n hi).setWidth 8 = n :=
  (BitVec.setWidth_eq_extractLsb' (by decide)).trans (Machine.loByte_append hi n)

/-- The operand bytes that a format takes, and the operand word that `Row.build` gets for them (R90, R92). -/
inductive OperandOf : Format → List Byte → Word → Prop
  | op : OperandOf .op [] 0#16
  | opN (n : Byte) : OperandOf .opN [n] (wordOfBytes n 0#8)
  | opNn (nn : Word) : OperandOf .opNn (operandBytes nn) nn

theorem OperandOf.opNn_bytes (lo hi : Byte) : OperandOf .opNn [lo, hi] (wordOfBytes lo hi) :=
  operandBytes_wordOfBytes lo hi ▸ .opNn _

/-! ## What decode answers -/

/-- The bytes decode to an instruction iff they are an opcode of the map, the operand bytes of its format and the bytes
that follow; the instruction is what the opcode's row builds. -/
theorem decode_eq_ok_iff {bytes rest : List Byte} {i : Instr} :
    decode bytes = .ok (i, rest) ↔
      ∃ op r os nn, rowOf op = some r ∧ OperandOf r.format os nn ∧ bytes = op :: os ++ rest ∧ i = r.build op nn := by
  constructor
  · intro h
    cases bytes with
    | nil => simp [decode] at h
    | cons op tail =>
      cases hr : rowOf op with
      | none => simp [decode, hr] at h
      | some r =>
        refine ⟨op, r, ?_⟩
        simp only [decode, hr] at h
        split at h <;> simp only [Except.ok.injEq, Prod.mk.injEq, reduceCtorEq] at h <;> obtain ⟨rfl, rfl⟩ := h
        next hf => exact ⟨[], _, hr, hf ▸ OperandOf.op, rfl, rfl⟩
        next n tail hf => exact ⟨[n], _, hr, hf ▸ OperandOf.opN n, rfl, rfl⟩
        next lo hi tail hf => exact ⟨[lo, hi], _, hr, hf ▸ OperandOf.opNn_bytes lo hi, rfl, rfl⟩
  · rintro ⟨op, r, os, nn, hr, ho, rfl, rfl⟩
    simp only [List.cons_append, decode, hr]
    generalize r.format = f at ho
    cases ho <;> simp [operandBytes]

/-! ## The rows of the map -/

/-- No byte selects both rows: the two match bytes differ where both masks look (R101). -/
def Row.Disjoint (r r' : Row) : Prop := r.mat &&& r'.mask ≠ r'.mat &&& r.mask

theorem opcodeMap_disjoint : opcodeMap.Pairwise Row.Disjoint := by
  unfold Row.Disjoint
  decide

theorem Row.selects_iff {r : Row} {op : Byte} : r.selects op = true ↔ op &&& r.mask = r.mat := beq_iff_eq

theorem Row.Disjoint.not_selects {r r' : Row} (h : r.Disjoint r') {op : Byte} (hs : r'.selects op = true) :
    r.selects op = false := by
  refine Bool.eq_false_iff.mpr fun hr => h ?_
  rw [← Row.selects_iff.mp hr, ← Row.selects_iff.mp hs, BitVec.and_assoc, BitVec.and_assoc, BitVec.and_comm r.mask]

/-- The row of an opcode value is the one that it selects (R94, R101). -/
theorem rowOf_eq_some_iff {op : Byte} {r : Row} : rowOf op = some r ↔ r ∈ opcodeMap ∧ r.selects op = true := by
  refine ⟨fun h => ⟨List.mem_of_find?_eq_some h, (List.find?_eq_some_iff_append.mp h).1⟩, fun ⟨hm, hs⟩ => ?_⟩
  obtain ⟨before, after, hmap⟩ := List.append_of_mem hm
  refine List.find?_eq_some_iff_append.mpr ⟨hs, before, after, hmap, fun r' hr' => ?_⟩
  have hd := opcodeMap_disjoint
  rw [hmap, List.pairwise_append] at hd
  rw [(hd.2.2 r' hr' r List.mem_cons_self).not_selects hs]
  rfl

/-! ## Encoding what a row builds -/

/-- What the row builds is well-formed and encodes to the opcode that selected the row and the operand bytes. -/
def Row.EncodesBack (r : Row) : Prop :=
  ∀ op os nn, r.selects op = true → OperandOf r.format os nn →
    WellFormed (r.build op nn) = true ∧ encode (r.build op nn) = op :: os

/-- A row without fields stands for one opcode value (R94). -/
theorem Row.encodesBack_of_exact {r : Row} (hm : r.mask = 0xFF#8)
    (h : ∀ os nn, OperandOf r.format os nn →
      WellFormed (r.build r.mat nn) = true ∧ encode (r.build r.mat nn) = r.mat :: os) : r.EncodesBack := by
  intro op os nn hs ho
  have hop : op = r.mat := by rw [← Row.selects_iff.mp hs, hm]; exact BitVec.and_allOnes.symm
  rw [hop]
  exact h os nn ho

/-- The field dd is opcode[5:4] (R91). -/
theorem encode_pairOfOpcode :
    ∀ op : Byte, op &&& 0xCF#8 = 0x01#8 → 0x01#8 ||| ((pairOfOpcode op).code <<< 4) = op := by
  decide +kernel

/-- The field ttt is opcode[5:3] (R91). -/
theorem encode_restartOfOpcode : ∀ op : Byte, op &&& 0xC7#8 = 0xC7#8 →
    restartAddress (restartOfOpcode op) = true ∧ 0xC7#8 ||| (restartOfOpcode op).extractLsb' 0 8 = op := by
  decide +kernel

theorem encodesBack_of_mem : ∀ r ∈ opcodeMap, r.EncodesBack := by
  simp only [opcodeMap, List.forall_mem_append, List.forall_mem_cons, List.not_mem_nil, false_imp_iff, implies_true,
    and_true]
  refine ⟨⟨?nop, ?ldDdNn, ?ldAN, ?ldANn, ?ldNnA, ?exAfAf, ?exx, ?incA⟩,
    ?jpNn, ?jpNzNn, ?callNn, ?ret, ?rstP, ?di, ?ei, ?halt⟩
  case ldDdNn =>
    intro op os nn hs ho
    cases ho
    exact ⟨rfl, congrArg (· :: operandBytes nn) (encode_pairOfOpcode op (Row.selects_iff.mp hs))⟩
  case rstP =>
    intro op os nn hs ho
    cases ho
    obtain ⟨hw, he⟩ := encode_restartOfOpcode op (Row.selects_iff.mp hs)
    exact ⟨hw, congrArg (fun b => [b]) he⟩
  case ldAN => exact Row.encodesBack_of_exact rfl fun _ _ (.opN n) => ⟨rfl, by simp [encode]⟩
  case ldANn | ldNnA | jpNn | jpNzNn | callNn => exact Row.encodesBack_of_exact rfl fun _ _ (.opNn nn) => ⟨rfl, rfl⟩
  case nop | exAfAf | exx | incA | ret | di | ei | halt =>
    exact Row.encodesBack_of_exact rfl fun _ _ .op => ⟨rfl, rfl⟩

/-- Settles O44: the row that the opcode selected encodes what it builds to the bytes it was built from. -/
theorem encodeOfDecodeIsTheBytes : Obligations.EncodeOfDecodeIsTheBytes := by
  intro bytes rest i h
  obtain ⟨op, r, os, nn, hr, ho, rfl, rfl⟩ := decode_eq_ok_iff.mp h
  obtain ⟨hm, hs⟩ := rowOf_eq_some_iff.mp hr
  obtain ⟨hw, he⟩ := encodesBack_of_mem r hm op os nn hs ho
  exact ⟨hw, by rw [he]⟩

/-! ## Decoding what was encoded -/

/-- The opcode of RST p: its bits outside ttt are those of the row, whatever p is (R91). -/
theorem rowOf_rst (b : Byte) :
    rowOf (0xC7#8 ||| b) = some ⟨0xC7#8, 0xC7#8, .op, fun op _ => .rstP (restartOfOpcode op)⟩ := by
  refine rowOf_eq_some_iff.mpr ⟨by simp [opcodeMap], Row.selects_iff.mpr ?_⟩
  revert b
  decide +kernel

/-- A restart address has nothing but ttt, so it is read back from its low byte (R91, R274). -/
theorem restartOfOpcode_rst {p : Word} (h : restartAddress p = true) :
    restartOfOpcode (0xC7#8 ||| p.extractLsb' 0 8) = p := by
  have hp : p &&& 0xFFC7#16 = 0#16 := beq_iff_eq.mp h
  have hlo : p.extractLsb' 0 8 &&& 0xC7#8 = 0#8 := by
    simpa [BitVec.extractLsb'_and] using congrArg (BitVec.extractLsb' 0 8) hp
  have hhi : p.extractLsb' 8 8 = 0#8 := BitVec.and_allOnes.symm.trans (by
    simpa [BitVec.extractLsb'_and] using congrArg (BitVec.extractLsb' 8 8) hp)
  have hbyte : ∀ lo : Byte, lo &&& 0xC7#8 = 0#8 → restartOfOpcode (0xC7#8 ||| lo) = wordOfBytes lo 0#8 := by
    decide +kernel
  rw [hbyte _ hlo, ← hhi, wordOfBytes_halves]

/-- The bytes of a well-formed instruction are an opcode and the operand bytes of a row that builds it (R90, R94). -/
theorem exists_row_of_wellFormed (i : Instr) (h : WellFormed i = true) :
    ∃ op r os nn, rowOf op = some r ∧ OperandOf r.format os nn ∧ encode i = op :: os ∧ i = r.build op nn := by
  cases i with
  | rstP p => exact ⟨_, _, [], _, rowOf_rst _, .op, rfl, congrArg Instr.rstP (restartOfOpcode_rst h).symm⟩
  | ldDdNn dd nn => cases dd <;> exact ⟨_, _, _, _, rfl, .opNn nn, rfl, rfl⟩
  | ldAN n => exact ⟨_, _, _, _, rfl, .opN n, rfl, congrArg Instr.ldAN (setWidth_wordOfBytes n _).symm⟩
  | ldANn nn => exact ⟨_, _, _, _, rfl, .opNn nn, rfl, rfl⟩
  | ldNnA nn => exact ⟨_, _, _, _, rfl, .opNn nn, rfl, rfl⟩
  | jpNn nn => exact ⟨_, _, _, _, rfl, .opNn nn, rfl, rfl⟩
  | jpNzNn nn => exact ⟨_, _, _, _, rfl, .opNn nn, rfl, rfl⟩
  | callNn nn => exact ⟨_, _, _, _, rfl, .opNn nn, rfl, rfl⟩
  | nop => exact ⟨_, _, _, _, rfl, .op, rfl, rfl⟩
  | exAfAf => exact ⟨_, _, _, _, rfl, .op, rfl, rfl⟩
  | exx => exact ⟨_, _, _, _, rfl, .op, rfl, rfl⟩
  | incA => exact ⟨_, _, _, _, rfl, .op, rfl, rfl⟩
  | ret => exact ⟨_, _, _, _, rfl, .op, rfl, rfl⟩
  | di => exact ⟨_, _, _, _, rfl, .op, rfl, rfl⟩
  | ei => exact ⟨_, _, _, _, rfl, .op, rfl, rfl⟩
  | halt => exact ⟨_, _, _, _, rfl, .op, rfl, rfl⟩

/-- Settles O43: the opcode selects the row that builds the instruction, and the operand bytes carry its operand. -/
theorem decodeOfEncodeIsTheInstruction : Obligations.DecodeOfEncodeIsTheInstruction := by
  intro i rest h
  obtain ⟨op, r, os, nn, hr, ho, he, hi⟩ := exists_row_of_wellFormed i h
  exact decode_eq_ok_iff.mpr ⟨op, r, os, nn, hr, ho, by rw [he], hi⟩

end Sys2Proof

/-!
PROOF. Which opcode values the map wires, words written out, and the length of an instruction (R90 to R94, R101).
-/
namespace Sys2Proof

/-- No byte selects two rows (R101). -/
theorem length_filter_selects_le (op : Byte) : (opcodeMap.filter fun r => r.selects op).length ≤ 1 := by
  have hd := opcodeMap_disjoint.filter fun r => r.selects op
  have hs : ∀ r ∈ opcodeMap.filter fun r => r.selects op, r.selects op = true := fun r hr => (List.mem_filter.mp hr).2
  generalize (opcodeMap.filter fun r => r.selects op) = rs at hd hs
  match rs with
  | [] => exact Nat.zero_le 1
  | [_] => exact Nat.le_refl 1
  | r :: r' :: _ =>
    have h : r.Disjoint r' := List.rel_of_pairwise_cons hd List.mem_cons_self
    have hr : r.selects op = false := h.not_selects (hs r' (List.mem_cons_of_mem _ List.mem_cons_self))
    rw [hs r List.mem_cons_self] at hr
    cases hr

/-- An unwired opcode value decodes to nothing, whatever follows (R96). -/
theorem decodeInstr_of_unwired {op : Byte} (h : rowOf op = none) (rest : List Byte) :
    decodeInstr (op :: rest) = none := by
  simp only [decodeInstr, decode, h]

/-- With two operand bytes at hand an opcode value decodes iff it is wired: no format takes more (R90). -/
theorem decodeInstr_padded (op : Byte) :
    decodeInstr [op, 0x00#8, 0x00#8] = (rowOf op).map fun r => r.build op 0#16 := by
  cases hr : rowOf op with
  | none => exact decodeInstr_of_unwired hr _
  | some r =>
    simp only [decodeInstr, decode, hr]
    cases r.format <;> rfl

/-- Settles O45: the 26 by counting, the rest from the rows: each is decoded, and they are disjoint. -/
theorem twentySixOpcodesAreWired : Obligations.TwentySixOpcodesAreWired :=
  ⟨by decide +kernel, fun op => by simp [Machine.exec0, decodeInstr_padded], length_filter_selects_le⟩

/-- Settles O46, by running the decoder on the eight words. -/
theorem sampleWordsDecode : Obligations.SampleWordsDecode := by
  unfold Obligations.SampleWordsDecode
  decide

/-- Settles O47, instruction by instruction: the entry reads each operand byte through PC, and nothing else. -/
theorem lengthCountsReadsThroughPc : Obligations.LengthCountsReadsThroughPc := by
  intro i
  cases i <;> rfl

end Sys2Proof

/-!
PROOF. An unwired opcode: EXEC0 has no entry, and the phase that executes the fetched opcode refuses the run (R96, R197,
R207).
-/
namespace Sys2Proof.Machine

/-! ## execute -/

section Execute
variable {X : ExecTable} {n : Node}

theorem Node.execute_unwired (h : X n.cpu.opcode = none) :
    n.execute X = { n with refused := some (.unwiredOpcode n.cpu.opcode n.cpu.pc) } := by
  simp only [Node.execute, h]

/-- On an empty pipeline: the immediate action, the micro-ops, HALT if the CPU halted, and the cursor complete (R197). -/
theorem Node.execute_wired {e : Entry} (h : X n.cpu.opcode = some e) (hp : (e.imm n.cpu).pipe = [])
    (hl : e.ops.length ≤ 8) :
    n.execute X =
      { n with
        cpu := { e.imm n.cpu with pipe := e.ops, step := .done, mc := .m2 }
        bus := if (e.imm n.cpu).halted then n.bus.set .halt .low else n.bus } := by
  have hroom : ({ n with cpu := e.imm n.cpu } : Node).cpu.pipe.length + e.ops.length ≤ 8 := by simp [hp, hl]
  simp only [Node.execute, h, Node.applyEntry, Node.pushAll_of_room _ _ hroom, hp, List.nil_append]
  split <;> rfl

end Execute

theorem exec0_of_unwired {op : Byte} (h : rowOf op = none) : exec0 op = none := by
  simp only [exec0, decodeInstr_of_unwired h, Option.map_none]

/-! ## The phase that executes the opcode -/

/-- A board step of a board of `OnBoard` is clock.tick(), the CPU's tick and the memory's tick (R160). -/
theorem OnBoard.boardStep_eq {s : State} {m : RefMem} (h : OnBoard s m) (X : ExecTable) :
    ∃ c d, boardStep X s = .next (s.withBoard c d (cpuThenMemory X s.params.rIncMask (s.toNode.clockTick, m))) := by
  obtain ⟨c, d, hidle, hpair, hdev, hkind, -⟩ := h.pair
  have hself : s.withBoard c d (s.toNode, m) = s := by
    obtain ⟨n, ds, r, q, ts, a, f, p⟩ := s
    obtain ⟨dn, df, dd, dl, dk⟩ := d
    subst hdev hkind
    rfl
  have hb := boardStep_withBoard (X := X) hidle hpair (p := (s.toNode, m)) h.unmarked
  rw [hself] at hb
  exact ⟨c, d, hb⟩

section AtDispatch
variable {s : State} {m : RefMem} (h : AtDispatch s m)
include h

/-- The refresh release is not due yet, so tick() only counts (R131, R198). -/
theorem AtDispatch.clockTick_eq :
    s.toNode.clockTick = { s.toNode with clock := ⟨s.clock.counter + 1, s.clock.events⟩ } := by
  have hlater : ¬ s.clock.counter + 2 ≤ s.clock.counter + 1 := by omega
  simp [Node.clockTick, Clock.due, Clock.advance, h.events]

/-- The CPU's tick is T4_H2 of M1 (R181, R197). -/
theorem AtDispatch.cpuTick_eq (X : ExecTable) (mask : Byte) :
    cpuTick X mask s.toNode.clockTick = m1T4H2 X { s.toNode.clockTick with cpu := s.cpu.settle } := by
  have hcpu : s.toNode.clockTick.cpu = s.cpu := by rw [h.clockTick_eq]
  have hn : s.cpu.normalise = s.cpu := Cpu.normalise_of_ne_done _ (by simp [h.phase])
  have hbd : s.cpu.atBoundary = false := by simp [Cpu.atBoundary, h.phase]
  rw [cpuTick_calm (n := s.toNode.clockTick) ⟨h.reset, h.busrq, h.nmi, h.wait⟩ (by rw [hcpu, h.owns])
    (by simp [hcpu, hn, hbd]) (by simp [hcpu, hn, hbd]), hcpu, hn]
  simp only [normalDecode, Cpu.settle, h.awake, h.cycle, h.noAck, h.phase, m1Phase, Bool.false_eq_true, if_false,
    if_true]

/-- A run from there refuses an opcode that the table does not wire, with the opcode and its address (R96, R207). -/
theorem AtDispatch.advance_unwired {X : ExecTable} (hx : X s.cpu.opcode = none) (stop : State → Bool) (k : Nat) :
    advance X stop (k + 1) s = .refused (.unwiredOpcode s.cpu.opcode s.cpu.pc) := by
  obtain ⟨c, d, hb⟩ := h.toOnBoard.boardStep_eq X
  have ht : cpuTick X s.params.rIncMask s.toNode.clockTick = _ :=
    (h.cpuTick_eq X _).trans (Node.execute_unwired hx)
  simp only [advance, hb, State.withBoard, cpuThenMemory, ht]
  rfl

end AtDispatch

/-- Settles O48: the fetch comes to the phase that executes the opcode, nothing is decoded there, and that phase sets
the mark. -/
theorem unwiredOpcodeRefusesTheRun : Obligations.UnwiredOpcodeRefusesTheRun := by
  intro s m c h hr
  obtain ⟨t, hf, hd, hdisp, hcpu, -, -⟩ := fetch_boundary h
  have hop : t.cpu.opcode = s.peek c.pc := by rw [hcpu, h.toOnBoard.peek]; rfl
  have hpc : t.cpu.pc = c.pc := by rw [hcpu]; rfl
  rw [← hop] at hr ⊢
  rw [← hpc]
  have hn : t.currentInstr = none := decodeInstr_of_unwired hr _
  simp only [step, hf, hdisp, hn, if_true]
  exact hd.advance_unwired (exec0_of_unwired hr) _ 63

end Sys2Proof.Machine

/-!
PROOF. The interrupt-acknowledge cycle for every supplied byte: what each phase drives, latches and goes on to (R317), and
the completion by IM (R99, R318).
-/
namespace Sys2Proof.Machine

/-! ## The lines a phase drives -/

section Drives
variable {b : Bus} {w : Line → Option Level} {c : Cpu}

/-- A phase without a line of its own drives none. -/
theorem Bus.drives_refl (h : ∀ l, w l = none) : b.Drives b w := by
  intro l
  rw [h l]

/-- Setting one line drives it and no other (R110). -/
theorem Bus.drives_set (l : Line) (v : Level) (h : ∀ l', w l' = if l' = l then some v else none) :
    b.Drives (b.set l v) w := by
  intro l'
  rw [h l', Bus.get_set]
  split
  · next e => rw [e]
  · rfl

/-- T1_H1: PC on the address lines, M1 Low. -/
theorem Bus.drives_ack_start (h : c.step = .t1h1) : b.Drives ((b.addrWrite c.pc).set .m1 .low) (iackLines c) := by
  intro l
  cases l with
  | a i => simp only [iackLines, h]; exact WordLines.get_write b.addr c.pc i
  | _ => simp only [iackLines, h]; rfl

/-- T2_H2: IORQ Low. -/
theorem Bus.drives_ack_request (h : c.step = .t2h2) : b.Drives (b.set .iorq .low) (iackLines c) := by
  refine Bus.drives_set _ _ fun l => ?_
  cases l <;> simp only [iackLines, h] <;> rfl

/-- T3_H2: IORQ and M1 rise. -/
theorem Bus.drives_ack_end (h : c.step = .t3h2) : b.Drives ((b.set .iorq .high).set .m1 .high) (iackLines c) := by
  intro l
  cases l <;> simp only [iackLines, h] <;> rfl

/-- T1_H2, T2_H1, T3_H1 and T4_H1: no line. -/
theorem Bus.drives_ack_none (h : c.step = .t1h2 ∨ c.step = .t2h1 ∨ c.step = .t3h1 ∨ c.step = .t4h1) :
    b.Drives b (iackLines c) := by
  refine Bus.drives_refl fun l => ?_
  rcases h with h | h | h | h <;> simp only [iackLines, h]

end Drives

/-! ## The phases -/

/-- Normal decode in an acknowledge cycle is one of its phases (R186). -/
theorem normalDecode_ack {X : ExecTable} {mask : Byte} {n : Node} (hh : n.cpu.halted = false) (hm : n.cpu.mc = .m1)
    (ha : n.cpu.iack = true) : normalDecode X mask n = iackPhase X n := by
  simp only [normalDecode, hh, hm, ha, Bool.false_eq_true, if_false, if_true]

/-- The CPU after a phase of the acknowledge cycle but the last: the byte is latched at T3_H2, T3_H1 repeats while WAIT
is active (R317). -/
def Cpu.ackPhase (c : Cpu) (b : Bus) : Cpu :=
  { c with
    ibyte := if c.step = .t3h2 then b.dataRead else c.ibyte
    step := if c.step = .t3h1 ∧ b.active .wait = true then .t3h1 else c.step.next }

/-- Every phase but the last: the lines of its table row, nothing scheduled, no mark (R317). -/
theorem iackPhase_spec (X : ExecTable) (n : Node) (h8 : n.cpu.step ≠ .t4h2) (hd : n.cpu.step ≠ .done) :
    n.bus.Drives (iackPhase X n).bus (iackLines n.cpu) ∧ (iackPhase X n).clock = n.clock ∧
      (iackPhase X n).refused = n.refused ∧ (iackPhase X n).cpu = n.cpu.ackPhase n.bus := by
  cases h : n.cpu.step with
  | t4h2 => exact absurd h h8
  | done => exact absurd h hd
  | t1h1 =>
    simp only [iackPhase, h, Cpu.ackPhase]
    exact ⟨Bus.drives_ack_start h, rfl, rfl, by simp [Cpu.nextStep, h]⟩
  | t2h2 =>
    simp only [iackPhase, h, Cpu.ackPhase]
    exact ⟨Bus.drives_ack_request h, rfl, rfl, by simp [Cpu.nextStep, h]⟩
  | t3h1 =>
    simp only [iackPhase, h, Cpu.ackPhase, Node.waitPhase]
    split
    · next hw =>
      refine ⟨Bus.drives_ack_none (by simp [h]), rfl, rfl, ?_⟩
      simp only [hw, and_self, if_true, reduceCtorEq, if_false]
      rw [← h]
    · next hw => exact ⟨Bus.drives_ack_none (by simp [h]), rfl, rfl, by simp [hw, Cpu.nextStep, h]⟩
  | t3h2 =>
    simp only [iackPhase, h, Cpu.ackPhase]
    exact ⟨Bus.drives_ack_end h, rfl, rfl, by simp [iackT3H2, Cpu.nextStep, h]⟩
  | _ =>
    simp only [iackPhase, h, Cpu.ackPhase]
    exact ⟨Bus.drives_ack_none (by simp [h]), rfl, rfl, by simp [Cpu.nextStep, h]⟩

/-! ## The completion -/

/-- Of the entries only HALT's halts the CPU (R292). -/
theorem entryOf_imm_halted (i : Instr) (c : Cpu) :
    ((entryOf i).imm c).halted = true ↔ i = .halt ∨ c.halted = true := by
  cases i with
  | halt => exact ⟨fun _ => .inl rfl, fun _ => rfl⟩
  | _ => exact ⟨.inr, fun h => h.resolve_left nofun⟩

theorem iackT4H2_im0 {X : ExecTable} {n : Node} (h : n.cpu.im = .im0) :
    iackT4H2 X n = { n with cpu := { n.cpu with iack := false, opcode := n.cpu.ibyte } }.execute X := by
  simp only [iackT4H2, h, iackMode0]

theorem iackT4H2_im1 {X : ExecTable} {n : Node} (h : n.cpu.im = .im1) (hp : n.cpu.pipe = []) :
    iackT4H2 X n =
      { n with
        cpu :=
          { n.cpu with
            iack := false, sp := n.cpu.sp - 1#16, step := .done, mc := .m2, pipe := saveAndGo intMode1Address } } := by
  simp only [iackT4H2, h, iackMode1, Node.takeException]
  rw [Node.pushAll_of_room _ _ (by simp [hp, saveAndGo])]
  simp only [Cpu.preDecSp, hp, List.nil_append]
  rfl

theorem iackT4H2_im2 {X : ExecTable} {n : Node} (h : n.cpu.im = .im2) (hp : n.cpu.pipe = []) :
    iackT4H2 X n =
      { n with
        cpu :=
          { n.cpu with
            iack := false, sp := n.cpu.sp - 1#16, wz := n.cpu.i ++ n.cpu.ibyte, step := .done, mc := .m2
            pipe := vectorThroughWz } } := by
  simp only [iackT4H2, h, iackMode2]
  rw [Node.pushAll_of_room _ _ (by simp [hp, vectorThroughWz])]
  simp only [Cpu.preDecSp, hp, List.nil_append]
  rfl

/-- Execution schedules nothing: only M1's T4_H2 schedules the increment of PC (R197, R318). -/
theorem Node.execute_clock (X : ExecTable) (n : Node) : (n.execute X).clock = n.clock := by
  unfold Node.execute
  split
  · rfl
  · simp only [Node.toM2_clock, Node.applyEntry]
    split <;> simp

theorem iackT4H2_clock (X : ExecTable) (n : Node) : (iackT4H2 X n).clock = n.clock := by
  unfold iackT4H2
  dsimp only
  split
  · exact Node.execute_clock X _
  · exact (Node.toM2_clock _).trans (Node.pushAll_clock _ _)
  · exact (Node.toM2_clock _).trans (Node.pushAll_clock _ _)

/-- Settles O40: the phases one by one, then the completion in each mode. -/
theorem acknowledgeCompletesByMode : Obligations.AcknowledgeCompletesByMode := by
  constructor
  · intro X mask n hh hm ha
    simp only [normalDecode_ack hh hm ha]
    refine ⟨iackPhase_spec X n, fun h => ?_⟩
    simp only [iackPhase, h]
  · intro n hp
    refine ⟨iackT4H2_clock _ n, fun him i hi => ?_, fun him hr => ?_, fun him => ?_, fun him => ?_⟩
    · have hx : exec0 n.cpu.ibyte = some (entryOf i) := congrArg (Option.map entryOf) hi
      rw [iackT4H2_im0 him, Node.execute_wired hx (by rw [entryOf_imm_pipe, hp])
        ((entryOf_ops_length i).trans (by decide))]
      refine ⟨rfl, ?_⟩
      simp only [entryOf_imm_halted]
    · rw [iackT4H2_im0 him, Node.execute_unwired (exec0_of_unwired hr)]
    · rw [iackT4H2_im1 him hp]
      exact ⟨rfl, rfl⟩
    · rw [iackT4H2_im2 him hp]
      exact ⟨rfl, rfl⟩

end Sys2Proof.Machine

/-!
PROOF. The signal bus (40_signal_bus.md): what later sets leave of a line's slots (R110, R114, R115), the lines at Z (R113,
R116), and the word accessors line by line (R118 to R121).
-/
namespace Sys2Proof.Machine

/-! ## One line -/

section OneLine
variable {b : Bus} {l : Line}

@[simp] theorem Bus.get_set_same (v : Level) : (b.set l v).get l = ⟨(b.get l).cur, v⟩ := by
  rw [Bus.get_set, if_pos rfl]

theorem Bus.get_set_of_ne (v : Level) {l' : Line} (h : l' ≠ l) : (b.set l v).get l' = b.get l' := by
  rw [Bus.get_set, if_neg h]

/-- Sets of other lines leave both slots of a line, however many they are, so its edges persist (R110, R117). -/
theorem Bus.get_foldl_set_of_ne {later : List (Line × Level)} (h : ∀ o ∈ later, o.1 ≠ l) :
    (later.foldl (fun b o => b.set o.1 o.2) b).get l = b.get l := by
  induction later generalizing b with
  | nil => rfl
  | cons o os ih =>
    obtain ⟨ho, hos⟩ := List.forall_mem_cons.mp h
    rw [List.foldl_cons, ih hos, Bus.get_set_of_ne _ ho.symm]

theorem Bus.posedge_iff : b.posedge l = true ↔ (b.get l).prev = .low ∧ (b.get l).cur = .high := by
  simp [Bus.posedge]

theorem Bus.negedge_iff : b.negedge l = true ↔ (b.get l).prev = .high ∧ (b.get l).cur = .low := by
  simp [Bus.negedge]

theorem Bus.activeAt_iff (v : Level) : b.activeAt l v = true ↔ (b.get l).cur = v := by
  simp [Bus.activeAt]

end OneLine

/-- Settles O17: the later sets leave the two slots that set wrote, and the three queries read those slots alone. -/
theorem setShiftsOneLineAndEdgesPersist : Obligations.SetShiftsOneLineAndEdgesPersist := by
  intro b l v later hlater b'
  have hget : b'.get l = ⟨(b.get l).cur, v⟩ := (Bus.get_foldl_set_of_ne hlater).trans (Bus.get_set_same v)
  refine ⟨hget, ?_, ?_, fun level => ?_, fun l' hl' => Bus.get_set_of_ne v hl'⟩
  · rw [Bus.posedge, hget]
  · rw [Bus.negedge, hget]
  · rw [Bus.activeAt, hget]

/-- Settles O18: an edge has one slot at Low and the other at High, so neither is at Z. -/
theorem highImpedanceHasNoEdge : Obligations.HighImpedanceHasNoEdge := by
  refine fun b l => ⟨fun hz => ?_, fun hz => ?_⟩
  · rw [← Bool.not_eq_true, ← Bool.not_eq_true, Bus.posedge_iff, Bus.negedge_iff]
    obtain hp | hc := hz
    · simp [hp]
    · simp [hc]
  · rw [← Bool.not_eq_true, ← Bool.not_eq_true, Bus.activeAt_iff, Bus.activeAt_iff]
    simp [hz]

/-! ## The words -/

/-- Bit i of the word that lines carry is 1 exactly if line i is High (R118, R119). -/
theorem WordLines.getLsbD_read {n : Nat} (g : WordLines n) (i : Fin n) :
    g.read.getLsbD i = ((g.get i).cur == .high) := by
  rw [BitVec.getLsbD_eq_getElem i.isLt]
  simp [WordLines.read, wordOf, WordLines.get]

section Frame
variable (b : Bus) {l : Line}

/-- Whatever an accessor of the address lines makes of them, no other line changes (R120, R121). -/
theorem Bus.get_with_addr {g : WordLines 16} (h : ∀ i, l ≠ .a i) : ({ b with addr := g } : Bus).get l = b.get l := by
  cases l with
  | a i => exact absurd rfl (h i)
  | _ => rfl

/-- Whatever an accessor of the data lines makes of them, no other line changes (R120, R121). -/
theorem Bus.get_with_data {g : WordLines 8} (h : ∀ i, l ≠ .d i) : ({ b with data := g } : Bus).get l = b.get l := by
  cases l with
  | d i => exact absurd rfl (h i)
  | _ => rfl

end Frame

/-- Settles O19: in a group, the rules of its lines; outside it, the frame. -/
theorem wordAccessorsReadWriteRelease : Obligations.WordAccessorsReadWriteRelease := by
  intro b w x
  exact ⟨b.addr.getLsbD_read, b.data.getLsbD_read, b.addrRead_addrWrite w, b.dataRead_dataWrite x,
    b.addrRead_addrRelease, b.dataRead_dataRelease,
    fun i => ⟨b.addr.get_write w i, b.addr.get_release i⟩,
    fun i => ⟨b.data.get_write x i, b.data.get_release i⟩,
    fun _ hl => ⟨b.get_with_addr hl, b.get_with_addr hl⟩,
    fun _ hl => ⟨b.get_with_data hl, b.get_with_data hl⟩⟩

end Sys2Proof.Machine

/-!
PROOF. The clock generator (41_clock_generator.md): what N ticks fire and leave (R131, R136, R138), from where schedule
counts (R132), and when an event that an action schedules fires (R137, R362).
-/
namespace Sys2Proof.Machine

/-! ## What n calls of tick() do, the actions left out -/

section Ticks
variable {c : Clock} {e : Event}

@[simp] theorem Clock.advance_counter : c.advance.counter = c.counter + 1 := rfl
@[simp] theorem Clock.advance_events :
    c.advance.events = c.events.filter fun e => !decide (e.expiry ≤ c.counter + 1) := rfl

theorem Clock.mem_due : e ∈ c.due ↔ e ∈ c.events ∧ e.expiry ≤ c.counter + 1 := by
  simp [Clock.due]

theorem Clock.mem_advance_events : e ∈ c.advance.events ↔ e ∈ c.events ∧ c.counter + 1 < e.expiry := by
  simp

/-- Every tick() advances the counter by one (R131, R138). -/
theorem Clock.advances_counter (n : Nat) (c : Clock) : (Clock.advances n c).counter = c.counter + n := by
  induction n generalizing c with
  | zero => simp [Clock.advances]
  | succ n ih =>
    rw [Clock.advances, ih, Clock.advance_counter]
    omega

/-- The events that the first tick() leaves and the later ones leave are those that all of them leave. -/
theorem Clock.advances_events (n : Nat) (c : Clock) :
    (Clock.advances (n + 1) c).events = c.events.filter fun e => !decide (e.expiry ≤ c.counter + (n + 1)) := by
  induction n generalizing c with
  | zero => simp [Clock.advances]
  | succ n ih =>
    rw [Clock.advances, ih, Clock.advance_events, List.filter_filter]
    refine List.filter_congr fun e _ => ?_
    grind [Clock.advance_counter]

/-- Only waiting events fire. -/
theorem Clock.mem_events_of_mem_fired {n : Nat} (h : e ∈ Clock.fired n c) : e ∈ c.events := by
  induction n generalizing c with
  | zero => exact absurd h List.not_mem_nil
  | succ n ih =>
    obtain hd | hf := List.mem_append.mp h
    · exact (Clock.mem_due.mp hd).1
    · exact (Clock.mem_advance_events.mp (ih hf)).1

/-- The due events of the first tick() and those that fire later are together the events come due at the end. -/
theorem Clock.fired_perm (n : Nat) (c : Clock) :
    (Clock.fired (n + 1) c).Perm (c.events.filter fun e => decide (e.expiry ≤ c.counter + (n + 1))) := by
  induction n generalizing c with
  | zero => simp [Clock.fired, Clock.due]
  | succ n ih =>
    refine ((ih c.advance).append_left c.due).trans ?_
    -- both parts are cut out of the events come due at the end, by whether they were due at the first tick()
    refine .trans (.of_eq (congrArg₂ _ ?_ ?_))
      (List.filter_append_perm (fun e => decide (e.expiry ≤ c.counter + 1)) _)
    · rw [Clock.due, List.filter_filter]
      refine List.filter_congr fun e _ => ?_
      grind
    · rw [Clock.advance_events, List.filter_filter, List.filter_filter]
      refine List.filter_congr fun e _ => ?_
      grind [Clock.advance_counter]

/-- What fires at the first tick() is due there. What fires later was not, so that coming due at the second tick() means
expiring there, which no later event undercuts. -/
theorem Clock.fired_in_expiry_order (n : Nat) (c : Clock) :
    (Clock.fired n c).Pairwise fun e e' => e.expiry ≤ e'.expiry ∨ e.expiry ≤ c.counter + 1 := by
  induction n generalizing c with
  | zero => exact .nil
  | succ n ih =>
    have due {e e' : Event} (h : e ∈ c.due) : e.expiry ≤ e'.expiry ∨ e.expiry ≤ c.counter + 1 :=
      .inr (Clock.mem_due.mp h).2
    have later {e : Event} (h : e ∈ Clock.fired n c.advance) : c.counter + 1 < e.expiry :=
      (Clock.mem_advance_events.mp (Clock.mem_events_of_mem_fired h)).2
    refine List.pairwise_append.mpr ⟨List.pairwise_of_forall_mem_list fun _ h _ _ => due h, ?_, fun _ h _ _ => due h⟩
    refine (ih c.advance).imp_of_mem fun {e e'} he he' h => ?_
    have hlater := later he
    have hlater' := later he'
    rw [Clock.advance_counter] at h
    omega

end Ticks

/-- Settles O20, each part by its induction on the number of ticks. -/
theorem clockFiresEachDueEventOnce : Obligations.ClockFiresEachDueEventOnce :=
  fun c n => ⟨c.advances_counter (n + 1), c.advances_events n, c.fired_perm n, c.fired_in_expiry_order (n + 1)⟩

/-! ## schedule, and events that actions schedule -/

section Schedule
variable {c : Clock} (delay : Nat) (a : Action)

theorem Clock.schedule_of_nonneg (h : 0 ≤ c.counter) :
    c.schedule delay a = { c with events := c.events ++ [⟨c.counter + delay, a⟩] } := by
  rw [Clock.schedule, if_pos h]

theorem Clock.schedule_of_sentinel (h : c.counter = -1) :
    c.schedule delay a = { c with events := c.events ++ [⟨delay, a⟩] } := by
  rw [Clock.schedule, if_neg (by omega), Int.zero_add]

end Schedule

/-- Settles O21: the two cases of the counter. -/
theorem scheduleCountsFromTheCounter : Obligations.ScheduleCountsFromTheCounter :=
  fun _ delay a => ⟨Clock.schedule_of_nonneg delay a, Clock.schedule_of_sentinel delay a⟩

/-- A tick() at which the only waiting event is due performs its action with no event waiting (R131). -/
theorem Node.clockTick_of_one_due {n : Node} {e : Event} (hes : n.clock.events = [e])
    (he : e.expiry ≤ n.clock.counter + 1) :
    n.clockTick = e.action.perform { n with clock := ⟨n.clock.counter + 1, []⟩ } := by
  simp [Node.clockTick, Clock.due, Clock.advance, hes, he]

/-- Settles O22: the new event expires at the counter of the tick() that schedules it, or later, and is left waiting. -/
theorem eventFromAnActionFiresLater : Obligations.EventFromAnActionFiresLater := by
  intro n e delay l v hc he hes
  have tick : n.clockTick =
      { n with clock := ⟨n.clock.counter + 1, [⟨n.clock.counter + 1 + delay, .external (.setLine l v)⟩]⟩ } := by
    rw [Node.clockTick_of_one_due hes he]
    simp only [Action.perform]
    rw [Clock.schedule_of_nonneg _ _ (show 0 ≤ n.clock.counter + 1 by omega), List.nil_append]
  refine ⟨tick, fun hd => ?_⟩
  rw [tick, Node.clockTick_of_one_due rfl (by simp [hd])]
  simp [Action.perform, Node.setLine, Int.add_assoc]

end Sys2Proof.Machine

/-!
PROOF. The board step by run_state (R160 to R162), the request it drains (R164), and the requests themselves (R165 to
R168).
-/
namespace Sys2Proof.Machine

/-! ## The step -/

section BoardStep
variable (X : ExecTable) {s : State} (hm : s.refused = none)
include hm

theorem boardStep_of_quit (h : s.runState = .quit) : boardStep X s = .next s := by
  simp only [boardStep, hm, h]

theorem boardStep_of_stop (h : s.runState = .stop) : boardStep X s = .next s.takeArrivals.drainRequest := by
  simp only [boardStep, hm, h]

theorem boardStep_of_run (h : s.runState = .run) : boardStep X s = .next (s.takeArrivals.runStep X) := by
  simp only [boardStep, hm, h]

end BoardStep

/-- A step that is answered starts from a board without the mark (R34, R181). -/
theorem refused_of_boardStep {X : ExecTable} {s t : State} (h : boardStep X s = .next t) : s.refused = none := by
  cases hm : s.refused with
  | none => rfl
  | some r => rw [boardStep_of_refused X hm] at h; cases h

/-! ## Draining -/

theorem State.drainRequest_of_nil {s : State} (h : s.queue = []) : s.drainRequest = s := by
  simp only [State.drainRequest, h]

theorem State.drainRequest_of_cons {s : State} {r : Request} {rest : List Request} (h : s.queue = r :: rest) :
    s.drainRequest = r.handle { s with queue := rest } := by
  simp only [State.drainRequest, h]

/-- Draining takes the request at the front, whatever it is, and no other (R164). -/
theorem State.drainRequest_requests (s : State) :
    s.drainRequest.queue = s.queue.tail ∧ s.drainRequest.arrivals = s.arrivals := by
  cases hq : s.queue with
  | nil => rw [State.drainRequest_of_nil hq]; exact ⟨hq, rfl⟩
  | cons r rest => rw [State.drainRequest_of_cons hq]; exact r.handle_requests _

/-- Settles O28: in Run and in Stop a step ends with the drain, and nothing before it but the arrivals touches the
requests. -/
theorem requestsAreDrainedInOrder : Obligations.RequestsAreDrainedInOrder := by
  intro X s t hq h
  have hm := refused_of_boardStep h
  -- the board that is drained
  obtain ⟨v, rfl, hvq, hva⟩ : ∃ v : State, v.drainRequest = t ∧ v.queue = s.takeArrivals.queue ∧
      v.arrivals = s.takeArrivals.arrivals := by
    cases hr : s.runState with
    | quit => exact absurd hr hq
    | stop =>
      rw [boardStep_of_stop X hm hr] at h
      exact ⟨_, Host.Outcome.next.inj h, rfl, rfl⟩
    | run =>
      rw [boardStep_of_run X hm hr] at h
      exact ⟨_, Host.Outcome.next.inj h, rfl, rfl⟩
  obtain ⟨hdq, hda⟩ := v.drainRequest_requests
  rw [hdq, hda, hvq, hva, State.takeArrivals_eq]
  exact ⟨rfl, rfl⟩

/-- Settles O27: each run_state has its own equation of the step, and the drain one equation for each queue. -/
theorem stopDrainsAndQuitIsTerminal : Obligations.StopDrainsAndQuitIsTerminal := by
  intro X s hm s₀ clocked ticked served u drains
  have drained : ∀ v : State, boardStep X s = .next v.drainRequest → drains v := fun v hv => by
    have head : ∀ r rest, v.queue = r :: rest → boardStep X s = .next (r.handle { v with queue := rest }) :=
      fun r rest hq => by rw [hv, State.drainRequest_of_cons hq]
    exact ⟨fun hq => by rw [hv, State.drainRequest_of_nil hq], head, head .run, head .stop, head .quit⟩
  have hs₀ : s.takeArrivals = s₀ := s.takeArrivals_eq
  refine ⟨boardStep_of_quit X hm, fun hr => drained s₀ ?_, fun hr => drained u ?_⟩
  · rw [boardStep_of_stop X hm hr, hs₀]
  · have hticked : ticked = dispatchAll X s.params.rIncMask s.devices clocked := by
      simp only [ticked, dispatchAll_eq_foldl, List.nil_append]
    have hu : ((s₀.clockTick.dispatchDevices X).serviceTimers) = u := by
      simp only [u, served, hticked]
      rfl
    rw [boardStep_of_run X hm hr, hs₀, State.runStep, hu]

/-! ## The Reset and NonMaskableInterrupt requests -/

/-- With steps to hold: Low, and one timer of that line, after those of the other (R165, R166). -/
theorem State.pulse_of_pos (s : State) (l : TimerLine) {hold : Nat} (h : 0 < hold) :
    s.pulse l hold =
      { s with bus := s.bus.set l.line .low, timers := s.timers.filter (fun e => e.1 != l) ++ [(l, hold)] } :=
  if_neg (Nat.pos_iff_ne_zero.mp h)

/-- With none: Low and at once High, and no timer of that line (R165, R166). -/
theorem State.pulse_zero (s : State) (l : TimerLine) :
    s.pulse l 0 =
      { s with bus := (s.bus.set l.line .low).set l.line .high, timers := s.timers.filter fun e => e.1 != l } :=
  rfl

/-- Settles O29, from what the pulse of RESET does to the board that was reset. -/
theorem resetRequestResetsAndPullsReset : Obligations.ResetRequestResetsAndPullsReset := by
  intro s t
  obtain ⟨r, hr⟩ : ∃ r : State, r = { { s with clock := Clock.reset }.resetDevices with runState := .run } := ⟨_, rfl⟩
  have ht : t = r.pulse .reset s.params.resetHold := by rw [hr]; rfl
  have hbus : r.bus = s.bus := by rw [hr]; rfl
  have htimers : r.timers = s.timers := by rw [hr]; rfl
  refine ⟨?_, ?_, fun hc => ?_, ?_, fun hp => ?_, fun hz => ?_, ?_, ?_⟩
  · rw [ht, State.pulse_clock, hr]; rfl
  · rw [ht, State.pulse_devices, hr]; rfl
  · rw [ht, State.pulse_cpu, hr]; exact if_pos hc
  · rw [ht, State.pulse_runState, hr]
  · rw [ht, State.pulse_of_pos r .reset hp, hbus, htimers]; exact ⟨rfl, rfl⟩
  · rw [ht, hz, State.pulse_zero, hbus, htimers]; exact ⟨rfl, rfl⟩
  · rw [ht, State.pulse_queue, hr]; rfl
  · rw [ht, State.pulse_refused, hr]; rfl

/-- Settles O30, from what the pulse of NMI does. -/
theorem nmiRequestPullsNmi : Obligations.NmiRequestPullsNmi := by
  intro s t
  have ht : t = { s.pulse .nmi s.params.nmiHold with runState := .run } := rfl
  refine ⟨s.pulse_clock .nmi _, s.pulse_devices .nmi _, s.pulse_cpu .nmi _, rfl, fun hp => ?_, fun hz => ?_⟩
  · rw [ht, State.pulse_of_pos s .nmi hp]; exact ⟨rfl, rfl⟩
  · rw [ht, hz, State.pulse_zero]; exact ⟨rfl, rfl⟩

end Sys2Proof.Machine

/-!
PROOF. The Timer Manager (R169): what one service does to the list and to the lines, and a timer from its start to its
end.
-/
namespace Sys2Proof.Machine

/-- The entries with steps left stay, one step shorter (R169). -/
theorem serviceTimers_fst (ts : List (TimerLine × Nat)) (b : Bus) :
    (serviceTimers ts b).1 = (ts.filter fun e => decide (1 < e.2)).map fun e => (e.1, e.2 - 1) := by
  induction ts generalizing b with
  | nil => rfl
  | cons e ts ih =>
    obtain ⟨l, k⟩ := e
    unfold serviceTimers
    split_ifs with hk
    · rw [ih, List.filter_cons_of_neg (by simpa using hk)]
    · rw [List.filter_cons_of_pos (by simpa using hk), List.map_cons, ih]

/-- The lines of the entries at their last step are raised, in the order of the list (R169). -/
theorem serviceTimers_snd (ts : List (TimerLine × Nat)) (b : Bus) :
    (serviceTimers ts b).2 = (ts.filter fun e => decide (e.2 ≤ 1)).foldl (fun b e => b.set e.1.line .high) b := by
  induction ts generalizing b with
  | nil => rfl
  | cons e ts ih =>
    obtain ⟨l, k⟩ := e
    unfold serviceTimers
    split_ifs with hk
    · rw [ih, List.filter_cons_of_pos (by simpa using hk), List.foldl_cons]
    · rw [List.filter_cons_of_neg (by simpa using hk), ih]

section OneTimer
variable (l : TimerLine) (b : Bus)

/-- A timer of n + 1 steps holds its line through n services. -/
theorem timerServices_of_lt (j n : Nat) : timerServices j ([(l, n + 1 + j)], b) = ([(l, n + 1)], b) := by
  induction j with
  | zero => rfl
  | succ j ih =>
    have hs : serviceTimers [(l, n + 1 + (j + 1))] b = ([(l, n + 1 + j)], b) := if_neg (by omega)
    rw [timerServices, hs, ih]

/-- The service after those raises the line, and the timer leaves. -/
theorem timerServices_succ (n : Nat) : timerServices (n + 1) ([(l, n + 1)], b) = ([], b.set l.line .high) := by
  induction n with
  | zero => rfl
  | succ n ih =>
    have hs : serviceTimers [(l, n + 1 + 1)] b = ([(l, n + 1)], b) := if_neg (by omega)
    rw [timerServices, hs, ih]

end OneTimer

/-- Settles O31: one service by induction on the list, n services by induction on n. -/
theorem timerReleasesAfterItsSteps : Obligations.TimerReleasesAfterItsSteps := by
  refine ⟨fun ts b => ⟨serviceTimers_fst ts b, serviceTimers_snd ts b⟩, fun l n b hn => ⟨fun j hj => ?_, ?_⟩⟩
  · obtain ⟨k, rfl⟩ : ∃ k, n = k + 1 + j := ⟨n - 1 - j, by omega⟩
    rw [timerServices_of_lt, Nat.add_sub_cancel]
  · obtain ⟨k, rfl⟩ : ∃ k, n = k + 1 := ⟨n - 1, by omega⟩
    exact timerServices_succ l b k

end Sys2Proof.Machine

/-!
PROOF. The divider gate (R153, R154), counted by the entries of an external device's script (log 8).
-/
namespace Sys2Proof.Machine

/-- An external device loses one entry of its script a tick, and has none to lose when it is used up (log 8). -/
theorem Device.tick_external (X : ExecTable) (mask : Byte) (n : Node) {d : Device} {ty : ExternalType}
    {script : List (List LineOp)} (h : d.kind = .external ty script) :
    (d.tick X mask n).1 = { d with kind := .external ty script.tail } := by
  obtain ⟨name, frequency, divider, last, kind⟩ := d
  subst h
  cases script <;> rfl

theorem dividedClock_natCast (n k : Nat) : dividedClock n k = (n / 2 ^ k : Nat) := by
  simp [dividedClock]

/-- The gate at the counter n: closed if the divided counter is the last value, else a tick that keeps it (R153). -/
theorem Device.dispatch_external_divided (X : ExecTable) (mask : Byte) (node : Node) {d : Device} {ty : ExternalType}
    {script : List (List LineOp)} {k : Nat} (hd : d.kind = .external ty script) (h : d.divider = some k) (n : Nat) :
    (d.dispatch X mask { node with clock := { node.clock with counter := n } }).1 =
      if d.last = some ((n / 2 ^ k : Nat) : Int) then d
      else { d with last := some ((n / 2 ^ k : Nat) : Int), kind := .external ty script.tail } := by
  simp only [Device.dispatch, h, dividedClock_natCast]
  split_ifs
  · rfl
  · exact Device.tick_external X mask _ hd

section Gate
variable (X : ExecTable) (mask : Byte) (node : Node) (d : Device) {ty : ExternalType} {script : List (List LineOp)}
  (hd : d.kind = .external ty script)
include hd

/-- Without a divider every counter ticks the device (R153). -/
theorem Device.dispatchedUpTo_of_no_divider (h : d.divider = none) (n : Nat) :
    d.dispatchedUpTo X mask node n = { d with kind := .external ty (script.drop n) } := by
  induction n with
  | zero => rw [List.drop_zero, ← hd]; rfl
  | succ n ih =>
    simp only [Device.dispatchedUpTo, ih, Device.dispatch, h]
    rw [Device.tick_external X mask _ rfl, List.tail_drop]

/-- With divider k the last value kept is the divided counter, and one more than that many ticks are done (R153). -/
theorem Device.dispatchedUpTo_of_divider {k : Nat} (h : d.divider = some k) (hl : d.last = none) (n : Nat) :
    d.dispatchedUpTo X mask node (n + 1) =
      { d with last := some ((n / 2 ^ k : Nat) : Int), kind := .external ty (script.drop (n / 2 ^ k + 1)) } := by
  induction n with
  | zero =>
    have hgate : ¬ d.last = some ((0 / 2 ^ k : Nat) : Int) := by simp [hl]
    show (d.dispatch X mask { node with clock := { node.clock with counter := (0 : Nat) } }).1 = _
    rw [Device.dispatch_external_divided X mask node hd h, if_neg hgate]
    simp
  | succ n ih =>
    rw [Device.dispatchedUpTo, ih]
    refine (Device.dispatch_external_divided X mask node (ty := ty) (script := script.drop (n / 2 ^ k + 1)) (k := k)
      (by rfl) (by exact h) (n + 1)).trans ?_
    rw [Nat.succ_div]
    -- the divided counter goes up exactly at the multiples of 2^k
    by_cases hdvd : 2 ^ k ∣ n + 1
    · rw [if_pos hdvd, if_neg (by simp), List.tail_drop]
    · rw [if_neg hdvd, Nat.add_zero]
      exact if_pos rfl

end Gate

/-- Settles O25, from the record after n + 1 dispatches. -/
theorem dividerGateTicksAtMultiples : Obligations.DividerGateTicksAtMultiples :=
  fun X mask node _ n _ _ => ⟨fun _ => by rw [Device.dispatchedUpTo_of_divider X mask node _ rfl rfl rfl],
    by rw [Device.dispatchedUpTo_of_no_divider X mask node _ rfl rfl]⟩

end Sys2Proof.Machine

/-!
PROOF. Registration (R152): where insertion by type puts a record, seen through the records of one type, and what a
list of registrations adds.
-/
namespace Sys2Proof.Machine

/-- Among the records of its own type a new one comes last, and the records of another type are as they were: the sort
is stable (R152). -/
theorem filter_type_insertByType (d : Device) {ds : List Device} (hs : SortedByType ds) (ty : DeviceType) :
    (insertByType d ds).filter (fun x => x.type == ty) =
      ds.filter (fun x => x.type == ty) ++ [d].filter fun x => x.type == ty := by
  induction ds with
  | nil => rfl
  | cons x t ih =>
    obtain ⟨hx, ht⟩ := List.pairwise_cons.mp hs
    unfold insertByType
    split_ifs with hxd
    · simp only [List.filter_cons (x := x), ih ht]
      split_ifs <;> rfl
    -- every record from x on is of a later type than d
    by_cases hty : d.type = ty
    · have hnone : (x :: t).filter (fun x => x.type == ty) = [] := by
        refine List.filter_eq_nil_iff.mpr fun y hy hyt => ?_
        have hrank : y.type.rank = d.type.rank := by rw [beq_iff_eq.mp hyt, hty]
        obtain rfl | hy := List.mem_cons.mp hy
        · omega
        · have := hx y hy
          omega
      rw [List.filter_cons (x := d), List.filter_cons (x := d), hnone]
      rfl
    · simp [List.filter_cons (x := d), hty]

/-- A device whose name is on the board is left out (R152). -/
theorem registerDevice_of_duplicate {ds : List Device} {d : Device} (h : d.name ∈ ds.map Device.name) :
    registerDevice ds d = .ok ds :=
  if_pos (by simpa using h)

/-- Any other that is not refused is inserted as its construction leaves it (R43, R152). -/
theorem registerDevice_of_new {ds ds' : List Device} {d : Device} (hn : d.name ∉ ds.map Device.name)
    (h : registerDevice ds d = .ok ds') : ds' = insertByType d.fresh ds := by
  have hany : (ds.any fun x => x.name == d.name) = false := by simpa using hn
  unfold registerDevice at h
  rw [if_neg (by simp [hany])] at h
  cases hk : d.kind <;> simp only [hk] at h
  case cpu =>
    split_ifs at h
    exact (Except.ok.inj h).symm
  case refMem m =>
    split_ifs at h
    exact (Except.ok.inj h).symm
  case external ty script => exact (Except.ok.inj h).symm

/-- ds' is the board ds after the records of `more` were given to it (R152). -/
structure Registers (ds more ds' : List Device) : Prop where
  sorted : SortedByType ds → SortedByType ds'
  nodup : (ds.map Device.name).Nodup → (ds'.map Device.name).Nodup
  kept : ∀ n ∈ ds.map Device.name, n ∈ ds'.map Device.name
  given : ∀ d ∈ more, d.name ∈ ds'.map Device.name
  stable : SortedByType ds → ∃ added : List Device, added.Sublist (more.map Device.fresh) ∧
    ∀ ty, ds'.filter (fun d => d.type == ty) =
      ds.filter (fun d => d.type == ty) ++ added.filter fun d => d.type == ty

theorem Registers.nil (ds : List Device) : Registers ds [] ds :=
  ⟨id, id, fun _ => id, nofun, fun _ => ⟨[], .slnil, by simp⟩⟩

theorem Registers.append {ds ds₁ ds₂ more more' : List Device} (h : Registers ds more ds₁)
    (h' : Registers ds₁ more' ds₂) : Registers ds (more ++ more') ds₂ where
  sorted := h'.sorted ∘ h.sorted
  nodup := h'.nodup ∘ h.nodup
  kept n hn := h'.kept n (h.kept n hn)
  given d hd := (List.mem_append.mp hd).elim (fun hd => h'.kept _ (h.given d hd)) (h'.given d)
  stable hs := by
    obtain ⟨added, hsub, hf⟩ := h.stable hs
    obtain ⟨added', hsub', hf'⟩ := h'.stable (h.sorted hs)
    exact ⟨added ++ added', List.map_append ▸ hsub.append hsub', fun ty => by
      rw [hf', hf, List.filter_append, List.append_assoc]⟩

theorem registers_registerDevice {ds ds' : List Device} {d : Device} (h : registerDevice ds d = .ok ds') :
    Registers ds [d] ds' := by
  by_cases hn : d.name ∈ ds.map Device.name
  · obtain rfl : ds = ds' := Except.ok.inj ((registerDevice_of_duplicate hn).symm.trans h)
    exact ⟨id, id, fun _ => id, by simpa using hn, fun _ => ⟨[], List.nil_sublist _, by simp⟩⟩
  · have hnames : (ds'.map Device.name).Perm (d.name :: ds.map Device.name) := by
      rw [registerDevice_of_new hn h]
      exact (insertByType_perm d.fresh ds).map Device.name
    exact
      { sorted := fun hs => registerDevice_of_new hn h ▸ sortedByType_insertByType hs
        nodup := fun hd => hnames.nodup_iff.mpr (List.nodup_cons.mpr ⟨hn, hd⟩)
        kept := fun n hm => hnames.mem_iff.mpr (List.mem_cons_of_mem _ hm)
        given := fun x hx => by rw [List.mem_singleton.mp hx, hnames.mem_iff]; exact List.mem_cons_self
        stable := fun hs => ⟨[d.fresh], .refl _, registerDevice_of_new hn h ▸ filter_type_insertByType d.fresh hs⟩ }

theorem registers_registerDevices {ds ds' : List Device} (more : List Device)
    (h : registerDevices ds more = .ok ds') : Registers ds more ds' := by
  induction more generalizing ds with
  | nil =>
    obtain rfl : ds = ds' := Except.ok.inj h
    exact .nil ds
  | cons d more ih =>
    unfold registerDevices at h
    split at h
    · next h₁ => exact (registers_registerDevice h₁).append (ih h)
    · cases h

/-- Settles O26: one registration keeps R152, and registrations in a row do. -/
theorem registrationSortsByType : Obligations.RegistrationSortsByType := by
  intro ds more ds' h hs hn
  have hr := registers_registerDevices more h
  have hs' : SortedByType ds := List.pairwise_map.mp hs
  exact ⟨List.pairwise_map.mpr (hr.sorted hs'), hr.nodup hn, hr.given, hr.stable hs'⟩

end Sys2Proof.Machine

/-!
PROOF. A quiescent board (R173): the CPU's tick and the memories' ticks change nothing, so a board step counts and sets
last values.
-/
namespace Sys2Proof.Machine

/-- A halted CPU whose tick finds nothing to sample, to normalise, to service or to count back to 0. -/
structure Cpu.Asleep (c : Cpu) : Prop where
  halted : c.halted = true
  started : c.step ≠ .done
  pending : c.nmiPending = false
  sampled : c.nmiSampled = false
  owns : c.busGranted = false
  reset : c.resetStep = 0

/-- No line of a request is active, and neither strobe of a memory. -/
structure Bus.Silent (b : Bus) : Prop where
  reset : b.active .reset = false
  busrq : b.active .busrq = false
  nmi : b.active .nmi = false
  int : b.active .int = false
  rd : b.active .rd = false
  wr : b.active .wr = false

/-- With NMI inactive, before and now, sampling it changes no latch (R310). -/
theorem Cpu.sampleNmi_of_inactive {c : Cpu} {b : Bus} (hs : c.nmiSampled = false) (h : b.active .nmi = false) :
    c.sampleNmi b = c := by
  simp only [Cpu.sampleNmi, h, Bool.false_and, Bool.or_false]
  rw [← hs]

/-- The tick of a halted CPU with no request is idle, whatever the table (R181, R186, R292). -/
theorem cpuTick_asleep (X : ExecTable) (mask : Byte) {n : Node} (hc : n.cpu.Asleep) (hb : n.bus.Silent) :
    cpuTick X mask n = n := by
  rw [cpuTick, Cpu.sampleNmi_of_inactive hc.sampled hb.nmi, Cpu.normalise_of_ne_done _ hc.started]
  unfold prioritise
  dsimp only
  rw [if_neg (by simp [hb.reset]), if_neg (by simp [hc.owns, hb.busrq]), if_neg (by simp [hc.pending]),
    if_neg (by simp [hb.int]), normalDecode, if_pos hc.halted, ← hc.reset]

/-- The CPU, or a reference memory that does not drive the data lines. -/
def Device.Still (d : Device) : Prop := d.kind = .cpu ∨ ∃ m, d.kind = .refMem m ∧ m.driving = false

section Dispatch
variable (X : ExecTable) (mask : Byte) {n : Node} (hc : n.cpu.Asleep) (hb : n.bus.Silent)
include hc hb

theorem Device.tick_still {d : Device} (h : d.Still) : d.tick X mask n = (d, n) := by
  obtain ⟨name, frequency, divider, last, kind⟩ := d
  obtain rfl | ⟨m, rfl, hd⟩ := h
  · simp only [Device.tick, cpuTick_asleep X mask hc hb]
  · simp only [Device.tick, RefMem.tick_idle hb.rd hb.wr hd]

/-- Dispatch of a still device may set its last value and does nothing else (R153). -/
theorem Device.dispatch_still {d : Device} (h : d.Still) :
    (d.dispatch X mask n).2 = n ∧ { (d.dispatch X mask n).1 with last := none } = { d with last := none } := by
  unfold Device.dispatch
  split
  · rw [Device.tick_still X mask hc hb h]
    exact ⟨rfl, rfl⟩
  · split_ifs
    · exact ⟨rfl, rfl⟩
    · rw [Device.tick_still X mask hc hb (by exact h)]
      exact ⟨rfl, rfl⟩

theorem dispatchAll_still {ds : List Device} (h : ∀ d ∈ ds, d.Still) :
    (dispatchAll X mask ds n).2 = n ∧
      (dispatchAll X mask ds n).1.map (fun d => { d with last := none }) = ds.map fun d => { d with last := none } := by
  induction ds with
  | nil => exact ⟨rfl, rfl⟩
  | cons d ds ih =>
    obtain ⟨hd, hds⟩ := List.forall_mem_cons.mp h
    obtain ⟨hn, hl⟩ := Device.dispatch_still X mask hc hb hd
    obtain ⟨hn', hl'⟩ := ih hds
    simp only [dispatchAll, hn, hn', List.map_cons, hl, hl', true_and]

end Dispatch

/-- Settles O60: the clock has no event to fire, no device does anything, no timer runs and no request waits. -/
theorem quiescentBoardStaysAsItIs : Obligations.QuiescentBoardStaysAsItIs := by
  intro X s hq hm _ hstep hpend hsamp howns hreset hrd hwr hdev
  have hc : s.cpu.Asleep := ⟨hq.halted, hstep, hpend, hsamp, howns, hreset⟩
  have hb : s.bus.Silent := ⟨hq.reset, hq.busrq, hq.nmi, hq.int, hrd, hwr⟩
  have htake : s.takeArrivals = s := by rw [State.takeArrivals, hq.arrivals]
  have htick : s.toNode.clockTick = { s.toNode with clock := ⟨s.clock.counter + 1, []⟩ } :=
    Node.clockTick_of_no_events hq.events
  obtain ⟨hnode, hlast⟩ := dispatchAll_still X s.params.rIncMask (n := s.toNode.clockTick) (by rwa [htick])
    (by rwa [htick]) hdev
  have hrun : s.runStep X =
      { s with
        clock := ⟨s.clock.counter + 1, []⟩
        devices := (dispatchAll X s.params.rIncMask s.devices s.toNode.clockTick).1 } := by
    rw [State.runStep, State.drainRequest_of_nil (by exact hq.queue)]
    simp only [State.serviceTimers, State.dispatchDevices, State.clockTick, hq.timers, serviceTimers, hnode]
    rw [htick, ← hq.timers]
  refine ⟨_, by rw [boardStep_of_run X hm hq.running, htake, hrun], ?_, rfl, hlast⟩
  exact { hq with events := rfl }

end Sys2Proof.Machine

/-!
PROOF. A step is a run of board steps under EXEC0 (log 1, R160, R181). A meaning runs under the constant table of its
entry; from the phase that executes the opcode to the instruction's end the CPU looks up no other opcode, so EXEC0
answers the same.
-/
namespace Sys2Proof.Machine

/-! ## Runs -/

section Runs
variable {X Y : ExecTable} {s t u : State} {j k : Nat}

theorem runBoard_trans (h : runBoard X j s = .next t) (h' : runBoard X k t = .next u) :
    runBoard X (j + k) s = .next u := by
  induction j generalizing s with
  | zero =>
    obtain rfl : s = t := Host.Outcome.next.inj h
    rwa [Nat.zero_add]
  | succ j ih =>
    rw [Nat.succ_add]
    unfold runBoard at h ⊢
    split at h
    · exact ih h
    · cases h
    · cases h

/-- A run up to a condition is a run of board steps of another table that answers the same while P holds, and P holds
until the condition does. -/
theorem runBoard_of_advance {P : State → Prop} {stop : State → Bool}
    (hP : ∀ s t, P s → boardStep X s = .next t → boardStep Y s = .next t ∧ (stop t = false → P t))
    (h : advance X stop k s = .next t) (hs : P s) : ∃ j, j ≤ k ∧ runBoard Y j s = .next t := by
  induction k generalizing s with
  | zero => exact ⟨0, Nat.le_refl 0, h⟩
  | succ k ih =>
    unfold advance at h
    split at h
    case h_2 | h_3 => cases h
    next s' hb =>
    obtain ⟨hy, hgo⟩ := hP s s' hs hb
    split at h
    · cases h
    split_ifs at h with hstop
    · exact ⟨1, by omega, by simp only [runBoard, hy, h]⟩
    · obtain ⟨j, hj, hrun⟩ := ih h (hgo (Bool.eq_false_of_not_eq_true hstop))
      exact ⟨j + 1, by omega, by simp only [runBoard, hy, hrun]⟩

/-- The same without a change of table. -/
theorem runBoard_of_advance_same {stop : State → Bool} (h : advance X stop k s = .next t) :
    ∃ j, j ≤ k ∧ runBoard X j s = .next t :=
  runBoard_of_advance (P := fun _ => True) (fun _ _ _ hb => ⟨hb, fun _ => trivial⟩) h trivial

end Runs

/-! ## The entry of the decoded instruction -/

/-- The operand bytes do not matter to the entry (R93, R94). -/
theorem entryOf_build : ∀ r ∈ opcodeMap, ∀ op nn nn', entryOf (r.build op nn) = entryOf (r.build op nn') := by
  intro r hr op nn nn'
  fin_cases hr <;> rfl

/-- EXEC0 has, for an opcode, the entry of whatever instruction decodes from it (R93). -/
theorem exec0_of_decodeInstr {op : Byte} {rest : List Byte} {i : Instr} (h : decodeInstr (op :: rest) = some i) :
    exec0 op = some (entryOf i) := by
  unfold decodeInstr at h
  split at h
  case h_2 => cases h
  next i' tail hd =>
  obtain rfl : i' = i := Option.some.inj h
  obtain ⟨op', r, os, nn, hr, -, hb, rfl⟩ := decode_eq_ok_iff.mp hd
  obtain ⟨rfl, -⟩ := List.cons.inj hb
  simp only [exec0, decodeInstr_padded, hr, Option.map_some]
  rw [entryOf_build r (rowOf_eq_some_iff.mp hr).1 op 0#16 nn]

/-! ## The CPU between the dispatch and the instruction's end -/

/-- The CPU executes the opcode: its M1 is at T4_H2 with that opcode, or over; no acknowledge cycle runs. -/
structure Cpu.Executing (op : Byte) (c : Cpu) : Prop where
  noAck : c.iack = false
  phase : c.mc = .m1 → c.step = .t4h2
  opcode : c.mc = .m1 → c.opcode = op

/-- A cursor at a micro-op's cycle leaves it only to the next one's (R208). -/
theorem MCycle.next_ne_m1 (k : MCycle) : k.next ≠ .m1 := by cases k <;> nofun

section Cpu
variable {op : Byte} {c : Cpu}

/-- In M2 to M6 whatever the latched opcode is. -/
theorem Cpu.Executing.later (h : c.mc ≠ .m1) (ha : c.iack = false) : c.Executing op :=
  ⟨ha, fun h' => absurd h' h, fun h' => absurd h' h⟩

/-- Such a CPU is at no boundary: no interrupt is entered (R184). -/
theorem Cpu.Executing.not_atBoundary (h : c.Executing op) : c.atBoundary = false := by
  by_cases hm : c.mc = .m1
  · simp [Cpu.atBoundary, h.phase hm]
  · simp [Cpu.atBoundary, hm]

/-- Unless the instruction is at its end, Normalise only starts the next cycle (R183). -/
theorem Cpu.Executing.normalise (h : c.Executing op) (hr : c.atRest = false) : c.normalise.Executing op := by
  by_cases hd : c.step = .done
  · have hm : c.mc ≠ .m1 := fun hm => by simp [h.phase hm] at hd
    have hp : c.pipe ≠ [] := fun hp => by simp [Cpu.atRest, hp, h.noAck, hd] at hr
    rw [Cpu.normalise_of_pipe _ hd hp]
    exact .later hm h.noAck
  · rwa [Cpu.normalise_of_ne_done _ hd]

end Cpu

section Node
variable (n : Node)

@[simp] theorem Node.push_iack (u : MicroOp) : (n.push u).cpu.iack = n.cpu.iack := by unfold Node.push; split <;> rfl

@[simp] theorem Node.pushAll_iack (us : List MicroOp) : (n.pushAll us).cpu.iack = n.cpu.iack := by
  induction us generalizing n with
  | nil => rfl
  | cons u us ih => exact (ih (n.push u)).trans (Node.push_iack n u)

@[simp] theorem Node.applyEntry_iack (e : Entry) : (n.applyEntry e).cpu.iack = (e.imm n.cpu).iack := by
  unfold Node.applyEntry
  dsimp only
  split <;> simp

@[simp] theorem Node.waitPhase_iack : n.waitPhase.cpu.iack = n.cpu.iack := by unfold Node.waitPhase; split <;> rfl
@[simp] theorem Node.waitPhase_mc : n.waitPhase.cpu.mc = n.cpu.mc := by unfold Node.waitPhase; split <;> rfl

end Node

section Tick
variable {X : ExecTable} {op : Byte} (mask : Byte) {n : Node}

/-- Execution leaves M1, or refuses the run and leaves the CPU as it is (R197, R207). -/
theorem Node.execute_executing (h : n.cpu.Executing op) : (n.execute exec0).cpu.Executing op := by
  unfold Node.execute
  split
  · exact h
  · next e he =>
    obtain ⟨i, rfl⟩ := exec0_entry he
    refine .later nofun ?_
    show (n.applyEntry (entryOf i)).cpu.iack = false
    rw [Node.applyEntry_iack, entryOf_imm_iack, h.noAck]

/-- A phase of MR or MW keeps the cycle, or goes on to the next one's (R208, R210, R215). -/
theorem microPhase_executing (hm : n.cpu.mc ≠ .m1) (ha : n.cpu.iack = false) : (microPhase n).cpu.Executing op := by
  unfold microPhase
  split
  · exact .later hm ha
  · next asel dst post _ _ =>
    cases h : n.cpu.step <;> simp only [mrPhase, h]
    case t3h2 => exact .later (MCycle.next_ne_m1 _) (by simpa [mrT3H2] using ha)
    case t2h1 => exact .later (by simpa using hm) (by simpa using ha)
    all_goals exact .later hm ha
  · next asel src post _ _ =>
    cases h : n.cpu.step <;> simp only [mwPhase, h]
    case t3h2 => exact .later (MCycle.next_ne_m1 _) (by simpa [mwT3H2] using ha)
    case t2h1 => exact .later (by simpa using hm) (by simpa using ha)
    all_goals exact .later hm ha

theorem normalDecode_executing (h : n.cpu.Executing op) : (normalDecode exec0 mask n).cpu.Executing op := by
  unfold normalDecode
  split_ifs with hh hm ha
  · exact h
  · rw [h.noAck] at ha; cases ha
  · simp only [m1Phase, h.phase hm, m1T4H2]
    exact Node.execute_executing (by exact h)
  · exact microPhase_executing hm h.noAck

/-- The one opcode that is looked up is the executed one (R197). -/
theorem normalDecode_agrees (hX : X op = exec0 op) (h : n.cpu.Executing op) :
    normalDecode X mask n = normalDecode exec0 mask n := by
  unfold normalDecode
  split_ifs with hh hm ha
  · rfl
  · rw [h.noAck] at ha; cases ha
  · have hX' : X n.cpu.opcode = exec0 n.cpu.opcode := by rw [h.opcode hm, hX]
    simp only [m1Phase, h.phase hm, m1T4H2, Node.execute, hX']
  · rfl

/-- Step 0 of the RESET sequence puts the CPU at rest, the others leave the cursor (R303 to R306). -/
theorem resetStep_executing (h : n.cpu.Executing op) (hr : (resetStep n).cpu.atRest = false) :
    (resetStep n).cpu.Executing op := by
  by_cases h0 : n.cpu.resetStep = 0
  · rw [resetStep_of_zero h0] at hr; cases hr
  by_cases h2 : n.cpu.resetStep = 2
  · rw [resetStep_of_two h2]; exact ⟨h.noAck, h.phase, h.opcode⟩
  by_cases h4 : n.cpu.resetStep = 4
  · rw [resetStep_of_four h4]; exact ⟨h.noAck, h.phase, h.opcode⟩
  · rw [resetStep_of_other h0 h2 h4]; exact ⟨h.noAck, h.phase, h.opcode⟩

theorem busRequestStep_executing (h : n.cpu.Executing op) : (busRequestStep n).cpu.Executing op := by
  unfold busRequestStep
  split_ifs
  · exact h
  · exact ⟨h.noAck, h.phase, h.opcode⟩
  · exact ⟨h.noAck, h.phase, h.opcode⟩

theorem prioritise_executing (hX : X op = exec0 op) (h : n.cpu.Executing op) :
    prioritise X mask n = prioritise exec0 mask n ∧
      ((prioritise exec0 mask n).cpu.atRest = false → (prioritise exec0 mask n).cpu.Executing op) := by
  have h' : ({ n with cpu := { n.cpu with resetStep := 0 } } : Node).cpu.Executing op := ⟨h.noAck, h.phase, h.opcode⟩
  unfold prioritise
  dsimp only
  split_ifs with h1 h2 h3 h4
  · exact ⟨rfl, resetStep_executing h⟩
  · exact ⟨rfl, fun _ => busRequestStep_executing h'⟩
  · rw [h'.not_atBoundary, Bool.and_false] at h3; cases h3
  · rw [h'.not_atBoundary, Bool.and_false] at h4; cases h4
  · exact ⟨normalDecode_agrees mask hX h', fun _ => normalDecode_executing mask h'⟩

/-- A tick of the CPU before the instruction's end. -/
theorem cpuTick_executing (hX : X op = exec0 op) (h : n.cpu.Executing op) (hr : n.cpu.atRest = false) :
    cpuTick X mask n = cpuTick exec0 mask n ∧
      ((cpuTick exec0 mask n).cpu.atRest = false → (cpuTick exec0 mask n).cpu.Executing op) := by
  have hs : (n.cpu.sampleNmi n.bus).Executing op := ⟨h.noAck, h.phase, h.opcode⟩
  exact prioritise_executing mask hX (hs.normalise hr)

end Tick

/-! ## The devices -/

section Dispatch
variable (X : ExecTable) (mask : Byte)

/-- Any other device than the CPU looks nothing up and leaves the CPU alone (R47, R150). -/
theorem Device.tick_of_not_cpu {d : Device} (h : d.isCpu = false) (n : Node) :
    d.tick X mask n = d.tick exec0 mask n ∧ (d.tick exec0 mask n).2.cpu = n.cpu := by
  unfold Device.tick
  split
  · next hk => simp [Device.isCpu, hk] at h
  · exact ⟨rfl, rfl⟩
  · exact ⟨rfl, rfl⟩
  · exact ⟨rfl, foldl_apply_cpu _ n⟩

theorem Device.dispatch_of_not_cpu {d : Device} (h : d.isCpu = false) (n : Node) :
    d.dispatch X mask n = d.dispatch exec0 mask n ∧ (d.dispatch exec0 mask n).2.cpu = n.cpu := by
  unfold Device.dispatch
  split
  · exact Device.tick_of_not_cpu X mask h n
  · split_ifs
    · exact ⟨rfl, rfl⟩
    · exact Device.tick_of_not_cpu X mask (by exact h) n

theorem dispatchAll_of_no_cpu {ds : List Device} (h : ∀ d ∈ ds, d.isCpu = false) (n : Node) :
    dispatchAll X mask ds n = dispatchAll exec0 mask ds n ∧ (dispatchAll exec0 mask ds n).2.cpu = n.cpu := by
  induction ds generalizing n with
  | nil => exact ⟨rfl, rfl⟩
  | cons d ds ih =>
    obtain ⟨hd, hds⟩ := List.forall_mem_cons.mp h
    obtain ⟨he, hc⟩ := Device.dispatch_of_not_cpu X mask hd n
    obtain ⟨he', hc'⟩ := ih hds (d.dispatch exec0 mask n).2
    simp only [dispatchAll, he, he', hc', hc, and_self]

variable {X} {op : Byte} {n : Node} (hX : X op = exec0 op) (hn : n.cpu.Executing op) (hr : n.cpu.atRest = false)
include hX hn hr

theorem Device.dispatch_executing (d : Device) :
    d.dispatch X mask n = d.dispatch exec0 mask n ∧
      ((d.dispatch exec0 mask n).2.cpu.atRest = false → (d.dispatch exec0 mask n).2.cpu.Executing op) := by
  by_cases hc : d.isCpu = true
  · have hk : d.kind = .cpu := by cases hk : d.kind <;> simp [Device.isCpu, hk] at hc ⊢
    obtain ⟨he, hg⟩ := cpuTick_executing mask hX hn hr
    unfold Device.dispatch
    split
    · simp only [Device.tick, hk, he, true_and]
      exact hg
    · split_ifs
      · exact ⟨rfl, fun _ => hn⟩
      · simp only [Device.tick, hk, he, true_and]
        exact hg
  · obtain ⟨he, hcpu⟩ := Device.dispatch_of_not_cpu X mask (Bool.eq_false_of_not_eq_true hc) n
    rw [hcpu]
    exact ⟨he, fun _ => hn⟩

/-- With one CPU at most there is one tick of it at most. -/
theorem dispatchAll_executing {ds : List Device} (h1 : AtMostOneCpu ds) :
    dispatchAll X mask ds n = dispatchAll exec0 mask ds n ∧
      ((dispatchAll exec0 mask ds n).2.cpu.atRest = false → (dispatchAll exec0 mask ds n).2.cpu.Executing op) := by
  induction ds generalizing n with
  | nil => exact ⟨rfl, fun _ => hn⟩
  | cons d ds ih =>
    unfold AtMostOneCpu at h1 ih
    rw [List.countP_cons] at h1
    obtain ⟨he, hg⟩ := Device.dispatch_executing mask hX hn hr d
    by_cases hc : d.isCpu = true
    · rw [if_pos hc] at h1
      have hno : ∀ x ∈ ds, x.isCpu = false := by
        simpa using List.countP_eq_zero.mp (show ds.countP Device.isCpu = 0 by omega)
      obtain ⟨he', hcpu⟩ := dispatchAll_of_no_cpu X mask hno (d.dispatch exec0 mask n).2
      simp only [dispatchAll, he, he', hcpu, true_and]
      exact hg
    · obtain ⟨-, hcpu⟩ := Device.dispatch_of_not_cpu X mask (Bool.eq_false_of_not_eq_true hc) n
      obtain ⟨he', hg'⟩ := ih (n := (d.dispatch exec0 mask n).2) (by rwa [hcpu]) (by rwa [hcpu]) (by omega)
      simp only [dispatchAll, he, he', true_and]
      exact hg'

end Dispatch

/-! ## The board -/

/-- No record becomes a CPU, and a CPU is admitted only where there is none (R156). -/
theorem atMostOneCpu_of_devicesRun {ds ds' : List Device} (h : DevicesRun ds ds') (hs : AtMostOneCpu ds) :
    AtMostOneCpu ds' := by
  induction h with
  | refl => exact hs
  | tail _ hstep ih =>
    unfold AtMostOneCpu at ih ⊢
    cases hstep with
    | carry hc =>
      have he := congrArg (List.countP id) (map_eq_of_continues hc Device.Continues.isCpu)
      simp only [List.countP_map, Function.id_comp] at he
      exact he.trans_le ih
    | @insert d ha =>
      rw [(insertByType_perm _ _).countP_eq, List.countP_cons, d.continues_fresh.isCpu]
      split_ifs with hd
      · rw [List.countP_eq_zero.mpr (by simpa using ha.cpu hd)]
      · exact ih

theorem advance_keeps_atMostOneCpu {X : ExecTable} {stop : State → Bool} {k : Nat} {s t : State}
    (h : advance X stop k s = .next t) : AtMostOneCpu s.devices → AtMostOneCpu t.devices :=
  advance_keeps (P := fun s => AtMostOneCpu s.devices)
    (fun s _ hb => atMostOneCpu_of_devicesRun (boardStep_devicesRun X s.devices s _ hb .refl)) h

/-- The board runs an instruction that is not at its end. -/
structure State.Executing (op : Byte) (s : State) : Prop where
  running : s.runState = .run
  busy : s.cpu.atRest = false
  cpu : s.cpu.Executing op
  oneCpu : AtMostOneCpu s.devices

/-- Draining a request leaves the CPU alone, or puts it at rest (R44, R165 to R168). -/
theorem State.cpu_drainRequest (s : State) : s.drainRequest.cpu.atRest = false → s.drainRequest.cpu = s.cpu := by
  intro hr
  obtain e | ⟨r, -, s', e, hc, -⟩ := s.drainRequest_cases
  · rw [e]
  · rw [e] at hr ⊢
    obtain hk | ⟨-, hz⟩ := r.handle_cpu s'
    · rw [hk, hc]
    · rw [hz] at hr; cases hr

section Board
variable {X : ExecTable} {op : Byte} (hX : X op = exec0 op) {s : State} (h : s.Executing op)
include h

/-- The arrivals and clock.tick() change no part of the CPU but PC (R38, R131). -/
theorem State.Executing.clocked : s.takeArrivals.clockTick.Executing op := by
  have hcpu : s.takeArrivals.clockTick.cpu = { s.cpu with pc := s.takeArrivals.clockTick.cpu.pc } := by
    rw [← s.takeArrivals_cpu]; exact Node.clockTick_cpu s.takeArrivals.toNode
  exact
    { running := by rw [State.clockTick_runState, State.takeArrivals_runState, h.running]
      busy := by rw [hcpu]; exact h.busy
      cpu := by rw [hcpu]; exact ⟨h.cpu.noAck, h.cpu.phase, h.cpu.opcode⟩
      oneCpu := by rw [State.clockTick_devices, State.takeArrivals_devices]; exact h.oneCpu }

include hX

theorem State.dispatchDevices_executing :
    s.dispatchDevices X = s.dispatchDevices exec0 ∧
      ((s.dispatchDevices exec0).cpu.atRest = false → (s.dispatchDevices exec0).cpu.Executing op) := by
  obtain ⟨he, hg⟩ := dispatchAll_executing s.params.rIncMask hX h.cpu h.busy h.oneCpu
  exact ⟨by rw [State.dispatchDevices, he]; rfl, hg⟩

/-- Before the instruction's end a board step under a table that has EXEC0's entry for its opcode is one under EXEC0: of
its parts only the dispatch of the CPU looks at the table. -/
theorem boardStep_executing {t : State} (hb : boardStep X s = .next t) :
    boardStep exec0 s = .next t ∧ (t.resting = false → t.Executing op) := by
  have hm := refused_of_boardStep hb
  obtain ⟨hd, hg⟩ := State.dispatchDevices_executing hX h.clocked
  have hsame : boardStep X s = boardStep exec0 s := by
    rw [boardStep_of_run X hm h.running, boardStep_of_run exec0 hm h.running, State.runStep, State.runStep, hd]
  rw [hsame] at hb
  refine ⟨hb, fun hr => ?_⟩
  have hone := atMostOneCpu_of_devicesRun (boardStep_devicesRun exec0 s.devices s t hb .refl) h.oneCpu
  simp only [State.resting, Bool.or_eq_false_iff, bne_eq_false_iff_eq] at hr
  obtain ⟨hrun, hrest⟩ := hr
  rw [boardStep_of_run exec0 hm h.running, State.runStep] at hb
  obtain rfl := Host.Outcome.next.inj hb
  have hc := State.cpu_drainRequest _ hrest
  rw [hc] at hrest
  exact ⟨hrun, by rwa [hc], hc ▸ hg hrest, hone⟩

end Board

/-- The phase that executes an opcode is the first of such a run. -/
theorem State.executing_of_dispatching {s : State} (h : s.dispatching = true) (h1 : AtMostOneCpu s.devices) :
    s.Executing s.cpu.opcode := by
  simp only [State.dispatching, Bool.and_eq_true, beq_iff_eq, Bool.not_eq_true'] at h
  obtain ⟨⟨⟨hrun, -⟩, hstep⟩, hack⟩ := h
  exact ⟨hrun, by simp [Cpu.atRest, hstep], ⟨hack, fun _ => hstep, fun _ => rfl⟩, h1⟩

/-! ## The step -/

/-- The meaning of the instruction that is dispatched is a run under EXEC0. -/
theorem runBoard_of_exec {s t : State} {i : Instr} (hd : s.dispatching = true) (h1 : AtMostOneCpu s.devices)
    (hi : s.currentInstr = some i) (h : exec i s = .next t) :
    ∃ k, k ≤ Config.stepBound ∧ runBoard exec0 k s = .next t := by
  rw [exec_eq_runEntry] at h
  exact runBoard_of_advance (fun _ _ hs hb => boardStep_executing (exec0_of_decodeInstr hi).symm hs hb) h
    (s.executing_of_dispatching hd h1)

/-- The fetch is a run under EXEC0 by its definition. -/
theorem runBoard_of_fetch {s t : State} (h1 : AtMostOneCpu s.devices) (h : s.fetch = .next t) :
    AtMostOneCpu t.devices ∧ ∃ k, k ≤ Config.stepBound ∧ runBoard exec0 k s = .next t := by
  unfold State.fetch at h
  split_ifs at h
  · obtain rfl := Host.Outcome.next.inj h
    exact ⟨h1, 0, Nat.zero_le _, rfl⟩
  · exact ⟨advance_keeps_atMostOneCpu h h1, runBoard_of_advance_same h⟩

/-- Settles O51: the fetch, then the meaning of the instruction or a run under EXEC0, each within the bound of log 1. -/
theorem stepIsARunOfBoardSteps : Obligations.StepIsARunOfBoardSteps := by
  intro s t hs h
  obtain ⟨-, -, h1, -⟩ := boardSound_iff.mp hs
  unfold step at h
  split at h
  case h_2 | h_3 => cases h
  next u hf =>
  obtain ⟨hu, j, hj, hrun⟩ := runBoard_of_fetch h1 hf
  have rest : ∃ k, k ≤ Config.stepBound ∧ runBoard exec0 k u = .next t := by
    split_ifs at h with hd
    · split at h
      · next hi => exact runBoard_of_exec hd hu hi h
      · exact runBoard_of_advance_same h
    · exact ⟨0, Nat.zero_le _, h⟩
  obtain ⟨k, hk, hrun'⟩ := rest
  exact ⟨j + k, by omega, runBoard_trans hrun hrun'⟩

end Sys2Proof.Machine

/-!
PROOF. Which request a CPU tick services (R181, R182, R302): when each of the three below RESET is due, one equation of
the tick, and what each service leaves in the CPU.
-/
namespace Sys2Proof.Machine

section Service
variable (X : ExecTable) (mask : Byte) (n : Node)

/-- BUS-REQUEST takes the tick: the bus is given away, or BUSRQ is active at a cycle boundary (R308, R309). -/
abbrev Node.BusDue : Prop := n.cpu.busGranted = true ∨ n.bus.active .busrq = true ∧ n.cpu.step = .t1h1

/-- NMI is latched and the CPU at an instruction boundary (R184, R311). -/
abbrev Node.NmiDue : Prop := n.cpu.nmiPending = true ∧ n.cpu.atBoundary = true

/-- INT is active and enabled and the CPU at an instruction boundary (R184, R315). -/
abbrev Node.IntDue : Prop := n.bus.active .int = true ∧ n.cpu.iff1 = true ∧ n.cpu.atBoundary = true

/-- What a tick without RESET works on: reset_step is back at 0 (R33, R307). -/
def Node.noReset : Node := { n with cpu := { n.cpu with resetStep := 0 } }

/-- Without RESET: the first that is due of BUS-REQUEST, NMI and INT, else a phase of normal decode (R181, R302). -/
theorem prioritise_of_no_reset (h : n.bus.active .reset = false) :
    prioritise X mask n =
      if n.BusDue then busRequestStep n.noReset
      else if n.NmiDue then nmiEntry n.noReset
      else if n.IntDue then intEntry n.noReset
      else normalDecode X mask n.noReset := by
  simp only [prioritise, h, Bool.false_eq_true, if_false, Bool.or_eq_true, Bool.and_eq_true, beq_iff_eq, and_assoc]
  rfl

/-- Every RESET step clears the NMI latch and counts; none starts an acknowledge cycle or gives the bus away (R303 to
R306). -/
theorem resetStep_latches :
    (resetStep n).cpu.nmiPending = false ∧ (resetStep n).cpu.resetStep ≠ 0 ∧
      (n.cpu.iack = false → (resetStep n).cpu.iack = false) ∧
      (n.cpu.busGranted = false → (resetStep n).cpu.busGranted = false) := by
  by_cases h0 : n.cpu.resetStep = 0
  · rw [resetStep_of_zero h0]; exact ⟨rfl, nofun, fun _ => rfl, fun _ => rfl⟩
  by_cases h2 : n.cpu.resetStep = 2
  · rw [resetStep_of_two h2]; exact ⟨rfl, nofun, id, id⟩
  by_cases h4 : n.cpu.resetStep = 4
  · rw [resetStep_of_four h4]; exact ⟨rfl, nofun, id, id⟩
  · rw [resetStep_of_other h0 h2 h4]
    refine ⟨rfl, ?_, id, id⟩
    dsimp only
    split <;> omega

/-- Grant, hold and regain: the bus is given away afterwards unless it was and BUSRQ is released (R308, R309). -/
theorem busRequestStep_cpu :
    (busRequestStep n).cpu = { n.cpu with busGranted := !n.cpu.busGranted || n.bus.active .busrq } := by
  unfold busRequestStep
  split_ifs with hg hb
  · have e : (!n.cpu.busGranted || n.bus.active .busrq) = n.cpu.busGranted := by simp [hg, hb]
    rw [e]
  · simp [busRegain, hg, hb]
  · simp [busGrant, hg]

/-- Leaving the halt state writes `halted` and the HALT line (R311, R315). -/
theorem Node.leaveHalt_eq :
    n.leaveHalt = { n with cpu := { n.cpu with halted := false }, bus := n.bus.afterHalt n.cpu.halted } := by
  unfold Node.leaveHalt Bus.afterHalt
  split_ifs with h
  · rfl
  · rw [← Bool.eq_false_of_not_eq_true h]

variable {n}

theorem Cpu.atBoundary_iff {c : Cpu} :
    c.atBoundary = true ↔ c.mc = .m1 ∧ c.step = .t1h1 ∧ c.pipe = [] ∧ c.iack = false := by
  simp [Cpu.atBoundary, and_assoc]

/-- NMI entry pushes the two writes that save PC onto an empty pipeline (R311). -/
theorem nmiEntry_eq (h : n.cpu.atBoundary = true) :
    nmiEntry n = { n with cpu := n.cpu.nmiEntered, bus := n.bus.afterHalt n.cpu.halted } := by
  obtain ⟨-, hs, hp, -⟩ := Cpu.atBoundary_iff.mp h
  simp only [nmiEntry, Node.leaveHalt_eq, Node.takeException]
  rw [Node.pushAll_of_room _ _ (by simp [Cpu.preDecSp, hp, saveAndGo])]
  simp only [Cpu.preDecSp, hp, List.nil_append, Cpu.nmiEntered, hs]

/-- INT entry starts the acknowledge cycle (R315). -/
theorem intEntry_eq (n : Node) :
    intEntry n = { n with cpu := n.cpu.intEntered, bus := n.bus.afterHalt n.cpu.halted } := by
  simp only [intEntry, Node.leaveHalt_eq]
  rfl

end Service

/-- Settles O36: RESET first; without it the equation of the tick, each clause at its branch. -/
theorem oneRequestIsServicedByPriority : Obligations.OneRequestIsServicedByPriority := by
  intro X mask n c t
  obtain ⟨v, hv⟩ : ∃ v : Node, v = { n with cpu := c } := ⟨_, rfl⟩
  have hbus : n.bus = v.bus := by rw [hv]
  have hcpu : c = v.cpu := by rw [hv]
  have ht : t = prioritise X mask v := by rw [hv]; rfl
  have hn : ({ n with cpu := { c with resetStep := 0 } } : Node) = v.noReset := by rw [hv]; rfl
  rw [hn, ht, hbus, hcpu]
  refine ⟨fun hr => ?_, fun hr hq hg hs => ?_, fun hr hq hg hp hb => ?_, fun hr hq hg hp hi hf hb => ?_,
    fun hr hg => ?_, fun hr hg hq hp hi => ?_⟩
  · rw [prioritise, if_pos hr]
    exact resetStep_latches v
  all_goals rw [prioritise_of_no_reset X mask v hr]
  · rw [if_pos (.inr ⟨hq, hs⟩), busRequestStep_cpu]
    simp [Node.noReset, hg]
  · rw [if_neg (by simp [hq, hg]), if_pos ⟨hp, hb⟩, nmiEntry_eq (by exact hb)]
    rfl
  · rw [if_neg (by simp [hq, hg]), if_neg (by simp [hp]), if_pos ⟨hi, hf, hb⟩, intEntry_eq]
    rfl
  · rw [if_pos (.inl hg), busRequestStep_cpu]
    simp [Node.noReset, hg]
  · rw [if_neg, if_neg, if_neg]
    · rintro ⟨hi', hf, hb⟩
      simp [hi hi' hf] at hb
    · rintro ⟨hp', hb⟩
      simp [hp hp'] at hb
    · rintro (hg' | ⟨hq', hs⟩)
      · simp [hg] at hg'
      · exact hq hq' hs

end Sys2Proof.Machine

/-!
PROOF. The phases of M1, MR and MW (R191 to R197, R210, R215): the lines each drives, what it latches and schedules, and
the phase it goes on to; WAIT over a whole tick (R193, R371).
-/
namespace Sys2Proof.Machine

/-! ## The phase that follows -/

/-- The CPU at the next phase, or still at T2_H1 while WAIT is active (R193). -/
def Cpu.goesOn (c : Cpu) (b : Bus) : Cpu :=
  { c with step := if c.step = .t2h1 ∧ b.active .wait = true then .t2h1 else c.step.next }

section GoesOn
variable {n : Node}

theorem Node.waitPhase_eq (n : Node) :
    n.waitPhase =
      { n with cpu := { n.cpu with step := if n.bus.active .wait then n.cpu.step else n.cpu.step.next } } := by
  unfold Node.waitPhase
  split_ifs <;> rfl

theorem Node.waitPhase_goesOn (h : n.cpu.step = .t2h1) :
    n.waitPhase = { n with cpu := n.cpu.goesOn n.bus } := by
  rw [Node.waitPhase_eq]
  simp only [Cpu.goesOn, h, true_and]

/-- Every other phase goes on whatever WAIT is. -/
theorem Cpu.nextStep_goesOn {c : Cpu} (h : c.step ≠ .t2h1) (b : Bus) : c.nextStep = c.goesOn b := by
  simp [Cpu.goesOn, Cpu.nextStep, h]

end GoesOn

/-- schedule counts from the counter, or from 0 at the sentinel (R132, R133). -/
theorem Clock.schedule_eq (c : Clock) (delay : Nat) (a : Action) :
    c.schedule delay a = { c with events := c.events ++ [⟨max c.counter 0 + delay, a⟩] } := by
  have e : (if 0 ≤ c.counter then c.counter else 0) = max c.counter 0 := by split <;> omega
  rw [Clock.schedule, e]

/-! ## The opcode fetch (R190 to R197) -/

section M1
variable (X : ExecTable) (mask : Byte) {n : Node}

/-- Normal decode in M1 outside an acknowledge cycle is a phase of the opcode fetch (R186). -/
theorem normalDecode_m1 (hh : n.cpu.halted = false) (hm : n.cpu.mc = .m1) (ha : n.cpu.iack = false) :
    normalDecode X mask n = m1Phase X mask n := by
  simp only [normalDecode, hh, hm, ha, Bool.false_eq_true, if_false, if_true]

/-- A row of the phase table at a time, T4_H2 left out (R191 to R196). -/
theorem m1Phase_drives (h8 : n.cpu.step ≠ .t4h2) (hd : n.cpu.step ≠ .done) :
    n.bus.Drives (m1Phase X mask n).bus (m1Lines n.cpu) := by
  cases h : n.cpu.step <;> simp only [m1Phase, h]
  case t4h2 => exact absurd h h8
  case done => exact absurd h hd
  case t1h1 =>
    intro l
    cases l with
    | a i => simp only [m1Lines, h]; exact WordLines.get_write n.bus.addr n.cpu.pc i
    | _ => simp only [m1Lines, h]; rfl
  case t3h1 =>
    intro l
    cases l with
    | a i => simp only [m1Lines, h]; exact WordLines.get_write n.bus.addr (n.cpu.i ++ n.cpu.r) i
    | _ => simp only [m1Lines, h]; rfl
  case t2h1 =>
    rw [Node.waitPhase_goesOn h]
    exact Bus.drives_refl fun l => by simp only [m1Lines, h]
  all_goals intro l; cases l <;> simp only [m1Lines, h] <;> rfl

/-- What the fetch latches: the opcode at T3_H1, R incremented at T3_H2 (R194, R195). -/
def Cpu.fetchLatches (c : Cpu) (b : Bus) (mask : Byte) : Cpu :=
  { c with
    opcode := if c.step = .t3h1 then b.dataRead else c.opcode
    r := if c.step = .t3h2 then refreshIncrement mask c.r else c.r }

theorem Cpu.fetchLatches_of_other {c : Cpu} (h1 : c.step ≠ .t3h1) (h2 : c.step ≠ .t3h2) (b : Bus) :
    c.fetchLatches b mask = c := by
  simp only [Cpu.fetchLatches, h1, h2, if_false]

/-- The CPU, the clock and the mark after a phase but the last: T3_H1 schedules the refresh release (R194). -/
theorem m1Phase_leaves (h8 : n.cpu.step ≠ .t4h2) (hd : n.cpu.step ≠ .done) :
    (m1Phase X mask n).cpu = (n.cpu.fetchLatches n.bus mask).goesOn n.bus ∧
      (m1Phase X mask n).clock =
        { n.clock with
          events := n.clock.events ++
            if n.cpu.step = .t3h1 then [⟨max n.clock.counter 0 + 4, .rfshRelease⟩] else [] } ∧
      (m1Phase X mask n).refused = n.refused := by
  cases h : n.cpu.step <;> simp only [m1Phase, h]
  case t4h2 => exact absurd h h8
  case done => exact absurd h hd
  case t3h1 => simp [m1T3H1, Clock.schedule_eq, Config.rfshDelay, Cpu.fetchLatches, Cpu.goesOn, Cpu.nextStep, h]
  case t3h2 => simp [m1T3H2, Cpu.fetchLatches, Cpu.goesOn, Cpu.nextStep, h]
  case t2h1 =>
    rw [Node.waitPhase_goesOn h, Cpu.fetchLatches_of_other _ (by simp [h]) (by simp [h])]
    simp
  all_goals
    rw [Cpu.fetchLatches_of_other _ (by simp [h]) (by simp [h])]
    exact ⟨Cpu.nextStep_goesOn (by simp [h]) _, by simp [m1T1H1, m1T1H2], rfl⟩

/-- T4_H2: MREQ rises, PC's increment is scheduled, and the opcode is executed (R197). -/
theorem m1Phase_last (h : n.cpu.step = .t4h2) :
    m1Phase X mask n =
      Node.execute X
        { n with
          bus := n.bus.set .mreq .high
          clock :=
            { n.clock with events := n.clock.events ++ [⟨max n.clock.counter 0 + 1, .pcIncrement⟩] } } := by
  simp only [m1Phase, h, m1T4H2, Clock.schedule_eq, Config.pcIncDelay]
  rfl

/-- The one line of T4_H2, and HALT with it if the CPU halted (R197). -/
theorem Bus.drives_m1_last {c : Cpu} (b : Bus) (h : c.step = .t4h2) (halted : Bool) :
    b.Drives (if halted then (b.set .mreq .high).set .halt .low else b.set .mreq .high)
      (fun l => if l = .halt ∧ halted = true then some .low else m1Lines c l) := by
  intro l
  cases halted <;> cases l <;> simp only [m1Lines, h] <;> rfl

end M1

/-! ## The memory cycles (R210, R215) -/

section Micro
variable (X : ExecTable) (mask : Byte) {n : Node} {asel : AddrSel} {post : List PostAction} {rest : List MicroOp}

/-- Normal decode in M2 to M6 is a phase of the micro-op at the head (R186). -/
theorem normalDecode_micro (hh : n.cpu.halted = false) (hm : n.cpu.mc ≠ .m1) :
    normalDecode X mask n = microPhase n := by
  simp only [normalDecode, hh, hm, Bool.false_eq_true, if_false]

/-- The end of a cycle: the head of the pipeline is popped (R208). -/
theorem Cpu.endCycle_eq {c : Cpu} {u : MicroOp} (h : c.pipe = u :: rest) :
    c.endCycle = { c with pipe := rest, step := .done, mc := c.mc.next } := by
  simp only [Cpu.endCycle, h, List.tail_cons]

theorem mrPhase_drives (dst : Reg8) (post : List PostAction) :
    n.bus.Drives (mrPhase asel dst post n).bus (mrLines asel n.cpu) := by
  cases h : n.cpu.step <;> simp only [mrPhase, h]
  case t1h1 =>
    intro l
    cases l with
    | a i => simp only [mrLines, h]; exact WordLines.get_write n.bus.addr (n.cpu.address asel) i
    | _ => simp only [mrLines, h]; rfl
  case t2h1 =>
    rw [Node.waitPhase_goesOn h]
    exact Bus.drives_refl fun l => by simp only [mrLines, h]
  all_goals intro l; cases l <;> simp only [mrLines, h] <;> rfl

theorem mwPhase_drives (src : Reg8) (post : List PostAction) :
    n.bus.Drives (mwPhase asel src post n).bus (mwLines asel src n.cpu) := by
  cases h : n.cpu.step <;> simp only [mwPhase, h]
  case t1h1 =>
    intro l
    cases l with
    | a i => simp only [mwLines, h]; exact WordLines.get_write n.bus.addr (n.cpu.address asel) i
    | _ => simp only [mwLines, h]; rfl
  case t1h2 =>
    intro l
    cases l with
    | d i => simp only [mwLines, h]; exact WordLines.get_write n.bus.data (n.cpu.get8 src) i
    | _ => simp only [mwLines, h]; rfl
  case t3h2 =>
    intro l
    cases l with
    | d i => simp only [mwLines, h]; exact WordLines.get_release n.bus.data i
    | _ => simp only [mwLines, h]; rfl
  case t2h1 =>
    rw [Node.waitPhase_goesOn h]
    exact Bus.drives_refl fun l => by simp only [mwLines, h]
  all_goals intro l; cases l <;> simp only [mwLines, h] <;> rfl

variable (h7 : n.cpu.step ≠ .t4h1) (h8 : n.cpu.step ≠ .t4h2) (hd : n.cpu.step ≠ .done)
include h7 h8 hd

/-- What MR leaves in the CPU: at T3_H2 the byte is latched, the post-actions are done and the cycle ends (R210). -/
theorem mrPhase_leaves {dst : Reg8} (hp : n.cpu.pipe = .mr asel dst post :: rest) :
    (mrPhase asel dst post n).clock = n.clock ∧ (mrPhase asel dst post n).refused = n.refused ∧
      (mrPhase asel dst post n).cpu =
        if n.cpu.step = .t3h2 then
          { (n.cpu.set8 dst n.bus.dataRead).applyPost post with pipe := rest, step := .done, mc := n.cpu.mc.next }
        else n.cpu.goesOn n.bus := by
  cases h : n.cpu.step <;> simp only [mrPhase, h, reduceCtorEq, if_false, if_true]
  case t4h1 => exact absurd h h7
  case t4h2 => exact absurd h h8
  case done => exact absurd h hd
  case t3h2 =>
    refine ⟨rfl, rfl, ?_⟩
    simp only [mrT3H2]
    rw [Cpu.endCycle_eq (by simpa using hp)]
    simp
  case t2h1 => rw [Node.waitPhase_goesOn h]; exact ⟨rfl, rfl, rfl⟩
  all_goals exact ⟨rfl, rfl, Cpu.nextStep_goesOn (by simp [h]) _⟩

/-- What MW leaves in the CPU: at T3_H2 the post-actions are done and the cycle ends (R215). -/
theorem mwPhase_leaves {src : Reg8} (hp : n.cpu.pipe = .mw asel src post :: rest) :
    (mwPhase asel src post n).clock = n.clock ∧ (mwPhase asel src post n).refused = n.refused ∧
      (mwPhase asel src post n).cpu =
        if n.cpu.step = .t3h2 then
          { n.cpu.applyPost post with pipe := rest, step := .done, mc := n.cpu.mc.next }
        else n.cpu.goesOn n.bus := by
  cases h : n.cpu.step <;> simp only [mwPhase, h, reduceCtorEq, if_false, if_true]
  case t4h1 => exact absurd h h7
  case t4h2 => exact absurd h h8
  case done => exact absurd h hd
  case t3h2 =>
    refine ⟨rfl, rfl, ?_⟩
    simp only [mwT3H2]
    rw [Cpu.endCycle_eq (by simpa using hp)]
    simp
  case t2h1 => rw [Node.waitPhase_goesOn h]; exact ⟨rfl, rfl, rfl⟩
  all_goals exact ⟨rfl, rfl, Cpu.nextStep_goesOn (by simp [h]) _⟩

end Micro

/-! ## WAIT over a whole tick -/

/-- A phase that samples WAIT: T2_H1 of M1, MR and MW, T3_H1 of the acknowledge cycle (R193, R317). -/
def Cpu.SamplesWait (c : Cpu) : Prop :=
  c.mc = .m1 ∧ c.iack = false ∧ c.step = .t2h1 ∨ c.mc = .m1 ∧ c.iack = true ∧ c.step = .t3h1 ∨
    c.mc ≠ .m1 ∧ c.pipe ≠ [] ∧ c.step = .t2h1

/-- Normal decode is then the repeated phase. -/
theorem normalDecode_of_samplesWait (X : ExecTable) (mask : Byte) {n : Node} (hh : n.cpu.halted = false)
    (h : n.cpu.SamplesWait) : normalDecode X mask n = n.waitPhase := by
  obtain ⟨hm, ha, hs⟩ | ⟨hm, ha, hs⟩ | ⟨hm, hp, hs⟩ := h
  · simp only [normalDecode_m1 X mask hh hm ha, m1Phase, hs]
  · simp only [normalDecode_ack hh hm ha, iackPhase, hs]
  · obtain ⟨u, rest, hp⟩ := List.exists_cons_of_ne_nil hp
    cases u <;> simp only [normalDecode_micro X mask hh hm, microPhase, hp, mrPhase, mwPhase, hs]

/-- Such a phase starts no cycle, so no request but RESET is serviced there (R184, R308). -/
theorem cpuTick_of_samplesWait (X : ExecTable) (mask : Byte) {n : Node} (hr : n.bus.active .reset = false)
    (hg : n.cpu.busGranted = false) (hh : n.cpu.halted = false) (h : n.cpu.SamplesWait) :
    cpuTick X mask n = Node.waitPhase { n with cpu := { n.cpu.sampleNmi n.bus with resetStep := 0 } } := by
  have h1 : n.cpu.step ≠ .t1h1 := by obtain ⟨-, -, hs⟩ | ⟨-, -, hs⟩ | ⟨-, -, hs⟩ := h <;> simp [hs]
  have hd : n.cpu.step ≠ .done := by obtain ⟨-, -, hs⟩ | ⟨-, -, hs⟩ | ⟨-, -, hs⟩ := h <;> simp [hs]
  have hb : (n.cpu.sampleNmi n.bus).atBoundary = false := by simp [Cpu.atBoundary, h1]
  rw [cpuTick, Cpu.normalise_of_ne_done (n.cpu.sampleNmi n.bus) hd]
  refine (prioritise_of_no_reset X mask _ (by exact hr)).trans ?_
  rw [if_neg (by simp [hg, h1]), if_neg (by simp [hb]), if_neg (by simp [hb])]
  exact normalDecode_of_samplesWait X mask hh h

/-- Settles O42: the tick that samples WAIT, then the phases cycle by cycle. -/
theorem waitRepeatsItsPhase : Obligations.WaitRepeatsItsPhase := by
  refine ⟨?wait, ?m1, ?mr, ?mw⟩
  case wait =>
    intro X mask n hr hg hh h
    rw [cpuTick_of_samplesWait X mask hr hg hh h, Node.waitPhase_eq]
    rfl
  case m1 =>
    intro X mask n hh hm ha
    simp only [normalDecode_m1 X mask hh hm ha]
    refine ⟨fun h8 hd => ?_, fun h => ?_⟩
    · obtain ⟨hcpu, hclock, hmark⟩ := m1Phase_leaves X mask h8 hd
      exact ⟨m1Phase_drives X mask h8 hd, hmark, hclock, hcpu⟩
    · rw [m1Phase_last X mask h]
      refine ⟨Node.execute_clock X _, fun hx => ?_, fun e he hp hl => ?_⟩
      · rw [Node.execute_unwired (by exact hx)]
        exact ⟨by simpa using Bus.drives_m1_last n.bus h false, rfl, rfl⟩
      · rw [Node.execute_wired (by exact he) (by exact hp) (by omega)]
        exact ⟨Bus.drives_m1_last n.bus h _, rfl, rfl⟩
  case mr =>
    intro X mask n asel dst post rest hh hm hp h7 h8 hd
    have ht : normalDecode X mask n = mrPhase asel dst post n := by
      rw [normalDecode_micro X mask hh hm]; simp only [microPhase, hp]
    simp only [ht]
    exact ⟨mrPhase_drives dst post, mrPhase_leaves h7 h8 hd hp⟩
  case mw =>
    intro X mask n asel src post rest hh hm hp h7 h8 hd
    have ht : normalDecode X mask n = mwPhase asel src post n := by
      rw [normalDecode_micro X mask hh hm]; simp only [microPhase, hp]
    simp only [ht]
    exact ⟨mwPhase_drives src post, mwPhase_leaves h7 h8 hd hp⟩

end Sys2Proof.Machine

/-!
PROOF. The decode cursor, the pipeline and the latches agree (R33, R183 to R186, R202), and so no push ever finds the
pipeline full (R200): one invariant of the node, kept by every phase, every service, every device and every request.
-/
namespace Sys2Proof.Machine

/-! ## Moves of the cursor -/

/-- The fields that `CursorSound` looks at. -/
def Cpu.cursor (c : Cpu) : MCycle × HalfStep × List MicroOp × Bool × Bool × Bool × Nat :=
  (c.mc, c.step, c.pipe, c.iack, c.busGranted, c.halted, c.resetStep)

theorem CursorSound.congr {c c' : Cpu} (h : CursorSound c) (e : c'.cursor = c.cursor) : CursorSound c' := by
  simp only [Cpu.cursor, Prod.mk.injEq] at e
  obtain ⟨hm, hs, hp, ha, hg, hh, hr⟩ := e
  have hrest : c'.atRest = c.atRest := by simp only [Cpu.atRest, hm, hs, hp, ha]
  constructor
  case fetch => rw [hm, hs, hp]; exact h.fetch
  case later => rw [hm, hs, hp, ha]; exact h.later
  case depth => rw [hm, hp]; exact h.depth
  case granted => rw [hg, hs]; exact h.granted
  case halted => rw [hh, hrest]; exact h.halted
  case reset => rw [hr]; exact h.reset

/-- reset_step counts on its own (R33). -/
theorem CursorSound.counted {c : Cpu} (h : CursorSound c) {k : Nat} (hk : k ≤ 6) :
    CursorSound { c with resetStep := k } :=
  { h with reset := hk }

/-- At T1_H1 of an M1 with nothing pushed (R184). -/
theorem cursorSound_of_boundary {c : Cpu} (hm : c.mc = .m1) (hs : c.step = .t1h1) (hp : c.pipe = [])
    (hh : c.halted = true → c.iack = false) (hr : c.resetStep ≤ 6) : CursorSound c where
  fetch _ := ⟨hp, by rw [hs]; nofun⟩
  later h := absurd hm h
  depth h := absurd hm h
  granted _ := hs
  halted h := by simp [Cpu.atRest, hp, hh h, hm, hs]
  reset := hr

/-- The construction values (R44). -/
theorem cursorSound_zero : CursorSound Cpu.zero := cursorSound_of_boundary rfl rfl rfl nofun (Nat.zero_le 6)

/-- At M2, complete or at T1_H1, with at most four micro-ops (R202). -/
theorem cursorSound_of_m2 {c : Cpu} (hm : c.mc = .m2) (hs : c.step = .done ∨ c.step = .t1h1 ∧ c.pipe ≠ [])
    (hl : c.pipe.length ≤ 4) (ha : c.iack = false) (hg : c.busGranted = false)
    (hh : c.halted = true → c.pipe = [] ∧ c.step = .done) (hr : c.resetStep ≤ 6) : CursorSound c where
  fetch h := by rw [hm] at h; cases h
  later _ := by
    obtain h | ⟨h, hp⟩ := hs
    · exact ⟨ha, by simp [h], by simp [h], fun _ => h⟩
    · exact ⟨ha, by simp [h], by simp [h], fun e => absurd e hp⟩
  depth _ := by rw [hm]; simp only [MCycle.index]; omega
  granted h := by rw [hg] at h; cases h
  halted h := by simp [Cpu.atRest, hh h, ha]
  reset := hr

/-- DONE comes behind T4_H2 only (R185). -/
theorem HalfStep.next_ne_done {st : HalfStep} (h8 : st ≠ .t4h2) (hd : st ≠ .done) : st.next ≠ .done := by
  cases st with
  | t4h2 => exact absurd rfl h8
  | done => exact absurd rfl hd
  | _ => decide

/-- The phases of T4 come behind T3_H2 and T4_H1 only (R185). -/
theorem HalfStep.next_before_t4 {st : HalfStep} (h6 : st ≠ .t3h2) (h7 : st ≠ .t4h1) :
    st.next ≠ .t4h1 ∧ st.next ≠ .t4h2 := by
  cases st with
  | t3h2 => exact absurd rfl h6
  | t4h1 => exact absurd rfl h7
  | _ => decide

/-- What a phase of normal decode works on: the cursor is sound and not complete, the CPU owns the bus and is not halted
(R183, R186). -/
structure Cpu.Decoding (c : Cpu) : Prop where
  sound : CursorSound c
  started : c.step ≠ .done
  owns : c.busGranted = false
  awake : c.halted = false

section Decoding
variable {c : Cpu} (h : c.Decoding)
include h

theorem Cpu.Decoding.not_halted : c.halted ≠ true := by simp [h.awake]
theorem Cpu.Decoding.not_granted : c.busGranted ≠ true := by simp [h.owns]

/-- To another phase of the same cycle. -/
theorem Cpu.Decoding.goTo {st : HalfStep} (hd : st ≠ .done) (h6 : c.mc ≠ .m1 → st ≠ .t4h1 ∧ st ≠ .t4h2) :
    CursorSound { c with step := st } where
  fetch hm := ⟨(h.sound.fetch hm).1, hd⟩
  later hm :=
    have ⟨ha, _, _, hp⟩ := h.sound.later hm
    have ⟨h7, h8⟩ := h6 hm
    ⟨ha, h7, h8, fun e => absurd (hp e) h.started⟩
  depth := h.sound.depth
  granted hg := absurd hg h.not_granted
  halted hh := absurd hh h.not_halted
  reset := h.sound.reset

/-- A phase but the last of its cycle goes on to one of the same cycle, or repeats (R185, R193). -/
theorem Cpu.Decoding.goesOn (h8 : c.step ≠ .t4h2) (h6 : c.mc ≠ .m1 → c.step ≠ .t3h2) (b : Bus) :
    CursorSound (c.goesOn b) := by
  refine h.goTo ?_ fun hm => ?_
  · split
    · nofun
    · exact HalfStep.next_ne_done h8 h.started
  · obtain ⟨-, h7, -, -⟩ := h.sound.later hm
    split
    · exact ⟨nofun, nofun⟩
    · exact HalfStep.next_before_t4 (h6 hm) h7

/-- The end of a cycle takes one micro-op away and goes on by at most one cycle (R202, R208). -/
theorem Cpu.Decoding.endCycle (hm : c.mc ≠ .m1) : CursorSound c.endCycle := by
  obtain ⟨ha, -, -, hp⟩ := h.sound.later hm
  have hp : c.pipe ≠ [] := fun e => h.started (hp e)
  have hl := h.sound.depth hm
  have hi : c.mc.next.index ≤ c.mc.index + 1 := by cases c.mc <;> decide
  have ht : c.pipe.tail.length + 1 = c.pipe.length := by
    have := List.length_pos_iff.mpr hp
    rw [List.length_tail]; omega
  exact
    { fetch := fun h' => absurd h' (MCycle.next_ne_m1 _)
      later := fun _ => ⟨ha, nofun, nofun, fun _ => rfl⟩
      depth := fun _ => by simp only [Cpu.endCycle]; omega
      granted := fun hg => absurd hg h.not_granted
      halted := fun hh => absurd hh h.not_halted
      reset := h.sound.reset }

end Decoding

/-- Normalise starts the next cycle, or returns to M1 when nothing is left (R183). -/
theorem CursorSound.normalise {c : Cpu} (h : CursorSound c) : CursorSound c.normalise ∧ c.normalise.step ≠ .done := by
  by_cases hs : c.step = .done
  · have hm : c.mc ≠ .m1 := fun hm => (h.fetch hm).2 hs
    obtain ⟨ha, -⟩ := h.later hm
    by_cases hp : c.pipe = []
    · rw [Cpu.normalise_of_empty _ hs hp]
      exact ⟨cursorSound_of_boundary rfl rfl hp (fun _ => ha) h.reset, nofun⟩
    · rw [Cpu.normalise_of_pipe _ hs hp]
      refine ⟨{ h with fetch := fun h' => absurd h' hm, later := fun _ => ⟨ha, nofun, nofun, fun h' => absurd h' hp⟩,
                       granted := fun _ => rfl, halted := fun hh => ?_ }, nofun⟩
      have := h.halted hh
      simp [Cpu.atRest, hp] at this
  · rw [Cpu.normalise_of_ne_done _ hs]
    exact ⟨h, hs⟩

/-! ## The CPU's tick -/

/-- The invariant of the node: the cursor is sound, and no push has found the pipeline full (R200). -/
structure Node.Fits (n : Node) : Prop where
  cursor : CursorSound n.cpu
  room : n.refused ≠ some .pipelineOverflow

/-- Every entry of the table is that of an instruction of EXEC0. -/
def ExecTable.OfInstrs (X : ExecTable) : Prop := ∀ op e, X op = some e → ∃ i, e = entryOf i

section Tick
variable {X : ExecTable} (hX : X.OfInstrs) (mask : Byte) {n : Node}

/-- A phase of MR or MW goes on, or ends its cycle at T3_H2 (R210, R215). -/
theorem microPhase_fits (hc : n.cpu.Decoding) (hr : n.refused ≠ some .pipelineOverflow) (hm : n.cpu.mc ≠ .m1) :
    (microPhase n).Fits := by
  obtain ⟨-, h7, h8, hp⟩ := hc.sound.later hm
  obtain ⟨u, rest, hu⟩ := List.exists_cons_of_ne_nil fun e => hc.started (hp e)
  have fits {n' : Node} {c : Cpu} (hmark : n'.refused = n.refused)
      (hcpu : n'.cpu = if n.cpu.step = .t3h2 then c else n.cpu.goesOn n.bus)
      (he : c.cursor = n.cpu.endCycle.cursor) : n'.Fits := by
    refine ⟨?_, by rwa [hmark]⟩
    rw [hcpu]
    split_ifs with h6
    · exact (hc.endCycle hm).congr he
    · exact hc.goesOn h8 (fun _ => h6) _
  cases u with
  | mr asel dst post =>
    obtain ⟨-, hmark, hcpu⟩ := mrPhase_leaves h7 h8 hc.started hu
    simp only [microPhase, hu]
    exact fits hmark hcpu (by simp [Cpu.cursor, Cpu.endCycle, hu])
  | mw asel src post =>
    obtain ⟨-, hmark, hcpu⟩ := mwPhase_leaves h7 h8 hc.started hu
    simp only [microPhase, hu]
    exact fits hmark hcpu (by simp [Cpu.cursor, Cpu.endCycle, hu])

/-- The RESET sequence: step 0 puts the cursor at T1_H1 of an M1, the others leave it (R303 to R306). -/
theorem resetStep_fits (h : n.Fits) : (resetStep n).Fits := by
  by_cases h0 : n.cpu.resetStep = 0
  · rw [resetStep_of_zero h0]
    exact ⟨cursorSound_of_boundary rfl rfl rfl nofun (by decide : 1 ≤ 6), h.room⟩
  by_cases h2 : n.cpu.resetStep = 2
  · rw [resetStep_of_two h2]
    exact ⟨(h.cursor.counted (by decide : 3 ≤ 6)).congr rfl, h.room⟩
  by_cases h4 : n.cpu.resetStep = 4
  · rw [resetStep_of_four h4]
    exact ⟨(h.cursor.counted (by decide : 5 ≤ 6)).congr rfl, h.room⟩
  · have hk : (if n.cpu.resetStep < 6 then n.cpu.resetStep + 1 else n.cpu.resetStep) ≤ 6 := by
      have := h.cursor.reset
      split <;> omega
    rw [resetStep_of_other h0 h2 h4]
    exact ⟨(h.cursor.counted hk).congr rfl, h.room⟩

/-- The bus changes hands only at T1_H1 (R308, R309). -/
theorem busRequestStep_fits (h : n.Fits) (hb : n.BusDue) : (busRequestStep n).Fits := by
  have hs : n.cpu.step = .t1h1 := hb.elim h.cursor.granted And.right
  have hr : (busRequestStep n).refused = n.refused := by unfold busRequestStep; split_ifs <;> rfl
  refine ⟨?_, by rw [hr]; exact h.room⟩
  rw [busRequestStep_cpu]
  exact { h.cursor with granted := fun _ => hs }

theorem nmiEntry_fits (h : n.Fits) (hb : n.cpu.atBoundary = true) (hg : n.cpu.busGranted = false) :
    (nmiEntry n).Fits := by
  obtain ⟨-, hs, -, ha⟩ := Cpu.atBoundary_iff.mp hb
  rw [nmiEntry_eq hb]
  exact ⟨cursorSound_of_m2 rfl (.inr ⟨hs, nofun⟩) (by decide : 2 ≤ 4) ha hg nofun h.cursor.reset, h.room⟩

theorem intEntry_fits (h : n.Fits) (hb : n.cpu.atBoundary = true) : (intEntry n).Fits := by
  obtain ⟨hm, hs, hp, -⟩ := Cpu.atBoundary_iff.mp hb
  rw [intEntry_eq]
  exact ⟨cursorSound_of_boundary hm hs hp nofun h.cursor.reset, h.room⟩

include hX

/-- Execution pushes the at most four micro-ops of an entry onto the empty pipeline, none if it halts the CPU; or it
refuses the run for the opcode (R197, R202, R207, R292). -/
theorem Node.execute_fits (hc : n.cpu.Decoding) (hr : n.refused ≠ some .pipelineOverflow) (hp : n.cpu.pipe = [])
    (ha : n.cpu.iack = false) : (n.execute X).Fits := by
  cases hx : X n.cpu.opcode with
  | none => rw [Node.execute_unwired hx]; exact ⟨hc.sound, nofun⟩
  | some e =>
    obtain ⟨i, rfl⟩ := hX _ _ hx
    have hl := entryOf_ops_length i
    rw [Node.execute_wired hx (by rw [entryOf_imm_pipe, hp]) (by omega)]
    refine ⟨cursorSound_of_m2 rfl (.inl rfl) hl ?_ ?_ (fun hh => ⟨?_, rfl⟩) ?_, hr⟩
    · simp only [entryOf_imm_iack, ha]
    · simp only [entryOf_imm_busGranted, hc.owns]
    · by_contra ho
      exact hc.not_halted (entryOf_halted i _ ho ▸ hh)
    · simp only [entryOf_imm_resetStep, hc.sound.reset]

/-- A phase of M1 goes on, or executes the opcode at T4_H2 (R190 to R197). -/
theorem m1Phase_fits (hc : n.cpu.Decoding) (hr : n.refused ≠ some .pipelineOverflow) (hm : n.cpu.mc = .m1)
    (ha : n.cpu.iack = false) : (m1Phase X mask n).Fits := by
  by_cases h8 : n.cpu.step = .t4h2
  · rw [m1Phase_last X mask h8]
    exact Node.execute_fits hX (by exact hc) hr (by exact (hc.sound.fetch hm).1) ha
  · obtain ⟨hcpu, -, hmark⟩ := m1Phase_leaves X mask h8 hc.started
    refine ⟨?_, by rwa [hmark]⟩
    rw [hcpu]
    exact (hc.goesOn h8 (absurd hm) n.bus).congr rfl

/-- The end of the acknowledge cycle: two micro-ops in mode 1, four in mode 2, those of the entry in mode 0 (R318). -/
theorem iackT4H2_fits (hc : n.cpu.Decoding) (hr : n.refused ≠ some .pipelineOverflow) (hm : n.cpu.mc = .m1) :
    (iackT4H2 X n).Fits := by
  have hp := (hc.sound.fetch hm).1
  cases him : n.cpu.im with
  | im0 =>
    rw [iackT4H2_im0 him]
    refine Node.execute_fits hX ⟨?_, hc.started, hc.owns, hc.awake⟩ hr hp rfl
    exact
      { hc.sound with
        later := fun h => absurd hm h
        halted := fun hh => absurd hh hc.not_halted }
  | im1 =>
    rw [iackT4H2_im1 him hp]
    exact ⟨cursorSound_of_m2 rfl (.inl rfl) (by decide : 2 ≤ 4) rfl hc.owns (fun hh => absurd hh hc.not_halted)
      hc.sound.reset, hr⟩
  | im2 =>
    rw [iackT4H2_im2 him hp]
    exact ⟨cursorSound_of_m2 rfl (.inl rfl) (by decide : 4 ≤ 4) rfl hc.owns (fun hh => absurd hh hc.not_halted)
      hc.sound.reset, hr⟩

theorem iackPhase_fits (hc : n.cpu.Decoding) (hr : n.refused ≠ some .pipelineOverflow) (hm : n.cpu.mc = .m1) :
    (iackPhase X n).Fits := by
  by_cases h8 : n.cpu.step = .t4h2
  · simp only [iackPhase, h8]
    exact iackT4H2_fits hX hc hr hm
  · obtain ⟨-, -, hmark, hcpu⟩ := iackPhase_spec X n h8 hc.started
    refine ⟨?_, by rwa [hmark]⟩
    rw [hcpu]
    refine (hc.goTo (st := (n.cpu.ackPhase n.bus).step) ?_ (absurd hm)).congr rfl
    simp only [Cpu.ackPhase]
    split
    · nofun
    · exact HalfStep.next_ne_done h8 hc.started

theorem normalDecode_fits (h : n.Fits) (hd : n.cpu.step ≠ .done) (hg : n.cpu.busGranted = false) :
    (normalDecode X mask n).Fits := by
  unfold normalDecode
  split_ifs with hh hm ha
  · exact h
  all_goals have hc : n.cpu.Decoding := ⟨h.cursor, hd, hg, Bool.eq_false_of_not_eq_true hh⟩
  · exact iackPhase_fits hX hc h.room hm
  · exact m1Phase_fits hX mask hc h.room hm (Bool.eq_false_of_not_eq_true ha)
  · exact microPhase_fits hc h.room hm

theorem prioritise_fits (h : n.Fits) (hd : n.cpu.step ≠ .done) : (prioritise X mask n).Fits := by
  cases hr : n.bus.active .reset with
  | true => rw [prioritise, if_pos hr]; exact resetStep_fits h
  | false =>
    have h' : n.noReset.Fits := ⟨h.cursor.counted (Nat.zero_le 6), h.room⟩
    rw [prioritise_of_no_reset X mask n hr]
    split_ifs with hb hn hi
    · exact busRequestStep_fits h' hb
    all_goals have hg : n.cpu.busGranted = false := by simpa using fun e => hb (.inl e)
    · exact nmiEntry_fits h' hn.2 hg
    · exact intEntry_fits h' hi.2.2
    · exact normalDecode_fits hX mask h' hd hg

theorem cpuTick_fits (h : n.Fits) : (cpuTick X mask n).Fits := by
  have hs : CursorSound (n.cpu.sampleNmi n.bus) := h.cursor.congr rfl
  exact prioritise_fits hX mask ⟨hs.normalise.1, h.room⟩ hs.normalise.2

end Tick

/-! ## The devices -/

/-- Another device reaches the lines, the clock, and the mark for a line that does not exist (R47, R124, R150). -/
theorem LineOp.apply_fits {o : LineOp} {n : Node} (h : n.Fits) : (o.apply n).Fits := by
  refine ⟨by rw [LineOp.apply_cpu]; exact h.cursor, ?_⟩
  cases o with
  | setId id v =>
    simp only [LineOp.apply]
    split
    · exact h.room
    · nofun
  | _ => exact h.room

section Dispatch
variable {X : ExecTable} (hX : X.OfInstrs) (mask : Byte)
include hX

theorem Device.tick_fits (d : Device) {n : Node} (h : n.Fits) : (d.tick X mask n).2.Fits := by
  unfold Device.tick
  split
  · exact cpuTick_fits hX mask h
  · exact ⟨h.cursor, h.room⟩
  · exact h
  · next ops _ _ => exact List.foldlRecOn ops _ h fun _ hn _ _ => LineOp.apply_fits hn

theorem Device.dispatch_fits (d : Device) {n : Node} (h : n.Fits) : (d.dispatch X mask n).2.Fits := by
  unfold Device.dispatch
  split
  · exact Device.tick_fits hX mask d h
  · split_ifs
    · exact h
    · exact Device.tick_fits hX mask _ h

theorem dispatchAll_fits (ds : List Device) {n : Node} (h : n.Fits) : (dispatchAll X mask ds n).2.Fits := by
  induction ds generalizing n with
  | nil => exact h
  | cons d ds ih => exact ih (Device.dispatch_fits hX mask d h)

end Dispatch

/-! ## The board -/

/-- Registration refuses a device for what it is, not for a pipeline (R75, R78, R156). -/
theorem registerDevice_error {ds : List Device} {d : Device} {r : Refusal} (h : registerDevice ds d = .error r) :
    r ≠ .pipelineOverflow := by
  unfold registerDevice at h
  rintro rfl
  split at h
  · cases h
  · split at h
    · split at h <;> cases h
    · cases h
    · split_ifs at h <;> cases h

theorem registerDevices_error {ds more : List Device} {r : Refusal} (h : registerDevices ds more = .error r) :
    r ≠ .pipelineOverflow := by
  induction more generalizing ds with
  | nil => cases h
  | cons d more ih =>
    unfold registerDevices at h
    split at h
    · exact ih h
    · next hd => exact registerDevice_error (Except.error.inj h ▸ hd)

theorem Task.perform_room (t : Task) {s : State} (h : s.refused ≠ some .pipelineOverflow) :
    (t.perform s).refused ≠ some .pipelineOverflow := by
  cases t with
  | addDevices ds =>
    simp only [Task.perform]
    split
    · exact h
    · next r hr => exact fun e => registerDevices_error hr (Option.some.inj e)
  | setFrequency hz => exact h
  | copyState device => exact h
  | foreign => exact nofun

/-- A request leaves the CPU alone or puts its construction values in place (R44, R165 to R168). -/
theorem Request.handle_fits (r : Request) {s : State} (h : s.toNode.Fits) : (r.handle s).toNode.Fits := by
  constructor
  · show CursorSound (r.handle s).cpu
    obtain hk | ⟨-, hz⟩ := r.handle_cpu s
    · rw [hk]; exact h.cursor
    · rw [hz]; exact cursorSound_zero
  · show (r.handle s).refused ≠ _
    cases r with
    | executeTask t => exact t.perform_room h.room
    | _ => simpa [Request.handle] using h.room

theorem State.drainRequest_fits {s : State} (h : s.toNode.Fits) : s.drainRequest.toNode.Fits := by
  cases hq : s.queue with
  | nil => rwa [State.drainRequest_of_nil hq]
  | cons r rest => rw [State.drainRequest_of_cons hq]; exact r.handle_fits (by exact h)

theorem boardStep_keeps_fits {X : ExecTable} (hX : X.OfInstrs) (s t : State) (h : boardStep X s = .next t) :
    s.toNode.Fits → t.toNode.Fits := by
  refine boardStep_keeps (P := fun s => s.toNode.Fits) (fun s hs => ?_) (fun s hs => ?_)
    (fun s hs => dispatchAll_fits hX s.params.rIncMask s.devices hs) (fun _ hs => ⟨hs.cursor, hs.room⟩)
    (fun _ => State.drainRequest_fits) h
  · exact ⟨s.takeArrivals_cpu ▸ hs.cursor, s.takeArrivals_refused ▸ hs.room⟩
  · refine ⟨hs.cursor.congr ?_, ?_⟩
    · show s.toNode.clockTick.cpu.cursor = _
      rw [Node.clockTick_cpu]; rfl
    · show s.toNode.clockTick.refused ≠ _
      rw [Node.clockTick_refused]; exact hs.room

/-! ## The step -/

theorem ofInstrs_exec0 : ExecTable.OfInstrs exec0 := fun _ _ => exec0_entry
theorem ofInstrs_entryOf (i : Instr) : ExecTable.OfInstrs fun _ => some (entryOf i) :=
  fun _ _ h => ⟨i, (Option.some.inj h).symm⟩

/-- Settles O54: a step that answers started from a board without the mark, and every board step keeps the invariant. -/
theorem stepKeepsTheCursorSound : Obligations.StepKeepsTheCursorSound := by
  intro s t hs h
  have hm : s.refused = none := by
    cases hm : s.refused with
    | none => rfl
    | some r => rw [step_of_refused hm] at h; cases h
  have hf : t.toNode.Fits := step_keeps (P := fun s => s.toNode.Fits) (boardStep_keeps_fits ofInstrs_exec0)
    (fun i => boardStep_keeps_fits (ofInstrs_entryOf i)) h ⟨hs, by rw [hm]; nofun⟩
  exact hf.cursor

/-- A board step refuses a board for its mark and for nothing else (R34). -/
theorem refused_of_boardStep_refused {X : ExecTable} {s : State} {r : Refusal} (h : boardStep X s = .refused r) :
    s.refused = some r := by
  cases hm : s.refused with
  | some r' => rw [boardStep_of_refused X hm] at h; rw [Host.Outcome.refused.inj h]
  | none =>
    cases hr : s.runState with
    | quit => rw [boardStep_of_quit X hm hr] at h; cases h
    | stop => rw [boardStep_of_stop X hm hr] at h; cases h
    | run => rw [boardStep_of_run X hm hr] at h; cases h

section Refusals
variable {P : State → Prop} {r : Refusal}

/-- A run that is refused came to a board that carries the reason, with everything that board steps keep. -/
theorem marked_of_advance_refused {X : ExecTable} (hP : ∀ s t, boardStep X s = .next t → P s → P t)
    {stop : State → Bool} {k : Nat} {s : State} (h : advance X stop k s = .refused r) (hs : P s) :
    ∃ u, P u ∧ u.refused = some r := by
  induction k generalizing s with
  | zero => cases h
  | succ k ih =>
    unfold advance at h
    split at h
    · next s' hb =>
      have hs' := hP s s' hb hs
      split at h
      · next hm => exact ⟨s', hs', by rw [hm, Host.Outcome.refused.inj h]⟩
      · split_ifs at h
        exact ih h hs'
    · cases h
    · next hb => exact ⟨s, hs, by rw [refused_of_boardStep_refused hb, Host.Outcome.refused.inj h]⟩

/-- The same of a step: the fetch, then the meaning of the instruction or a run under EXEC0. -/
theorem marked_of_step_refused (h0 : ∀ s t, boardStep exec0 s = .next t → P s → P t)
    (hi : ∀ i s t, boardStep (fun _ => some (entryOf i)) s = .next t → P s → P t) {s : State}
    (h : step s = .refused r) (hs : P s) : ∃ u, P u ∧ u.refused = some r := by
  unfold step at h
  split at h
  case h_2 => cases h
  case h_3 hf =>
    obtain rfl := Host.Outcome.refused.inj h
    unfold State.fetch at hf
    split_ifs at hf
    exact marked_of_advance_refused h0 hf hs
  next u hf =>
  have hu : P u := by
    unfold State.fetch at hf
    split_ifs at hf
    · exact Host.Outcome.next.inj hf ▸ hs
    · exact advance_keeps h0 hf hs
  split_ifs at h
  split at h
  · next i _ =>
    rw [exec_eq_runEntry] at h
    exact marked_of_advance_refused (hi i) h hu
  · exact marked_of_advance_refused h0 h hu

end Refusals

/-- Settles O55: a refused step came to a board with the mark, and the invariant excludes that one. -/
theorem pipelineNeverOverflows : Obligations.PipelineNeverOverflows := by
  intro s hs hm h
  obtain ⟨u, hu, hr⟩ := marked_of_step_refused (P := fun s => s.toNode.Fits) (boardStep_keeps_fits ofInstrs_exec0)
    (fun i => boardStep_keeps_fits (ofInstrs_entryOf i)) h ⟨hs, by rw [hm]; nofun⟩
  exact hu.room hr

end Sys2Proof.Machine

/-!
PROOF. A step is the fetch of the opcode and then exec of the decoded instruction (log 1, log 2), and so, on a board on
which nothing interferes, the instruction's net effect (R240 to R292, R370).
-/
namespace Sys2Proof.Machine

/-! ## The fetch and exec -/

/-- Where the fetch comes to an opcode that decodes, the step is exec of the instruction. -/
theorem step_of_fetch {s t : State} {i : Instr} (hf : s.fetch = .next t) (hd : t.dispatching = true)
    (hi : t.currentInstr = some i) : step s = exec i t := by
  simp only [step, hf, hd, hi, if_true]

/-- Settles O49: the fetch from a boundary leaves the memory, so there the bytes at PC are the instruction's; from the
phase that executes the opcode there is nothing to fetch. -/
theorem stepRunsTheDecodedInstruction : Obligations.StepRunsTheDecodedInstruction := by
  refine ⟨fun s m c i h hi => ?_, fun s i hd hi => step_of_fetch (if_pos hd) hd hi⟩
  obtain ⟨t, hf, hat, hd, hcpu, hcounter, hframe⟩ := fetch_boundary h
  rw [← h.toOnBoard.peek] at hcpu
  refine ⟨t, step_of_fetch hf hd ?_, hat, hcpu, hcounter, hframe⟩
  have hbytes : t.instrBytes = [s.peek c.pc, s.peek (c.pc + 1#16), s.peek (c.pc + 2#16)] := by
    rw [State.instrBytes, hcpu, hframe]
    rfl
  rw [State.currentInstr, hbytes, hi]

/-! ## The net effect -/

/-- The bytes of a decoded instruction are the first of those it was decoded from (R90). -/
theorem encode_of_decodeInstr {bytes : List Byte} {i : Instr} (h : decodeInstr bytes = some i) {k : Nat} {b : Byte}
    (hb : (encode i)[k]? = some b) : bytes[k]? = some b := by
  unfold decodeInstr at h
  split at h
  case h_2 => cases h
  next rest hd =>
  obtain rfl := Option.some.inj h
  obtain ⟨-, he⟩ := encodeOfDecodeIsTheBytes _ _ _ hd
  obtain ⟨hk, -⟩ := List.getElem?_eq_some_iff.mp hb
  rw [he, List.getElem?_append_left hk, hb]

/-- The length of an instruction: M1, of which the fetch is seven half-clocks, and six for each micro-op (R370). -/
theorem ticksOf_eq (i : Instr) : ticksOf i = 1 + 6 * (entryOf i).ops.length + 7 := by cases i <;> rfl

/-- The cursor and the latches that a rest clears do not matter to the net effect. -/
theorem netEffect_atPhase (i : Instr) (c : Cpu) (m : RefMem) (st : HalfStep) :
    (netEffect i (c.atPhase st) m).1.rested = (netEffect i c m).1.rested ∧
      (netEffect i (c.atPhase st) m).2 = (netEffect i c m).2 := by
  cases i with
  | ldDdNn dd nn => cases dd <;> exact ⟨rfl, rfl⟩
  | _ => exact ⟨rfl, rfl⟩

/-- Settles O50: exec leaves the net effect on the registers at the end of the fetch, and those are the fetched ones but
for the cursor and the latches of a rest. -/
theorem stepRefinesTheNetEffect : Obligations.StepRefinesTheNetEffect := by
  intro s m c i h hi
  obtain ⟨t, hstep, hat, hcpu, hcounter, hframe⟩ := stepRunsTheDecodedInstruction.1 s m c i h hi
  have hc : t.cpu = (c.fetched s.params.rIncMask (s.peek c.pc)).atPhase .t4h2 := hcpu
  have hpc : t.cpu.pc = c.pc := by rw [hcpu]
  have hpeek : ∀ a, t.peek a = s.peek a := fun a => by rw [hframe]; rfl
  obtain ⟨u, hu, hdone⟩ := exec_netEffect i hat
    (fun b hb => by rw [hpc, hpeek]; exact Option.some.inj (encode_of_decodeInstr hi hb))
    (fun b hb => by rw [hpc, hpeek]; exact Option.some.inj (encode_of_decodeInstr hi hb))
  obtain ⟨hregs, hmem⟩ := netEffect_atPhase i (c.fetched s.params.rIncMask (s.peek c.pc)) m .t4h2
  rw [hc, hregs, hmem] at hdone
  rw [ticksOf_eq]
  exact ⟨u, hstep.trans hu, hdone.after hcounter hframe⟩

end Sys2Proof.Machine

/-!
PROOF. The load and exchange instructions (R240 to R247): each is its net effect on the registers and the memory, read
off from the bytes of the opcode and the operands.
-/
namespace Sys2Proof.Machine

/-! ## The operand bytes in memory -/

/-- The operand bytes of the instruction stand after address a, where its opcode is (R90). -/
def State.OperandsAfter (s : State) (a : Word) (i : Instr) : Prop :=
  (encode i).tail <+: [s.peek (a + 1#16), s.peek (a + 2#16)]

section Operands
variable {s : State} {a : Word} {i : Instr}

theorem State.operandsAfter_none (h : (encode i).tail = []) : s.OperandsAfter a i := by
  rw [State.OperandsAfter, h]
  exact List.nil_prefix

theorem State.operandsAfter_byte {n : Byte} (h : (encode i).tail = [n]) (hn : s.peek (a + 1#16) = n) :
    s.OperandsAfter a i := by
  rw [State.OperandsAfter, h, hn]
  exact ⟨[s.peek (a + 2#16)], rfl⟩

theorem State.operandsAfter_word {nn : Word} (h : (encode i).tail = operandBytes nn)
    (hlo : s.peek (a + 1#16) = loByte nn) (hhi : s.peek (a + 2#16) = hiByte nn) : s.OperandsAfter a i := by
  rw [State.OperandsAfter, h, hlo, hhi]
  exact List.prefix_rfl

theorem State.OperandsAfter.getElem? (h : s.OperandsAfter a i) {k : Nat} {b : Byte}
    (hb : (encode i)[k + 1]? = some b) : [s.peek (a + 1#16), s.peek (a + 2#16)][k]? = some b := by
  rw [← List.getElem?_tail] at hb
  obtain ⟨hk, hbk⟩ := List.getElem?_eq_some_iff.mp hb
  rw [← hbk]
  exact List.prefix_iff_getElem?.mp h k hk

theorem State.OperandsAfter.first (h : s.OperandsAfter a i) (b : Byte) (hb : (encode i)[1]? = some b) :
    s.peek (a + 1#16) = b :=
  Option.some.inj (h.getElem? hb)

theorem State.OperandsAfter.second (h : s.OperandsAfter a i) (b : Byte) (hb : (encode i)[2]? = some b) :
    s.peek (a + 2#16) = b :=
  Option.some.inj (h.getElem? hb)

/-- The three bytes from the opcode on decode to the instruction (R90, R94). -/
theorem State.OperandsAfter.decodes (h : s.OperandsAfter a i) (hw : WellFormed i = true)
    (hop : (encode i).head? = some (s.peek a)) :
    decodeInstr [s.peek a, s.peek (a + 1#16), s.peek (a + 2#16)] = some i := by
  obtain ⟨rest, hrest⟩ := h
  rw [← hrest, ← List.cons_append, List.cons_head?_tail hop, decodeInstr,
    decodeOfEncodeIsTheInstruction i rest hw]

end Operands

/-! ## The net effect and the bytes of memory after it -/

/-- The bytes after a run are those of the memory it leaves. -/
theorem Completes.peek {s t : State} {m : RefMem} {c : Cpu} {k : Nat} (h : Completes s t m c k) (a : Word) :
    t.peek a = m.answer a :=
  h.rested.toOnBoard.peek a

/-- A run that leaves the memory as it was leaves every byte as it was. -/
theorem Completes.peek_eq {s t : State} {m : RefMem} {c : Cpu} {k : Nat} (h : Completes s t m c k) (hs : OnBoard s m)
    (a : Word) : t.peek a = s.peek a := by
  rw [h.peek, hs.peek]

/-- A write changes the byte of its address, where the device decodes it and may be written, and no other (R77). -/
theorem RefMem.answer_afterWrite {m : RefMem} (hm : m.wf = true) (a b : Word) (v : Byte) :
    (m.afterWrite b v).answer a = if a = b ∧ m.decodes b = true ∧ m.writable = true then v else m.answer a := by
  by_cases hw : m.decodes b = true ∧ m.writable = true
  · have hstore : m.afterWrite b v = m.store b v := if_pos (by simpa using hw)
    rw [hstore, RefMem.answer, RefMem.answer, RefMem.decodes_store, RefMem.byteAt_store (RefMem.wf_canonical hm)]
    by_cases hab : a = b
    · subst hab; simp [hw]
    · simp [hab]
  · have hkeep : m.afterWrite b v = m := if_neg (by simpa using hw)
    rw [hkeep, if_neg fun h => hw h.2]

/-- A run that leaves the memory after one write: the byte written, where it can be, and every other as before. -/
theorem Completes.peek_afterWrite {s t : State} {m : RefMem} {c : Cpu} {k : Nat} {b : Word} {v : Byte}
    (h : Completes s t (m.afterWrite b v) c k) (hs : OnBoard s m) (a : Word) :
    t.peek a = if a = b ∧ m.decodes b = true ∧ m.writable = true then v else s.peek a := by
  rw [h.peek, RefMem.answer_afterWrite hs.contents, hs.peek]

/-- A step from a boundary leaves the net effect of the instruction whose bytes stand at PC. -/
theorem step_netEffect {s : State} {m : RefMem} {c : Cpu} {op : Byte} (i : Instr) (hw : WellFormed i = true)
    (h : AtBoundary s m c) (he : (encode i).head? = some op) (hop : s.peek c.pc = op)
    (ho : s.OperandsAfter c.pc i) :
    ∃ t, step s = .next t ∧ Completes s t (netEffect i (c.fetched s.params.rIncMask op) m).2
      (netEffect i (c.fetched s.params.rIncMask op) m).1.rested (ticksOf i) := by
  subst hop
  exact stepRefinesTheNetEffect s m c i h (ho.decodes hw he)

/-- An instruction that stores nothing: registers and length of its net effect, and every byte as before. -/
theorem exec_keepsBytes {s : State} {m : RefMem} (i : Instr) (h : AtDispatch s m) (ho : s.OperandsAfter s.cpu.pc i)
    (hm : (netEffect i s.cpu m).2 = m) :
    ∃ t, exec i s = .next t ∧
      Completes s t m (netEffect i s.cpu m).1.rested (1 + 6 * (entryOf i).ops.length) ∧ ∀ a, t.peek a = s.peek a := by
  obtain ⟨t, ht, hc⟩ := exec_netEffect i h ho.first ho.second
  rw [hm] at hc
  exact ⟨t, ht, hc, hc.peek_eq h.toOnBoard⟩

/-- The same of a whole step. -/
theorem step_keepsBytes {s : State} {m : RefMem} {c : Cpu} {op : Byte} (i : Instr) (hw : WellFormed i = true)
    (h : AtBoundary s m c) (he : (encode i).head? = some op) (hop : s.peek c.pc = op)
    (ho : s.OperandsAfter c.pc i) (hm : (netEffect i (c.fetched s.params.rIncMask op) m).2 = m) :
    ∃ t, step s = .next t ∧
      Completes s t m (netEffect i (c.fetched s.params.rIncMask op) m).1.rested (ticksOf i) ∧
      ∀ a, t.peek a = s.peek a := by
  obtain ⟨t, ht, hc⟩ := step_netEffect i hw h he hop ho
  rw [hm] at hc
  exact ⟨t, ht, hc, hc.peek_eq h.toOnBoard⟩

/-! ## The load and exchange instructions -/

/-- Settles O1: the net effect of an instruction without operands and without micro-ops. -/
theorem nopOnlyAdvancesPc : Obligations.NopOnlyAdvancesPc :=
  ⟨rfl, fun _ _ h => exec_keepsBytes .nop h (State.operandsAfter_none rfl) rfl,
    fun _ _ _ h hop => step_keepsBytes .nop rfl h rfl hop (State.operandsAfter_none rfl) rfl⟩

/-- Settles O2, pair by pair: the two operand bytes are the pair's halves. -/
theorem ldDdNnLoadsThePair : Obligations.LdDdNnLoadsThePair := by
  refine ⟨rfl, rfl, rfl, rfl, fun s m dd nn h hlo hhi => ?_, fun s m c dd nn h hop hlo hhi => ?_⟩
  · have ho : s.OperandsAfter s.cpu.pc (.ldDdNn dd nn) := State.operandsAfter_word rfl hlo hhi
    cases dd <;> exact exec_keepsBytes _ h ho rfl
  · have ho : s.OperandsAfter c.pc (.ldDdNn dd nn) := State.operandsAfter_word rfl hlo hhi
    cases dd <;> exact step_keepsBytes _ rfl h rfl hop ho rfl

/-- Settles O3: one operand byte, read into A. -/
theorem ldANLoadsTheImmediate : Obligations.LdANLoadsTheImmediate :=
  ⟨rfl, fun _ _ n h hn => exec_keepsBytes (.ldAN n) h (State.operandsAfter_byte rfl hn) rfl,
    fun _ _ _ n h hop hn => step_keepsBytes (.ldAN n) rfl h rfl hop (State.operandsAfter_byte rfl hn) rfl⟩

/-- Settles O4: what the third read finds at nn is the memory's answer there, which is `State.peek`. -/
theorem ldANnLoadsTheByteAtNn : Obligations.LdANnLoadsTheByteAtNn := by
  refine ⟨rfl, fun s m nn h hlo hhi => ?_, fun s m c nn h hop hlo hhi => ?_⟩
  · rw [h.toOnBoard.peek nn]
    exact exec_keepsBytes (.ldANn nn) h (State.operandsAfter_word rfl hlo hhi) rfl
  · rw [h.toOnBoard.peek nn]
    exact step_keepsBytes (.ldANn nn) rfl h rfl hop (State.operandsAfter_word rfl hlo hhi) rfl

/-- Settles O5: the memory of the net effect is the old one after one write, of A at nn. -/
theorem ldNnAStoresAAtNn : Obligations.LdNnAStoresAAtNn := by
  refine ⟨rfl, fun s m nn h hlo hhi => ?_, fun s m c nn h hop hlo hhi => ?_⟩
  · have ho : s.OperandsAfter s.cpu.pc (.ldNnA nn) := State.operandsAfter_word rfl hlo hhi
    obtain ⟨t, ht, hc⟩ := exec_netEffect (.ldNnA nn) h ho.first ho.second
    exact ⟨t, ht, hc, hc.peek_afterWrite h.toOnBoard⟩
  · have ho : s.OperandsAfter c.pc (.ldNnA nn) := State.operandsAfter_word rfl hlo hhi
    obtain ⟨t, ht, hc⟩ := step_netEffect (.ldNnA nn) rfl h rfl hop ho
    exact ⟨t, ht, hc, hc.peek_afterWrite h.toOnBoard⟩

/-- Settles O6: as NOP, with the exchange as the immediate action. -/
theorem exAfAfSwapsAf : Obligations.ExAfAfSwapsAf :=
  ⟨rfl, fun _ _ h => exec_keepsBytes .exAfAf h (State.operandsAfter_none rfl) rfl,
    fun _ _ _ h hop => step_keepsBytes .exAfAf rfl h rfl hop (State.operandsAfter_none rfl) rfl⟩

/-- Settles O7: as NOP, with the three exchanges as the immediate action. -/
theorem exxSwapsTheMainPairs : Obligations.ExxSwapsTheMainPairs :=
  ⟨rfl, fun _ _ h => exec_keepsBytes .exx h (State.operandsAfter_none rfl) rfl,
    fun _ _ _ h hop => step_keepsBytes .exx rfl h rfl hop (State.operandsAfter_none rfl) rfl⟩

end Sys2Proof.Machine

/-!
PROOF. INC A (R260): the flag computation bit by bit, and from it the instruction, whose net effect holds that
computation.
-/
namespace Sys2Proof.Machine

/-- The two ways to say that a carry leaves bit 3 when 1 is added: the low nibble is 0xF. -/
theorem lowNibble_eq_iff (a : Byte) : a.extractLsb' 0 4 = 0xF#4 ↔ a &&& 0x0F#8 = 0x0F#8 := by
  have hmask : a.toNat &&& 15 = a.toNat % 16 := Nat.and_two_pow_sub_one_eq_mod a.toNat 4
  rw [← BitVec.toNat_inj, ← BitVec.toNat_inj, BitVec.extractLsb'_toNat, BitVec.toNat_and]
  change a.toNat % 16 = 15 ↔ a.toNat &&& 15 = 15
  rw [hmask]

/-- F after INC A, bit by bit from S to C (R260). -/
theorem getLsbD_incFlags (a f : Byte) :
    (incFlags a f).getLsbD 7 = (a + 1#8).getLsbD 7 ∧ (incFlags a f).getLsbD 6 = decide (a + 1#8 = 0x00#8) ∧
    (incFlags a f).getLsbD 5 = (a + 1#8).getLsbD 5 ∧
    (incFlags a f).getLsbD 4 = decide (a &&& 0x0F#8 = 0x0F#8) ∧
    (incFlags a f).getLsbD 3 = (a + 1#8).getLsbD 3 ∧ (incFlags a f).getLsbD 2 = decide (a = 0x7F#8) ∧
    (incFlags a f).getLsbD 1 = false ∧ (incFlags a f).getLsbD 0 = f.getLsbD 0 := by
  rw [← decide_eq_decide.mpr (lowNibble_eq_iff a)]
  simp only [incFlags, BitVec.getLsbD_append, BitVec.getLsbD_ofBool]
  exact ⟨rfl, rfl, rfl, rfl, rfl, rfl, rfl, rfl⟩

/-- Settles O8: as NOP, with `incFlags` for the new F; the fetch leaves A and F as they were. -/
theorem incAWritesAAndTheFlags : Obligations.IncAWritesAAndTheFlags := by
  refine ⟨rfl, fun s m h => ?_, fun s m c h hop => ?_⟩
  · obtain ⟨t, ht, hdone⟩ := exec_keepsBytes .incA h (State.operandsAfter_none rfl) rfl
    exact ⟨t, incFlags (hiByte s.cpu.af) (loByte s.cpu.af), getLsbD_incFlags _ _, ht, hdone⟩
  · obtain ⟨t, ht, hdone⟩ := step_keepsBytes .incA rfl h rfl hop (State.operandsAfter_none rfl) rfl
    exact ⟨t, incFlags (hiByte c.af) (loByte c.af), getLsbD_incFlags _ _, ht, hdone⟩

end Sys2Proof.Machine

/-!
PROOF. The control-transfer instructions (R270 to R274): each is its net effect on the registers and the memory; what is
left to say is the condition of JP NZ and the two bytes that CALL and RST save.
-/
namespace Sys2Proof.Machine

/-! ## The bytes after two writes -/

@[simp] theorem RefMem.decodes_afterWrite (m : RefMem) (a b : Word) (v : Byte) :
    (m.afterWrite b v).decodes a = m.decodes a := by
  unfold RefMem.afterWrite
  split <;> rfl

@[simp] theorem RefMem.writable_afterWrite (m : RefMem) (b : Word) (v : Byte) :
    (m.afterWrite b v).writable = m.writable := by
  unfold RefMem.afterWrite
  split <;> rfl

/-- After two writes an address has the later byte written to it, where the device decodes it and may be written
(R77). -/
theorem RefMem.answer_afterWrite_afterWrite {m : RefMem} (hm : m.wf = true) (a b b' : Word) (v v' : Byte) :
    ((m.afterWrite b v).afterWrite b' v').answer a =
      if m.decodes a = true ∧ m.writable = true then if a = b' then v' else if a = b then v else m.answer a
      else m.answer a := by
  rw [RefMem.answer_afterWrite (RefMem.afterWrite_wf b v hm), RefMem.answer_afterWrite hm,
    RefMem.decodes_afterWrite, RefMem.writable_afterWrite]
  have hwritten (x : Word) : (a = x ∧ m.decodes x = true ∧ m.writable = true) ↔
      (a = x ∧ m.decodes a = true ∧ m.writable = true) := and_congr_right fun e => by rw [e]
  simp only [hwritten]
  by_cases hw : m.decodes a = true ∧ m.writable = true
  · simp [hw]
  · simp [hw]

/-- A run that leaves the memory after two writes: the bytes written, where they can be, and every other as before. -/
theorem Completes.peek_afterWrite_afterWrite {s t : State} {m : RefMem} {c : Cpu} {k : Nat} {b b' : Word} {v v' : Byte}
    (h : Completes s t ((m.afterWrite b v).afterWrite b' v') c k) (hs : OnBoard s m) (a : Word) :
    t.peek a =
      if m.decodes a = true ∧ m.writable = true then if a = b' then v' else if a = b then v else s.peek a
      else s.peek a := by
  rw [h.peek, RefMem.answer_afterWrite_afterWrite hs.contents, hs.peek]

/-! ## The jumps -/

/-- Settles O9: the two operand bytes are the halves of nn, and WZ and PC take it. -/
theorem jpNnGoesToNn : Obligations.JpNnGoesToNn :=
  ⟨rfl, fun _ _ nn h hlo hhi => exec_keepsBytes (.jpNn nn) h (State.operandsAfter_word rfl hlo hhi) rfl,
    fun _ _ _ nn h hop hlo hhi =>
      step_keepsBytes (.jpNn nn) rfl h rfl hop (State.operandsAfter_word rfl hlo hhi) rfl⟩

/-- The condition NZ, read off from F (R271). -/
theorem netEffect_jpNzNn (nn : Word) (c : Cpu) (m : RefMem) :
    (netEffect (.jpNzNn nn) c m).1 =
      { c with wz := nn, pc := if (loByte c.af).getLsbD 6 = false then nn else c.pc + 3#16 } := by
  have hz : c.flagZ = (loByte c.af).getLsbD 6 := rfl
  rw [netEffect, hz]
  cases (loByte c.af).getLsbD 6 <;> rfl

/-- Settles O10: as JP nn, with the condition in PC alone. -/
theorem jpNzNnGoesToNnUnlessZ : Obligations.JpNzNnGoesToNnUnlessZ := by
  refine ⟨rfl, fun s m nn h hlo hhi => ?_, fun s m c nn h hop hlo hhi => ?_⟩
  · have ho : s.OperandsAfter s.cpu.pc (.jpNzNn nn) := State.operandsAfter_word rfl hlo hhi
    obtain ⟨t, ht, hdone⟩ := exec_keepsBytes (.jpNzNn nn) h ho rfl
    rw [netEffect_jpNzNn] at hdone
    exact ⟨t, ht, hdone⟩
  · have ho : s.OperandsAfter c.pc (.jpNzNn nn) := State.operandsAfter_word rfl hlo hhi
    obtain ⟨t, ht, hdone⟩ := step_keepsBytes (.jpNzNn nn) rfl h rfl hop ho rfl
    rw [netEffect_jpNzNn] at hdone
    exact ⟨t, ht, hdone⟩

/-! ## Subroutines -/

/-- Settles O11: the memory of the net effect is the old one after the two writes that save PC + 3. -/
theorem callNnSavesPcAndGoesToNn : Obligations.CallNnSavesPcAndGoesToNn := by
  refine ⟨rfl, fun s m nn h hlo hhi => ?_, fun s m c nn h hop hlo hhi => ?_⟩
  · have ho : s.OperandsAfter s.cpu.pc (.callNn nn) := State.operandsAfter_word rfl hlo hhi
    obtain ⟨t, ht, hdone⟩ := exec_netEffect (.callNn nn) h ho.first ho.second
    exact ⟨t, ht, hdone, hdone.peek_afterWrite_afterWrite h.toOnBoard⟩
  · have ho : s.OperandsAfter c.pc (.callNn nn) := State.operandsAfter_word rfl hlo hhi
    obtain ⟨t, ht, hdone⟩ := step_netEffect (.callNn nn) rfl h rfl hop ho
    exact ⟨t, ht, hdone, hdone.peek_afterWrite_afterWrite h.toOnBoard⟩

/-- Settles O12: what the two reads find at SP and SP + 1 is the memory's answer there, which is `State.peek`. -/
theorem retTakesPcFromTheStack : Obligations.RetTakesPcFromTheStack := by
  refine ⟨rfl, fun s m h => ?_, fun s m c h hop => ?_⟩
  · rw [h.toOnBoard.peek s.cpu.sp, h.toOnBoard.peek (s.cpu.sp + 1#16)]
    exact exec_keepsBytes .ret h (State.operandsAfter_none rfl) rfl
  · rw [h.toOnBoard.peek c.sp, h.toOnBoard.peek (c.sp + 1#16)]
    exact step_keepsBytes .ret rfl h rfl hop (State.operandsAfter_none rfl) rfl

/-! ## The restarts -/

/-- The opcode of the restart ttt: 11 ttt 111 (R91, R94). -/
def restartOpcode (ttt : BitVec 3) : Byte := 0b11#2 ++ ttt ++ 0b111#3

/-- The address of the restart ttt: 8 * ttt (R91, R274). -/
def restartTarget (ttt : BitVec 3) : Word := 0x00#8 ++ 0b00#2 ++ ttt ++ 0b000#3

theorem wellFormed_rstP_restartTarget : ∀ ttt, WellFormed (.rstP (restartTarget ttt)) = true := by decide

theorem encode_rstP_restartTarget : ∀ ttt, encode (.rstP (restartTarget ttt)) = [restartOpcode ttt] := by decide

/-- Whatever bytes follow, the opcode of a restart decodes to it (R90, R94). -/
theorem decodeInstr_restartOpcode (ttt : BitVec 3) (rest : List Byte) :
    decodeInstr (restartOpcode ttt :: rest) = some (.rstP (restartTarget ttt)) := by
  have h := decodeOfEncodeIsTheInstruction _ rest (wellFormed_rstP_restartTarget ttt)
  rw [encode_rstP_restartTarget, List.singleton_append] at h
  rw [decodeInstr, h]

/-- Settles O13: as CALL, with PC + 1 saved and the target in the entry; in mode 0 the byte runs the same entry, whose
immediate action is SP - 1, and the completion schedules nothing. -/
theorem rstPSavesPcAndGoesToP : Obligations.RstPSavesPcAndGoesToP := by
  refine ⟨fun ttt => ?_, fun s m p h => ?_, fun s m c ttt h hop => ?_, fun n ttt hp him hi => ?_⟩
  · exact congrArg (Option.map Entry.ops) (exec0_of_decodeInstr (decodeInstr_restartOpcode ttt []))
  · have ho : s.OperandsAfter s.cpu.pc (.rstP p) := State.operandsAfter_none rfl
    obtain ⟨t, ht, hdone⟩ := exec_netEffect (.rstP p) h ho.first ho.second
    exact ⟨t, ht, hdone, hdone.peek_afterWrite_afterWrite h.toOnBoard⟩
  · have ho : s.OperandsAfter c.pc (.rstP (restartTarget ttt)) := State.operandsAfter_none rfl
    obtain ⟨t, ht, hdone⟩ := step_netEffect (.rstP (restartTarget ttt)) (wellFormed_rstP_restartTarget ttt) h
      (congrArg List.head? (encode_rstP_restartTarget ttt)) hop ho
    exact ⟨t, ht, hdone, hdone.peek_afterWrite_afterWrite h.toOnBoard⟩
  · obtain ⟨hclock, hmode0, -⟩ := acknowledgeCompletesByMode.2 n hp
    obtain ⟨hcpu, -⟩ := hmode0 him (.rstP (restartTarget ttt)) (by rw [hi]; exact decodeInstr_restartOpcode ttt _)
    rw [hcpu]
    exact ⟨hclock, rfl, rfl, rfl⟩

end Sys2Proof.Machine

/-!
PROOF. DI, EI and HALT (R290 to R292): each is its net effect on the registers; and what the CPU tick at the boundary
after it does, or the HALT line that its last phase drives.
-/
namespace Sys2Proof.Machine

/-! ## The tick at an instruction boundary -/

section Boundary
variable {s : State} {m : RefMem} {c : Cpu}

/-- From a boundary with no interrupt to take, the CPU's next tick is T1_H1 of a fetch (R182, R191). -/
theorem AtBoundary.fetchTick (h : AtBoundary s m c) (X : ExecTable) (mask : Byte) :
    (cpuTick X mask s.clockTick.toNode).cpu = c.atPhase .t1h2 := by
  obtain ⟨hg, -, -, -, hq⟩ := h.toRested.tick
  obtain ⟨hm, hs, -, ha⟩ := h.toRested.cursor
  have hn : s.clockTick.cpu.normalise = c := h.cpu
  have hphase : c.settle = c.atPhase .t1h1 := by rw [← hs]; rfl
  have htick : cpuTick X mask s.clockTick.toNode =
      normalDecode X mask { s.clockTick.toNode with cpu := c.atPhase .t1h1 } := by
    rw [← hphase, ← hn]
    refine cpuTick_calm (n := s.clockTick.toNode) hq.toCalm ?_ ?_ ?_
    · rw [← Cpu.normalise_busGranted, hn, hg]
    · rw [← Cpu.normalise_nmiPending, hn, h.noNmi, Bool.false_and]
    · rw [← Cpu.normalise_iff1, hn, h.noInt, Bool.false_and]
  rw [htick, normalDecode_m1 X mask h.awake hm ha]
  rfl

/-- At rest with IFF1 set and no NMI latched, an active INT takes the CPU's next tick (R184, R315). -/
theorem Rested.intTick (h : Rested s m c) (hp : c.nmiPending = false) (hf : c.iff1 = true)
    (hi : s.clockTick.bus.active .int = true) (X : ExecTable) (mask : Byte) :
    (cpuTick X mask s.clockTick.toNode).cpu = c.intEntered.atPhase .t1h1 := by
  obtain ⟨hg, hbd, hk, hu, hq⟩ := h.tick
  have htick := cpuTick_int (X := X) (mask := mask) hq hg h.cpu hbd hp hi hf hk hu
  exact congrArg Node.cpu htick

end Boundary

/-! ## The HALT line -/

/-- The instruction that halts the CPU pulls HALT Low in its last phase (R197). -/
theorem exec_halt_line {s t : State} {m : RefMem} (h : AtDispatch s m) (ht : exec .halt s = .next t) :
    t.bus.active .halt = true := by
  have hbus : t.bus = s.bus.dispatched true := runEntry_bus h (entryOf_keepsCursor .halt) rfl ht
  rw [hbus]
  rfl

/-- The same of a step from a boundary at the opcode of HALT. -/
theorem step_halt_line {s t : State} {m : RefMem} {c : Cpu} (h : AtBoundary s m c) (hop : s.peek c.pc = 0x76#8)
    (ht : step s = .next t) : t.bus.active .halt = true := by
  have hi := (State.operandsAfter_none (s := s) (a := c.pc) (i := .halt) rfl).decodes rfl (by rw [hop]; rfl)
  obtain ⟨u, hu, hat, -⟩ := stepRunsTheDecodedInstruction.1 s m c .halt h hi
  exact exec_halt_line hat (hu.symm.trans ht)

/-! ## The instructions -/

/-- Settles O14: as NOP, with the flip-flops cleared; with IFF1 = 0 an active INT is no interrupt to take, so the board
is at a boundary where the next tick fetches. -/
theorem diClearsTheFlipFlops : Obligations.DiClearsTheFlipFlops := by
  refine ⟨rfl, fun s m h => ?_, fun s m c h hop => ?_⟩
  · obtain ⟨t, ht, hdone, hbytes⟩ := exec_keepsBytes .di h (State.operandsAfter_none rfl) rfl
    refine ⟨t, ht, hdone, hbytes, fun hnmi _ => ?_⟩
    exact AtBoundary.fetchTick ⟨hdone.rested, h.awake, hnmi, Bool.and_false _⟩ exec0 _
  · obtain ⟨t, ht, hdone, hbytes⟩ := step_keepsBytes .di rfl h rfl hop (State.operandsAfter_none rfl) rfl
    refine ⟨t, ht, hdone, hbytes, fun _ => ?_⟩
    exact AtBoundary.fetchTick ⟨hdone.rested, h.awake, h.noNmi, Bool.and_false _⟩ exec0 _

/-- Settles O15: as NOP, with the flip-flops set in the state the next boundary finds, so that an active INT is entered
there; the CPU was not halted, so INT entry changes nothing of the halt state. -/
theorem eiSetsTheFlipFlops : Obligations.EiSetsTheFlipFlops := by
  refine ⟨rfl, fun _ _ h => exec_keepsBytes .ei h (State.operandsAfter_none rfl) rfl, fun s m c h hop => ?_⟩
  obtain ⟨t, ht, hdone, hbytes⟩ := step_keepsBytes .ei rfl h rfl hop (State.operandsAfter_none rfl) rfl
  refine ⟨t, ht, hdone, hbytes, fun hint => ?_⟩
  rw [hdone.rested.intTick h.noNmi rfl hint, Cpu.intEntered, ← h.awake]
  rfl

/-- Settles O16: as NOP, with halted set; the HALT line is that of the instruction's last phase, and the test of halted
comes first in normal decode. -/
theorem haltStopsTheCpu : Obligations.HaltStopsTheCpu := by
  refine ⟨rfl, fun s m h => ?_, fun s m c h hop => ?_, fun _ _ _ hh => if_pos hh⟩
  · obtain ⟨t, ht, hdone, hbytes⟩ := exec_keepsBytes .halt h (State.operandsAfter_none rfl) rfl
    exact ⟨t, ht, hdone, exec_halt_line h ht, hbytes⟩
  · obtain ⟨t, ht, hdone, hbytes⟩ := step_keepsBytes .halt rfl h rfl hop (State.operandsAfter_none rfl) rfl
    exact ⟨t, ht, hdone, step_halt_line h hop ht, hbytes⟩

end Sys2Proof.Machine

/-!
PROOF. The RESET sequence from arbitrary register state (R303 to R307): what each of its CPU ticks writes, and what a
pulse of any length leaves.
-/
namespace Sys2Proof.Machine

/-! ## One tick under RESET -/

/-- A RESET step schedules nothing and sets no mark (R303 to R306). -/
theorem resetStep_keeps_clock_and_mark (n : Node) :
    (resetStep n).clock = n.clock ∧ (resetStep n).refused = n.refused := by
  unfold resetStep
  dsimp only
  split_ifs <;> exact ⟨rfl, rfl⟩

section Lines
variable (b : Bus)

theorem Bus.get_resetOutputs_outputs : ∀ l ∈ cpuOutputs, b.resetOutputs.get l = ⟨(b.get l).cur, .high⟩ := by
  have ho : ∀ l ∈ cpuOutputs, l.control = true := by decide
  intro l hl
  rw [Bus.get_resetOutputs b (ho l hl), if_pos hl]

theorem Bus.get_resetOutputs_inputs :
    ∀ l ∈ [Line.wait, .int, .nmi, .reset, .busrq], b.resetOutputs.get l = b.get l := by
  have hi : ∀ l ∈ [Line.wait, .int, .nmi, .reset, .busrq], l.control = true ∧ l ∉ cpuOutputs := by decide
  intro l hl
  obtain ⟨hc, hn⟩ := hi l hl
  rw [Bus.get_resetOutputs b hc, if_neg hn]

theorem Bus.get_resetOutputs_addr (i : Fin 16) : b.resetOutputs.get (.a i) = ⟨(b.get (.a i)).cur, .hiZ⟩ :=
  WordLines.get_release b.addr i

theorem Bus.get_resetOutputs_data (i : Fin 8) : b.resetOutputs.get (.d i) = ⟨(b.get (.d i)).cur, .hiZ⟩ :=
  WordLines.get_release b.data i

end Lines

/-- Settles O34: the tick is the RESET step that reset_step selects, and sampling and normalising leave reset_step
alone. -/
theorem resetStepsWriteTheirGroups : Obligations.ResetStepsWriteTheirGroups := by
  intro X mask n hr c t
  have ht : t = resetStep { n with cpu := c } := cpuTick_of_reset X mask hr
  have hk : ({ n with cpu := c } : Node).cpu.resetStep = n.cpu.resetStep := by
    simp only [c, Cpu.normalise_resetStep, Cpu.sampleNmi_resetStep]
  rw [ht]
  refine ⟨fun h => ?_, fun h => ?_, fun h => ?_, fun h => ?_, fun h => ?_, resetStep_keeps_clock_and_mark _⟩
  · rw [resetStep_of_zero (hk.trans h)]
    exact ⟨rfl, n.bus.get_resetOutputs_outputs, n.bus.get_resetOutputs_addr, n.bus.get_resetOutputs_data,
      n.bus.get_resetOutputs_inputs⟩
  · rw [resetStep_of_two (hk.trans h)]
    exact ⟨rfl, rfl⟩
  · rw [resetStep_of_four (hk.trans h)]
    exact ⟨rfl, rfl⟩
  · rw [resetStep_of_other (by omega) (by omega) (by omega), hk, if_pos (by omega)]
    exact ⟨rfl, rfl⟩
  · rw [resetStep_of_other (by omega) (by omega) (by omega), hk, if_neg (by omega), ← hk]
    exact ⟨rfl, rfl⟩

/-! ## A pulse of several ticks -/

/-- The CPU after k ticks under RESET, from the register file c; `nmi` is what they sampled (R303 to R306, R310). -/
def Cpu.afterPulse (c : Cpu) (nmi : Bool) (k : Nat) : Cpu :=
  { c with
    iff1 := false, iff2 := false, im := .im0, mc := .m1, step := .t1h1, pipe := [], iack := false
    halted := false, busGranted := false, nmiPending := false, nmiSampled := nmi
    resetStep := min k 6
    pc := if 3 ≤ k then 0x0000#16 else c.pc
    far := if 3 ≤ k then 0x0000#16 else c.far
    sp := if 5 ≤ k then 0xFFFF#16 else c.sp
    af := if 5 ≤ k then 0xFFFF#16 else c.af }

/-- Normalising moves the cursor alone, which RESET step 0 sets (R183, R303). -/
theorem Cpu.resetFirst_normalise (c : Cpu) : c.normalise.resetFirst = c.resetFirst := by
  unfold Cpu.normalise
  split_ifs <;> rfl

section Pulse
variable {X : ExecTable} {mask : Byte}

/-- The first tick of the pulse also drives the outputs (R303). -/
theorem cpuTick_pulse_first {n : Node} (hr : n.bus.active .reset = true) (h0 : n.cpu.resetStep = 0) :
    cpuTick X mask n = { n with cpu := n.cpu.afterPulse (n.bus.active .nmi) 1, bus := n.bus.resetOutputs } := by
  have hk : (n.cpu.sampleNmi n.bus).normalise.resetStep = 0 := by simp [h0]
  rw [cpuTick_of_reset X mask hr, resetStep_of_zero hk, Cpu.resetFirst_normalise]
  rfl

/-- Every later tick is one step further (R304 to R306). -/
theorem cpuTick_pulse_next {c : Cpu} {k : Nat} {b : Bus} {q : Clock} {r : Option Refusal}
    (hr : b.active .reset = true) :
    cpuTick X mask ⟨c.afterPulse (b.active .nmi) (k + 1), b, q, r⟩ =
      ⟨c.afterPulse (b.active .nmi) (k + 2), b, q, r⟩ := by
  have hn : ((c.afterPulse (b.active .nmi) (k + 1)).sampleNmi b).normalise = c.afterPulse (b.active .nmi) (k + 1) := by
    rw [Cpu.normalise_of_ne_done _ (by rw [Cpu.sampleNmi_step]; nofun)]
    simp [Cpu.sampleNmi, Cpu.afterPulse]
  have hk : (c.afterPulse (b.active .nmi) (k + 1)).resetStep = min (k + 1) 6 := rfl
  rw [cpuTick_of_reset X mask hr, hn]
  obtain rfl | rfl | ⟨h2, h4⟩ : k = 1 ∨ k = 3 ∨ k ≠ 1 ∧ k ≠ 3 := by omega
  · exact resetStep_of_two rfl
  · exact resetStep_of_four rfl
  · -- k + 2 is neither of the two thresholds, so only reset_step moves
    have h3 : 3 ≤ k + 2 ↔ 3 ≤ k + 1 := by omega
    have h5 : 5 ≤ k + 2 ↔ 5 ≤ k + 1 := by omega
    have h6 : (if min (k + 1) 6 < 6 then min (k + 1) 6 + 1 else min (k + 1) 6) = min (k + 2) 6 := by split <;> omega
    rw [resetStep_of_other (by rw [hk]; omega) (by rw [hk]; omega) (by rw [hk]; omega), hk, h6]
    simp only [Cpu.afterPulse, h3, h5]

/-- A pulse that has begun goes on. -/
theorem cpuTicks_pulse {c : Cpu} {b : Bus} {q : Clock} {r : Option Refusal} (hr : b.active .reset = true) (j k : Nat) :
    cpuTicks X mask j ⟨c.afterPulse (b.active .nmi) (k + 1), b, q, r⟩ =
      ⟨c.afterPulse (b.active .nmi) (k + 1 + j), b, q, r⟩ := by
  induction j generalizing k with
  | zero => rfl
  | succ j ih => rw [cpuTicks, cpuTick_pulse_next hr, ih (k + 1), show k + 1 + 1 + j = k + 1 + (j + 1) by omega]

end Pulse

/-- Settles O35: the first tick, then k more. -/
theorem resetPulseDoesTheStepsItReaches : Obligations.ResetPulseDoesTheStepsItReaches := by
  intro X mask k n hr h0
  have hr' : n.bus.resetOutputs.active .reset = true := by rw [Bus.active_resetOutputs_reset, hr]
  rw [cpuTicks, cpuTick_pulse_first hr h0, ← n.bus.active_resetOutputs_nmi, cpuTicks_pulse hr' k 0,
    Bus.active_resetOutputs_nmi, show 0 + 1 + k = k + 1 by omega]
  rfl

end Sys2Proof.Machine

/-!
PROOF. The CPU tick without RESET as one equation of the node it was called on (R181, R302), and the bus request: grant,
hold and regain (R308, R309).
-/
namespace Sys2Proof.Machine

/-- What parts (4) to (7) of a tick without RESET work on: NMI sampled, the cursor normalised, reset_step back at 0
(R181, R307). -/
def Node.ready (n : Node) : Node := { n with cpu := { (n.cpu.sampleNmi n.bus).normalise with resetStep := 0 } }

/-- The whole tick without RESET (R181, R182). -/
theorem cpuTick_of_no_reset (X : ExecTable) (mask : Byte) {n : Node} (h : n.bus.active .reset = false) :
    cpuTick X mask n =
      if n.ready.BusDue then busRequestStep n.ready
      else if n.ready.NmiDue then nmiEntry n.ready
      else if n.ready.IntDue then intEntry n.ready
      else normalDecode X mask n.ready :=
  prioritise_of_no_reset X mask { n with cpu := (n.cpu.sampleNmi n.bus).normalise } h

/-! ## The lines of a bus request -/

section Lines
variable (b : Bus)

/-- The lines that `Bus.strobes` sets (R308). -/
abbrev strobeLines : List Line := [.mreq, .rd, .wr, .iorq]

/-- The control lines that a bus request leaves alone (R308, R309). -/
abbrev linesOffTheBusRequest : List Line := [.m1, .rfsh, .halt, .wait, .int, .nmi, .reset, .busrq]

theorem Bus.get_strobes (v : Level) (l : Line) :
    (b.strobes v).get l = if l ∈ strobeLines then ⟨(b.get l).cur, v⟩ else b.get l := by
  cases l <;> simp [Bus.strobes, Bus.get_set]

/-- BUSACK and the strobes are set together; seen from every other line nothing happens. -/
theorem Bus.get_strobes_busack (v v' : Level) {l : Line} (h : l ∉ strobeLines) (h' : l ≠ .busack) :
    ((b.strobes v).set .busack v').get l = b.get l := by
  rw [Bus.get_set, if_neg h', Bus.get_strobes, if_neg h]

theorem Bus.cur_strobes_busack (v v' : Level) :
    (∀ l ∈ strobeLines, (((b.strobes v).set .busack v').get l).cur = v) ∧
      (((b.strobes v).set .busack v').get .busack).cur = v' := by
  have hs : ∀ l ∈ strobeLines, l ≠ .busack := by decide
  refine ⟨fun l hl => ?_, by rw [Bus.get_set, if_pos rfl]⟩
  rw [Bus.get_set, if_neg (hs l hl), Bus.get_strobes, if_pos hl]

theorem linesOffTheBusRequest_spared :
    ∀ l ∈ linesOffTheBusRequest, l.control = true ∧ l ∉ strobeLines ∧ l ≠ .busack := by decide

end Lines

/-- Settles O41: the bus request takes the tick in all three cases. -/
theorem busIsGrantedHeldAndRegained : Obligations.BusIsGrantedHeldAndRegained := by
  intro X mask n hr c t
  have hcpu : n.ready.cpu = c := rfl
  have due (h : n.ready.BusDue) : t = busRequestStep n.ready := (cpuTick_of_no_reset X mask hr).trans (if_pos h)
  refine ⟨fun hg hq hs => ?grant, fun hg hq => ?hold, fun hg hq => ?regain⟩
  case grant =>
    rw [due (.inr ⟨hq, hs⟩), busRequestStep, if_neg (by rw [hcpu, hg]; decide)]
    obtain ⟨hstrobes, hack⟩ := Bus.cur_strobes_busack n.bus.addrRelease.dataRelease .hiZ .low
    refine ⟨rfl, rfl, rfl, fun i => congrArg Signal.cur (WordLines.get_release n.bus.addr i),
      fun i => congrArg Signal.cur (WordLines.get_release n.bus.data i), hstrobes, hack, fun l hl => ?_⟩
    obtain ⟨hc, hn, ha⟩ := linesOffTheBusRequest_spared l hl
    refine (Bus.get_strobes_busack _ _ _ hn ha).trans ?_
    rw [Bus.get_dataRelease _ _ hc, Bus.get_addrRelease _ _ hc]
    rfl
  case hold =>
    rw [due (.inl hg), busRequestStep, if_pos (by rw [hcpu, hg]), if_pos (by exact hq)]
    rfl
  case regain =>
    rw [due (.inl hg), busRequestStep, if_pos (by rw [hcpu, hg]), if_neg (by rw [Bool.not_eq_true]; exact hq)]
    obtain ⟨hstrobes, hack⟩ := Bus.cur_strobes_busack n.bus .high .high
    refine ⟨rfl, rfl, rfl, fun l hl => ?_, fun i => rfl, fun i => rfl, fun l hl => ?_⟩
    · rcases List.mem_append.mp (show l ∈ strobeLines ++ [.busack] from hl) with h | h
      · exact hstrobes l h
      · rw [List.mem_singleton.mp h]
        exact hack
    · obtain ⟨-, hn, ha⟩ := linesOffTheBusRequest_spared l hl
      exact Bus.get_strobes_busack _ _ _ hn ha

end Sys2Proof.Machine

/-!
PROOF. The NMI latch (R310, R312): every tick samples the line; only a RESET step and NMI entry clear the latch, and no
phase of normal decode touches it.
-/
namespace Sys2Proof.Machine

/-- The two latches of NMI sampling (R310). -/
def Cpu.nmiLatches (c : Cpu) : Bool × Bool := (c.nmiPending, c.nmiSampled)

section Phases
variable (mask : Byte) (n : Node)

theorem Cpu.nmiLatches_set8 (c : Cpu) (r : Reg8) (v : Byte) : (c.set8 r v).nmiLatches = c.nmiLatches := by
  simp [Cpu.nmiLatches]

theorem Cpu.nmiLatches_applyPost (c : Cpu) (ps : List PostAction) :
    (c.applyPost ps).nmiLatches = c.nmiLatches := by
  simp [Cpu.nmiLatches]

theorem Node.nmiLatches_waitPhase : n.waitPhase.cpu.nmiLatches = n.cpu.nmiLatches := by
  unfold Node.waitPhase
  split <;> rfl

theorem Node.nmiLatches_pushAll (us : List MicroOp) : (n.pushAll us).cpu.nmiLatches = n.cpu.nmiLatches := by
  induction us generalizing n with
  | nil => rfl
  | cons u us ih =>
    have hpush : (n.push u).cpu.nmiLatches = n.cpu.nmiLatches := by unfold Node.push; split <;> rfl
    exact (ih (n.push u)).trans hpush

theorem Node.nmiLatches_toM2 : n.toM2.cpu.nmiLatches = n.cpu.nmiLatches := rfl

theorem Node.nmiLatches_takeException (w : Word) : (n.takeException w).cpu.nmiLatches = n.cpu.nmiLatches :=
  Node.nmiLatches_pushAll _ _

theorem microPhase_nmiLatches : (microPhase n).cpu.nmiLatches = n.cpu.nmiLatches := by
  unfold microPhase
  split
  · rfl
  · next asel dst post _ _ =>
    cases h : n.cpu.step <;> simp only [mrPhase, h]
    case t2h1 => exact Node.nmiLatches_waitPhase n
    case t3h2 => exact (Cpu.nmiLatches_applyPost _ _).trans (Cpu.nmiLatches_set8 _ _ _)
    all_goals rfl
  · next asel src post _ _ =>
    cases h : n.cpu.step <;> simp only [mwPhase, h]
    case t2h1 => exact Node.nmiLatches_waitPhase n
    case t3h2 => exact Cpu.nmiLatches_applyPost _ _
    all_goals rfl

/-- No instruction of EXEC0 has an immediate action on the latches (R98). -/
theorem Node.nmiLatches_execute : (n.execute exec0).cpu.nmiLatches = n.cpu.nmiLatches := by
  unfold Node.execute
  split
  · rfl
  · next e he =>
    obtain ⟨i, rfl⟩ := exec0_entry he
    have himm : ((entryOf i).imm n.cpu).nmiLatches = n.cpu.nmiLatches := by
      simp only [Cpu.nmiLatches, entryOf_imm_nmiPending, entryOf_imm_nmiSampled]
    have happly : (n.applyEntry (entryOf i)).cpu.nmiLatches = n.cpu.nmiLatches := by
      unfold Node.applyEntry
      dsimp only
      split <;> exact (Node.nmiLatches_pushAll _ _).trans himm
    exact happly

theorem m1Phase_nmiLatches : (m1Phase exec0 mask n).cpu.nmiLatches = n.cpu.nmiLatches := by
  cases h : n.cpu.step <;> simp only [m1Phase, h]
  case t2h1 => exact Node.nmiLatches_waitPhase n
  case t4h2 => exact Node.nmiLatches_execute _
  all_goals rfl

theorem iackPhase_nmiLatches : (iackPhase exec0 n).cpu.nmiLatches = n.cpu.nmiLatches := by
  cases h : n.cpu.step <;> simp only [iackPhase, h]
  case t3h1 => exact Node.nmiLatches_waitPhase n
  case t4h2 =>
    unfold iackT4H2
    dsimp only
    split
    · exact Node.nmiLatches_execute _
    · exact (Node.nmiLatches_toM2 _).trans (Node.nmiLatches_takeException _ _)
    · exact (Node.nmiLatches_toM2 _).trans (Node.nmiLatches_pushAll _ _)
  all_goals rfl

theorem normalDecode_nmiLatches : (normalDecode exec0 mask n).cpu.nmiLatches = n.cpu.nmiLatches := by
  unfold normalDecode
  split_ifs
  · rfl
  · exact iackPhase_nmiLatches n
  · exact m1Phase_nmiLatches mask n
  · exact microPhase_nmiLatches n

end Phases

/-! ## The tick -/

/-- RESET steps write no sample (R303 to R306). -/
theorem resetStep_nmiSampled (n : Node) : (resetStep n).cpu.nmiSampled = n.cpu.nmiSampled := by
  unfold resetStep
  dsimp only
  split_ifs <;> rfl

/-- Without RESET a tick keeps both latches as it sampled them, or is NMI entry, which clears the request at an
instruction boundary (R311). -/
theorem cpuTick_nmiLatches {mask : Byte} {n : Node} (hr : n.bus.active .reset = false) :
    (cpuTick exec0 mask n).cpu.nmiLatches = n.ready.cpu.nmiLatches ∨
      n.ready.cpu.atBoundary = true ∧ (cpuTick exec0 mask n).cpu.nmiLatches = (false, n.ready.cpu.nmiSampled) := by
  rw [cpuTick_of_no_reset exec0 mask hr]
  split_ifs with hbus hnmi hint
  · rw [busRequestStep_cpu]
    exact .inl rfl
  · rw [nmiEntry_eq hnmi.2]
    exact .inr ⟨hnmi.2, rfl⟩
  · rw [intEntry_eq]
    exact .inl rfl
  · exact .inl (normalDecode_nmiLatches mask _)

/-- What sampling leaves in the latches (R310). -/
theorem Node.ready_nmiLatches (n : Node) :
    n.ready.cpu.nmiLatches =
      (n.cpu.nmiPending || (n.bus.active .nmi && !n.cpu.nmiSampled), n.bus.active .nmi) := by
  simp [Node.ready, Cpu.nmiLatches]

/-- Sampling does not move the cursor (R310). -/
theorem Cpu.atBoundary_sampleNmi (c : Cpu) (b : Bus) :
    (c.sampleNmi b).normalise.atBoundary = c.normalise.atBoundary := by
  by_cases h : c.step = .done
  · by_cases hp : c.pipe = []
    · rw [Cpu.normalise_of_empty c h hp, Cpu.normalise_of_empty (c.sampleNmi b) h hp]
      rfl
    · rw [Cpu.normalise_of_pipe c h hp, Cpu.normalise_of_pipe (c.sampleNmi b) h hp]
      rfl
  · rw [Cpu.normalise_of_ne_done c h, Cpu.normalise_of_ne_done (c.sampleNmi b) h]
    rfl

theorem Node.ready_atBoundary (n : Node) : n.ready.cpu.atBoundary = n.cpu.normalise.atBoundary :=
  n.cpu.atBoundary_sampleNmi n.bus

/-- Off an instruction boundary and without RESET, both latches are as the tick sampled them. -/
theorem cpuTick_nmiPending_of_not_boundary (mask : Byte) {n : Node} (hr : n.bus.active .reset = false)
    (hb : n.cpu.normalise.atBoundary = false) :
    (cpuTick exec0 mask n).cpu.nmiPending = (n.cpu.nmiPending || (n.bus.active .nmi && !n.cpu.nmiSampled)) := by
  rcases cpuTick_nmiLatches (mask := mask) hr with h | ⟨hat, -⟩
  · exact congrArg Prod.fst (h.trans n.ready_nmiLatches)
  · rw [Node.ready_atBoundary, hb] at hat
    cases hat

/-- Settles O37: RESET clears the request; without RESET a tick keeps what it sampled, or clears the request at a
boundary. -/
theorem nmiIsLatchedOncePerChange : Obligations.NmiIsLatchedOncePerChange := by
  intro mask n t
  refine ⟨?_, fun hline hp => ?_, fun hr ha hs hb => ?_, fun hr hp hb => ?_⟩
  · cases hr : n.bus.active .reset with
    | true =>
      simp only [t, cpuTick_of_reset exec0 mask hr, resetStep_nmiSampled, Cpu.normalise_nmiSampled,
        Cpu.sampleNmi_nmiSampled]
    | false =>
      have hs := n.ready_nmiLatches
      rcases cpuTick_nmiLatches (mask := mask) hr with h | ⟨-, h⟩
      · exact congrArg Prod.snd (h.trans hs)
      · exact (congrArg Prod.snd h).trans (congrArg Prod.snd hs)
  · cases hr : n.bus.active .reset with
    | true =>
      simp only [t, cpuTick_of_reset exec0 mask hr]
      exact (resetStep_latches _).1
    | false =>
      have hnone : (n.cpu.nmiPending || (n.bus.active .nmi && !n.cpu.nmiSampled)) = false := by
        rcases hline with h | h <;> simp [hp, h]
      rcases cpuTick_nmiLatches (mask := mask) hr with h | ⟨-, h⟩
      · exact (congrArg Prod.fst (h.trans n.ready_nmiLatches)).trans hnone
      · exact congrArg Prod.fst h
  · rw [show t.cpu.nmiPending = _ from cpuTick_nmiPending_of_not_boundary mask hr hb, ha, hs]
    simp
  · rw [show t.cpu.nmiPending = _ from cpuTick_nmiPending_of_not_boundary mask hr hb, hp]
    simp

end Sys2Proof.Machine

/-!
PROOF. NMI and INT entry (R311, R315, R317, R318): the tick of the entry from any node, and the step from rest that it
begins: the entry, the acknowledge cycle of INT, and the cycles that drain the micro-ops either one pushed.
-/
namespace Sys2Proof.Machine

/-! ## The tick of the entry -/

section Tick
variable {X : ExecTable} {mask : Byte} {n : Node} (hr : n.bus.active .reset = false) (hq : n.bus.active .busrq = false)
  (hg : n.ready.cpu.busGranted = false)
include hq hg

theorem Node.not_busDue_ready : ¬ n.ready.BusDue := by
  rintro (h | ⟨h, -⟩)
  · rw [hg] at h; cases h
  · rw [show n.ready.bus.active .busrq = false from hq] at h; cases h

include hr

/-- NMI entry takes the tick where no bus request does (R302, R311). -/
theorem cpuTick_of_nmiDue (h : n.ready.NmiDue) :
    cpuTick X mask n =
      { n with
        cpu := { n.ready.cpu.nmiEntered with step := .t1h1 }, bus := n.bus.afterHalt n.ready.cpu.halted } := by
  obtain ⟨-, hs, -, -⟩ := Cpu.atBoundary_iff.mp h.2
  rw [cpuTick_of_no_reset X mask hr, if_neg (Node.not_busDue_ready hq hg), if_pos h, nmiEntry_eq h.2, ← hs]
  rfl

/-- INT entry takes the tick where neither a bus request nor NMI does (R302, R315). -/
theorem cpuTick_of_intDue (hn : ¬ n.ready.NmiDue) (h : n.ready.IntDue) :
    cpuTick X mask n =
      { n with cpu := n.ready.cpu.intEntered, bus := n.bus.afterHalt n.ready.cpu.halted } := by
  rw [cpuTick_of_no_reset X mask hr, if_neg (Node.not_busDue_ready hq hg), if_neg hn, if_pos h, intEntry_eq]
  rfl

end Tick

/-! ## The micro-ops of the entries -/

/-- The two writes that save PC: high byte, then low byte one address below, and the jump (R274, R311, R318). -/
theorem effects_saveAndGo (target : Word) (c : Cpu) (m : RefMem) :
    MicroOp.effects (saveAndGo target) (c, m) =
      ({ c with sp := c.sp - 1#16, pc := target },
        (m.afterWrite c.sp (hiByte c.pc)).afterWrite (c.sp - 1#16) (loByte c.pc)) := rfl

/-- The micro-ops of mode 2: the same two writes, and then PC is the word at WZ (R318). -/
theorem effects_vectorThroughWz (c : Cpu) (m : RefMem) :
    let stored := (m.afterWrite c.sp (hiByte c.pc)).afterWrite (c.sp - 1#16) (loByte c.pc)
    MicroOp.effects vectorThroughWz (c, m) =
      ({ c with sp := c.sp - 1#16, wz := c.wz + 1#16, pc := stored.answer (c.wz + 1#16) ++ stored.answer c.wz },
        stored) := by
  simp [vectorThroughWz, MicroOp.effects, MicroOp.effect, Cpu.address, Cpu.get8, Cpu.set8, Cpu.applyPost,
    PostAction.apply]

/-! ## The step that the entry begins -/

/-- The register file after INT entry and an acknowledge cycle that nothing answered, its completion left out (R79,
R315, R317). -/
def Cpu.acknowledged (c : Cpu) : Cpu := { c with halted := false, iff1 := false, iff2 := false, ibyte := 0x00#8 }

/-- It is the CPU of the cycle's last phase, with iack back at 0. -/
theorem Cpu.acknowledged_of_noAck {c : Cpu} (ha : c.iack = false) :
    c.acknowledged = { c.intEntered with ibyte := 0x00#8, iack := false } := by
  rw [← ha]
  rfl

section Step
variable {s : State} {m : RefMem} {c : Cpu}

/-- A run from rest that comes to a pipeline of micro-ops with no cycle of theirs begun is a step, which drains them:
six half-clocks each (R201). -/
theorem step_of_pushed (h : Rested s m c) {c' : Cpu} {st : HalfStep} {b : Bus} {us : List MicroOp} {j : Nat}
    (hreach : Reaches exec0 s.params.rIncMask Cpu.idle j (s.toNode.clockTick, m)
      (.mid c' st b (s.clock.counter + 1 + j), m))
    (hst : st = .done ∨ st = .t1h1) (hq : Quiet b) (hg : c'.busGranted = false) (hh : c'.halted = false)
    (ha : c'.iack = false) (hm : c'.mc ≠ .m1) (hp : c'.pipe = us) (hus : us ≠ [])
    (hj : 6 * us.length + j ≤ Config.stepBound) :
    ∃ t, step s = .next t ∧
      Completes s t (MicroOp.effects us (c', m)).2 (MicroOp.effects us (c', m)).1.rested (6 * us.length + j) := by
  have hd : m.driving = false := h.released
  have hw : m.wf = true := h.contents
  obtain ⟨b', c'', hq', -, hc'', hdrain⟩ :=
    micro_cycles (X := exec0) (mask := s.params.rIncMask) us hus hst hg hh ha hm hq hd hw hp
  have hidle : (c'.atPhase st).idle = false := by simp [Cpu.idle, hm, hp, hus]
  have hall := hreach.trans hidle hdrain
  have hk : s.clock.counter + 1 + (j : Int) + 6 * (us.length : Int) =
      s.clock.counter + 1 + ((6 * us.length + j : Nat) : Int) := by
    push_cast; omega
  rw [hk] at hall
  have hrested : c''.rested = (MicroOp.effects us (c', m)).1.rested := by rw [hc'']; rfl
  rw [← hrested]
  refine step_of_reaches h hall hq' ?_ (MicroOp.effects_wf us _ hw) ?_ ?_ (by rw [hc'']) hj
  · rw [MicroOp.effects_driving]; exact hd
  · rw [hc'']; exact (MicroOp.effects_busGranted us _).trans hg
  · rw [hc'']; exact (MicroOp.effects_iack us _).trans ha

/-- With an NMI latched: the entry and its two write cycles, 13 half-clocks (R311). -/
theorem step_nmi (h : Rested s m c) (hp : c.nmiPending = true) :
    ∃ t, step s = .next t ∧
      Completes s t ((m.afterWrite (c.sp - 1#16) (hiByte c.pc)).afterWrite (c.sp - 2#16) (loByte c.pc))
        ({ c with
            nmiPending := false, halted := false, iff1 := false, sp := c.sp - 2#16, pc := 0x0066#16 } : Cpu).rested 13 := by
  obtain ⟨hg, hbd, hk, hu, hq⟩ := h.tick
  obtain ⟨-, -, -, ha⟩ := h.cursor
  have hq' := (Bus.afterHalt_quiet hq c.halted).1
  have hentry :=
    rotate_quiet (cpuTick_nmi (X := exec0) (mask := s.params.rIncMask) hq hg h.cpu hbd hp hk hu) hq' h.released
  have hstep := step_of_pushed h (us := saveAndGo nmiEntryAddress) (.last hentry rfl) (.inr rfl) hq' hg rfl ha nofun rfl
    nofun (by decide)
  rw [← sub_one_one]
  exact hstep

variable (h : Rested s m c) (hp : c.nmiPending = false) (hf : c.iff1 = true) (hi : s.clockTick.bus.active .int = true)
include h hp hf hi

/-- INT entry and the acknowledge cycle up to its completion, eight half-clocks: nothing answers, so the byte is 0x00
(R79, R315, R317). -/
theorem reaches_acknowledged :
    ∃ b, Quiet b ∧
      Reaches exec0 s.params.rIncMask Cpu.idle 8 (s.toNode.clockTick, m)
        (.mid { c.intEntered with ibyte := 0x00#8 } .t4h2 b (s.clock.counter + 1 + 8), m) := by
  obtain ⟨hg, hbd, hk, hu, hq⟩ := h.tick
  obtain ⟨hm, -, -, -⟩ := h.cursor
  have hack : Acking c.intEntered := ⟨hm, hg, rfl, rfl⟩
  have hq' := (Bus.afterHalt_quiet hq c.halted).1
  have hentry :=
    rotate_quiet (cpuTick_int (X := exec0) (mask := s.params.rIncMask) hq hg h.cpu hbd hp hi hf hk hu) hq' h.released
  obtain ⟨b, hqb, -, -, hcycle⟩ := ack_cycle (X := exec0) (mask := s.params.rIncMask) hack hq' h.released
  refine ⟨b, hqb, ?_⟩
  have hall := Reaches.more hentry rfl (hack.goes_on _) hcycle
  rwa [show s.clock.counter + 1 + 1 + 7 = s.clock.counter + 1 + 8 by omega] at hall

/-- INT entry, the acknowledge cycle and its completion: nine half-clocks, whatever the completion leaves (R318). -/
theorem reaches_completed {c' : Cpu}
    (hlast : ∀ b k, Quiet b →
      rotate exec0 s.params.rIncMask (.mid { c.intEntered with ibyte := 0x00#8 } .t4h2 b k, m) =
        (.mid c' .done b (k + 1), m)) :
    ∃ b, Quiet b ∧
      Reaches exec0 s.params.rIncMask Cpu.idle 9 (s.toNode.clockTick, m)
        (.mid c' .done b (s.clock.counter + 1 + 9), m) := by
  obtain ⟨b, hqb, hreach⟩ := reaches_acknowledged h hp hf hi
  refine ⟨b, hqb, ?_⟩
  have hall := hreach.trans (by simp [Cpu.idle, Cpu.intEntered]) (.last (hlast b _ hqb) rfl)
  rwa [show s.clock.counter + 1 + 8 + 1 = s.clock.counter + 1 + 9 by omega] at hall

/-- Mode 0: the byte 0x00 runs as NOP, and PC is kept (R99, R318). -/
theorem step_int_mode0 (him : c.im = .im0) :
    ∃ t, step s = .next t ∧ Completes s t m ({ c.acknowledged with opcode := 0x00#8 } : Cpu).rested 9 := by
  obtain ⟨hg, -, -, -, -⟩ := h.tick
  obtain ⟨hm, -, hpipe, ha⟩ := h.cursor
  obtain ⟨b, hqb, hreach⟩ := reaches_completed h hp hf hi
    (c' := { c.acknowledged with opcode := 0x00#8, mc := .m2 })
    fun b k hqb => by
      rw [Cpu.acknowledged_of_noAck ha]
      exact rotate_ack_mode0 ⟨hm, hg, rfl, rfl⟩ rfl him hqb h.released
  have hstep := step_of_reaches h hreach hqb h.released h.contents hg ha hpipe (by decide)
  exact hstep

/-- Mode 1: PC is saved, and the CPU goes to 0x0038 (R318). -/
theorem step_int_mode1 (him : c.im = .im1) :
    ∃ t, step s = .next t ∧
      Completes s t ((m.afterWrite (c.sp - 1#16) (hiByte c.pc)).afterWrite (c.sp - 2#16) (loByte c.pc))
        ({ c.acknowledged with sp := c.sp - 2#16, pc := 0x0038#16 } : Cpu).rested 21 := by
  obtain ⟨hg, -, -, -, -⟩ := h.tick
  obtain ⟨hm, -, hpipe, ha⟩ := h.cursor
  obtain ⟨b, hqb, hreach⟩ := reaches_completed h hp hf hi
    (c' := { c.acknowledged with sp := c.sp - 1#16, pipe := saveAndGo intMode1Address, mc := .m2 })
    fun b k hqb => by
      rw [Cpu.acknowledged_of_noAck ha]
      exact rotate_ack_mode1 ⟨hm, hg, rfl, rfl⟩ hpipe him hqb h.released
  have hstep := step_of_pushed h (us := saveAndGo intMode1Address) hreach (.inl rfl) hqb hg rfl ha nofun rfl nofun
    (by decide)
  rw [← sub_one_one]
  exact hstep

/-- Mode 2: PC is saved, and the CPU goes to the word at I ++ 0x00 (R318). -/
theorem step_int_mode2 (him : c.im = .im2) :
    let stored := (m.afterWrite (c.sp - 1#16) (hiByte c.pc)).afterWrite (c.sp - 2#16) (loByte c.pc)
    ∃ t, step s = .next t ∧
      Completes s t stored
        ({ c.acknowledged with
            sp := c.sp - 2#16, wz := (c.i ++ 0x00#8) + 1#16
            pc := stored.answer ((c.i ++ 0x00#8) + 1#16) ++ stored.answer (c.i ++ 0x00#8) } : Cpu).rested 33 := by
  obtain ⟨hg, -, -, -, -⟩ := h.tick
  obtain ⟨hm, -, hpipe, ha⟩ := h.cursor
  obtain ⟨b, hqb, hreach⟩ := reaches_completed h hp hf hi
    (c' := { c.acknowledged with wz := c.i ++ 0x00#8, sp := c.sp - 1#16, pipe := vectorThroughWz, mc := .m2 })
    fun b k hqb => by
      rw [Cpu.acknowledged_of_noAck ha]
      exact rotate_ack_mode2 ⟨hm, hg, rfl, rfl⟩ hpipe him hqb h.released
  have hstep := step_of_pushed h (us := vectorThroughWz) hreach (.inl rfl) hqb hg rfl ha nofun rfl nofun (by decide)
  rw [effects_vectorThroughWz] at hstep
  rw [← sub_one_one]
  exact hstep

end Step

/-! ## The obligations -/

/-- Settles O38: the tick of the entry, then the step, whose memory is the old one after two writes. -/
theorem nmiEntrySavesPcAndGoesTo0066 : Obligations.NmiEntrySavesPcAndGoesTo0066 := by
  constructor
  · intro X mask n c hr hq hg hp hb
    exact cpuTick_of_nmiDue hr hq hg ⟨hp, hb⟩
  · intro s m c h hp
    obtain ⟨t, ht, hdone⟩ := step_nmi h hp
    exact ⟨t, ht, hdone, hdone.peek_afterWrite_afterWrite h.toOnBoard⟩

/-- Settles O39: the tick of the entry, then the step, mode by mode. -/
theorem intEntryRunsTheAcknowledgeCycle : Obligations.IntEntryRunsTheAcknowledgeCycle := by
  constructor
  · intro X mask n c hr hq hg hp hi hf hb
    have hn : ¬ n.ready.NmiDue := fun h => absurd (hp.symm.trans h.1) (by decide)
    exact cpuTick_of_intDue hr hq hg hn ⟨hi, hf, hb⟩
  · intro s m c h hp hf hi
    have other {k k' : IntMode} {P : Prop} (him : c.im = k) (hne : k ≠ k') (him' : c.im = k') : P :=
      absurd (him.symm.trans him') hne
    obtain him | him | him : c.im = .im0 ∨ c.im = .im1 ∨ c.im = .im2 := by cases c.im <;> simp
    · obtain ⟨t, ht, hdone⟩ := step_int_mode0 h hp hf hi him
      exact ⟨t, ht, fun _ => hdone, other him (by decide), other him (by decide)⟩
    · obtain ⟨t, ht, hdone⟩ := step_int_mode1 h hp hf hi him
      exact ⟨t, ht, other him (by decide), fun _ => hdone, other him (by decide)⟩
    · obtain ⟨t, ht, hdone⟩ := step_int_mode2 h hp hf hi him
      exact ⟨t, ht, other him (by decide), other him (by decide), fun _ => hdone⟩

end Sys2Proof.Machine
